-- ==== Sys2Proof/Word.lean ====
section
/-! DEFINITION. The word types of AES-MC and the closed sets of names its encodings use. The bit-field and byte-order helpers
stand in Sys2Proof/Decode.lean and Sys2Proof/Machine/Blocks.lean. -/

namespace Sys2Proof

/-- A word is 32 bits, unsigned (R7). CREG registers, BUF addresses, command words and device opcode words are words. -/
abbrev Word := BitVec 32

/-- One byte of a block or of BUF (R8, R63). -/
abbrev Byte := BitVec 8

/-- A block is 16 bytes `b[0]` .. `b[15]` (R8), 128 bits wide (R35). Byte `b[i]` is held in bits `8i+7 .. 8i`, so that `word(b, j)`
is the field `32j+31 .. 32j`. Keys, IVs and chaining values are blocks too. -/
abbrev Block := BitVec 128

/-- The FUNC field of a command word (R91, R92): 0 = ENCRYPT, 1 = DECRYPT, 2 = SET_KEY, 3 = reserved. -/
inductive Func where
  | enc
  | dec
  | setKey
  | reserved
  deriving DecidableEq, Repr

/-- The MODE field of a command word (R91, R93): 0 = ECB, 1 = CBC. -/
inductive Mode where
  | ecb
  | cbc
  deriving DecidableEq, Repr

/-- The two instruction formats (R90): the command word the host writes to MC_CMD, and the device opcode word MC writes to
AESU's CONTROL. -/
inductive Format where
  | cmd
  | devControl
  deriving DecidableEq, Repr

/-- The three operations of AESU (R40, R97). -/
inductive DevOp where
  | enc
  | dec
  | setKey
  deriving DecidableEq, Repr

end Sys2Proof
end

