-- ==== Sys2Proof/Config.lean ====
section
/-! DEFINITION. The implementation parameters of R6, the AES functions of R11 and the free values (draws). -/

namespace Sys2Proof

/-- The AESU register window's layout and opcode values: the injectable configuration of R6 and D24. Offsets are in bytes from
DEV_BASE. -/
structure DevParams where
  dinOff : Nat
  doutOff : Nat
  ctrlOff : Nat
  statOff : Nat
  regionBytes : Nat
  opcEncrypt : Word
  opcDecrypt : Word
  opcSetKey : Word
  deriving DecidableEq, Repr

/-- Two byte ranges `[a, a+m)` and `[b, b+n)` do not overlap. -/
def rangesApart (a m b n : Nat) : Bool := a + m ≤ b || b + n ≤ a

/-- What R6 and R62 ask of the parameters: opcodes pairwise distinct; offsets multiples of 4, each leaving room for its register inside
the window; the window at least 512 bytes long; the four register ranges apart. -/
def DevParams.ok (p : DevParams) : Bool :=
  (p.opcEncrypt != p.opcDecrypt && p.opcEncrypt != p.opcSetKey && p.opcDecrypt != p.opcSetKey)
  && (p.dinOff % 4 == 0 && p.doutOff % 4 == 0 && p.ctrlOff % 4 == 0 && p.statOff % 4 == 0)
  && decide (512 ≤ p.regionBytes)
  && (p.dinOff + 16 ≤ p.regionBytes && p.doutOff + 16 ≤ p.regionBytes
      && p.ctrlOff + 4 ≤ p.regionBytes && p.statOff + 4 ≤ p.regionBytes)
  && (rangesApart p.dinOff 16 p.doutOff 16 && rangesApart p.dinOff 16 p.ctrlOff 4
      && rangesApart p.dinOff 16 p.statOff 4 && rangesApart p.doutOff 16 p.ctrlOff 4
      && rangesApart p.doutOff 16 p.statOff 4 && rangesApart p.ctrlOff 4 p.statOff 4)

/-- The layout and opcodes of the source's section 6, the default values of R6. A machine has the layout its State holds (log entry 4). -/
def Config.dev : DevParams where
  dinOff := 0x00
  doutOff := 0x10
  ctrlOff := 0x20
  statOff := 0x24
  regionBytes := 512
  opcEncrypt := 0
  opcDecrypt := 1
  opcSetKey := 2

/-- The CONTROL value of an AESU operation (R97). -/
def DevParams.opc (p : DevParams) : DevOp → Word
  | .enc => p.opcEncrypt
  | .dec => p.opcDecrypt
  | .setKey => p.opcSetKey

/-- `BLOCK_BYTES` (R6): bytes per block, and of a key and an IV. -/
def Config.blockBytes : Nat := 16

/-- `CREG_BYTES` (R6, R30): the size of the CREG window. -/
def Config.cregBytes : Nat := 0x40

/-- `TIMEOUT_RESET` (R6, R28): the reset value of MC_TIMEOUT. -/
def Config.timeoutReset : Word := 0x00100000

/-- `DEV_BASE` (R6, R80): OPEN, the platform's. -/
opaque Config.devBase : Word

/-- `CREG_BASE` (R6, R61, R80): OPEN, the platform's. -/
opaque Config.cregBase : Word

/-- The bus address of the AESU register at offset `off` (R9, R80, R81). -/
def Config.devAddress (off : Nat) : Word := Config.devBase + BitVec.ofNat 32 off

/-- The bus address of the CREG register at offset `off` (R61, R80). -/
def Config.cregAddress (off : Nat) : Word := Config.cregBase + BitVec.ofNat 32 off

/-- The AES-128 transform under each key (R11): an arbitrary bijection of blocks, so that the two inverse laws are all that is
assumed of it (log entry 5). -/
opaque Config.aes : Block → Equiv.Perm Block

/-- `AES_E(k, x)` (R11). -/
def aesE (k x : Block) : Block := Config.aes k x

/-- `AES_D(k, x)` (R11). -/
def aesD (k x : Block) : Block := (Config.aes k).symm x

/-- Who takes the next step: one of the three agents of R3, or the platform applying one of the two resets of R250 to R252. -/
inductive Turn where
  | host
  | mc
  | aesu
  | mcReset
  | systemReset
  deriving DecidableEq, Repr, Inhabited

/-- Free value: who moves at draw `n` when the schedule names nobody (log entry 7). -/
opaque Config.freeTurn : Nat → Turn

/-- Free value: the STATUS word read at draw `n` in phase Fresh or Wedged (R135). -/
opaque Config.freeStatus : Nat → Word

/-- Free value: where the STATUS word read at draw `n` in phase Ready comes from; the word itself is `readyStatus` (R135). -/
opaque Config.freeReadySeed : Nat → Word

/-- Free value: word `j` of a DATA_OUT read at draw `n` in a phase other than Ready (R136). -/
opaque Config.freeDataOut : Nat → Nat → Word

/-- Free value: the result at draw `n` of an ENCRYPT or DECRYPT that completes with no key loaded (R134, R137). -/
opaque Config.freeResult : Nat → Block

/-- Free value: what the key slot holds once AESU is wedged at draw `n` (R139: it is unknown). -/
opaque Config.freeKey : Nat → Option Block

/-- Free value: the contents at draw `n` of DATA_IN (`i = 0`) and DATA_OUT (`i = 1`) after a system reset (R252). -/
opaque Config.freeResetBlock : Nat → Nat → Block

/-- Free value: which of the byte values a racing access may see is seen, at draw `n`, for byte `i` of the access (R75). -/
opaque Config.freeRaceIndex : Nat → Nat → Nat

/-- Free value: whether the later of two racing writes of one byte is lost, at draw `n`, for byte `i` of the access (R75). -/
opaque Config.freeRaceLost : Nat → Nat → Bool

end Sys2Proof
end

