-- ==== Sys2Proof/Syntax.lean ====
section
/-! DEFINITION. The instructions of AES-MC: one constructor per row of spec/opcode_table.json. -/

namespace Sys2Proof

/-- The rows of the opcode table. Five legal command words (R95), three classes of illegal command words (R96) with the bits
their class leaves open, and the three device opcodes (R97). -/
inductive Instr where
  /-- ECB_ENC, CMD word 0x0000_0000 (R192). -/
  | ecbEnc
  /-- ECB_DEC, CMD word 0x0000_0001 (R193). -/
  | ecbDec
  /-- LOAD_KEY, CMD word 0x0000_0002 (R191). -/
  | loadKey
  /-- CBC_ENC, CMD word 0x0000_0004 (R194). -/
  | cbcEnc
  /-- CBC_DEC, CMD word 0x0000_0005 (R195). -/
  | cbcDec
  /-- A command word with FUNC = 3 (R96, R196): MODE and RSVD are open. -/
  | illegalFunc3 (mode : Mode) (rsvd : BitVec 29)
  /-- A command word with FUNC = 2 and MODE = 1 (R93, R96, R196): RSVD is open. -/
  | illegalSetKeyMode1 (rsvd : BitVec 29)
  /-- A command word with a bit of RSVD set (R94, R96, R196) that neither of the two classes above takes in. -/
  | illegalRsvd (func : Func) (mode : Mode) (rsvd : BitVec 29)
  /-- The device opcode ENCRYPT (R128). -/
  | encrypt
  /-- The device opcode DECRYPT (R129). -/
  | decrypt
  /-- The device opcode SET_KEY (R130). -/
  | setKey
  deriving DecidableEq, Repr

/-- The format an instruction is encoded in (R90): commands in CMD, device opcodes in DEV_CONTROL. -/
def Instr.format : Instr → Format
  | .ecbEnc | .ecbDec | .loadKey | .cbcEnc | .cbcDec => .cmd
  | .illegalFunc3 _ _ | .illegalSetKeyMode1 _ | .illegalRsvd _ _ _ => .cmd
  | .encrypt | .decrypt | .setKey => .devControl

end Sys2Proof
end

