-- ==== Sys2Proof/WellFormed.lean ====
section
/-! DEFINITION. Which instruction terms stand for words. -/

namespace Sys2Proof

/-- A term is well formed when some word decodes to it. Only the class `illegalRsvd` has conditions: RSVD is nonzero (R94), and the
word is in neither of the other two illegal classes, which take it first (log entry 2). -/
def Instr.wf : Instr → Bool
  | .ecbEnc | .ecbDec | .loadKey | .cbcEnc | .cbcDec => true
  | .illegalFunc3 _ _ | .illegalSetKeyMode1 _ => true
  | .illegalRsvd func mode rsvd =>
      rsvd != 0 && func != Func.reserved && !(func == Func.setKey && mode == Mode.cbc)
  | .encrypt | .decrypt | .setKey => true

end Sys2Proof
end

