-- ==== Sys2Proof/Decode.lean ====
section
/-! DEFINITION. The decoder, total on every word of both formats, and after it the encoder, from the tables of 30_encoding.md. -/

namespace Sys2Proof

/-- The FUNC field's two bits as a name (R91). -/
def funcOfBits (b : BitVec 2) : Func :=
  if b = 0 then .enc else if b = 1 then .dec else if b = 2 then .setKey else .reserved

/-- The FUNC field's two bits (R91). -/
def funcBits : Func → BitVec 2
  | .enc => 0
  | .dec => 1
  | .setKey => 2
  | .reserved => 3

/-- The MODE bit as a name (R91). -/
def modeOfBit (b : BitVec 1) : Mode := if b = 1 then .cbc else .ecb

/-- The MODE bit (R91). -/
def modeBit : Mode → BitVec 1
  | .ecb => 0
  | .cbc => 1

/-- FUNC, bits [1:0] of a command word (R91). -/
def cmdFunc (w : Word) : Func := funcOfBits (w.extractLsb' 0 2)

/-- MODE, bit [2] of a command word (R91). -/
def cmdMode (w : Word) : Mode := modeOfBit (w.extractLsb' 2 1)

/-- RSVD, bits [31:3] of a command word (R91). -/
def cmdRsvd (w : Word) : BitVec 29 := w.extractLsb' 3 29

/-- The instruction a command word stands for (R91 to R96). Total: every word is one of the five legal commands or of one of the
three illegal classes, and no reserved encoding falls through to a command. -/
def decodeCmd (w : Word) : Instr :=
  match cmdFunc w, cmdMode w with
  | .reserved, mode => .illegalFunc3 mode (cmdRsvd w)
  | .setKey, .cbc => .illegalSetKeyMode1 (cmdRsvd w)
  | .setKey, .ecb => if cmdRsvd w = 0 then .loadKey else .illegalRsvd .setKey .ecb (cmdRsvd w)
  | .enc, .ecb => if cmdRsvd w = 0 then .ecbEnc else .illegalRsvd .enc .ecb (cmdRsvd w)
  | .enc, .cbc => if cmdRsvd w = 0 then .cbcEnc else .illegalRsvd .enc .cbc (cmdRsvd w)
  | .dec, .ecb => if cmdRsvd w = 0 then .ecbDec else .illegalRsvd .dec .ecb (cmdRsvd w)
  | .dec, .cbc => if cmdRsvd w = 0 then .cbcDec else .illegalRsvd .dec .cbc (cmdRsvd w)

/-- Why a device opcode word is rejected. -/
inductive Reject where
  /-- The word is none of the three `OPC_*` values (R98, R138). -/
  | notAnOpcode (w : Word)
  deriving DecidableEq, Repr

/-- The AESU operation a CONTROL word selects (R97, R133), for a layout `p`; any other word is rejected by name. -/
def decodeControl (p : DevParams) (w : Word) : Except Reject DevOp :=
  if w = p.opcEncrypt then .ok .enc
  else if w = p.opcDecrypt then .ok .dec
  else if w = p.opcSetKey then .ok .setKey
  else .error (.notAnOpcode w)

/-- The device opcode of an AESU operation, as an instruction (R97). -/
def devInstr : DevOp → Instr
  | .enc => .encrypt
  | .dec => .decrypt
  | .setKey => .setKey

/-- Decoding by format, for a layout `p`: a command word always decodes; a device opcode word decodes or is rejected. -/
def decodeAs (p : DevParams) : Format → Word → Option Instr
  | .cmd, w => some (decodeCmd w)
  | .devControl, w =>
      match decodeControl p w with
      | .ok op => some (devInstr op)
      | .error _ => none

/-- The instruction the decoder reads from a row's word, numbered as spec/opcode_table.json numbers it. The host hands command words
to AES-MC (R90), so the word is read in the CMD format; a number that is no 32-bit word is refused. The device opcode words are
read by `decodeControl`: their numbers are command words as well (log entry 3). -/
def decodeTableWord (nbits w : Nat) : Option Instr :=
  if nbits ≤ 32 ∧ w < 2 ^ 32 then some (decodeCmd (BitVec.ofNat 32 w)) else none

/-- A command word built from its fields RSVD : MODE : FUNC (R91). -/
def cmdWord (func : Func) (mode : Mode) (rsvd : BitVec 29) : Word := rsvd ++ modeBit mode ++ funcBits func

/-- The word of an instruction, in the format `i.format` (R95 to R97), for a layout `p`: only the device opcodes depend on it. -/
def encodeFor (p : DevParams) : Instr → Word
  | .ecbEnc => 0x00000000
  | .ecbDec => 0x00000001
  | .loadKey => 0x00000002
  | .cbcEnc => 0x00000004
  | .cbcDec => 0x00000005
  | .illegalFunc3 mode rsvd => cmdWord .reserved mode rsvd
  | .illegalSetKeyMode1 rsvd => cmdWord .setKey .cbc rsvd
  | .illegalRsvd func mode rsvd => cmdWord func mode rsvd
  | .encrypt => p.opcEncrypt
  | .decrypt => p.opcDecrypt
  | .setKey => p.opcSetKey

/-- The word of an instruction at the default layout. A command's word is the same at every layout. -/
def encode (i : Instr) : Word := encodeFor Config.dev i

end Sys2Proof
end

