-- ==== Sys2Proof/Machine/Blocks.lean ====
section
/-! DEFINITION. Blocks as bytes and as words, and the XOR of two blocks (R8, R10). -/

namespace Sys2Proof.Machine

/-- Byte `b[i]` of a block (R8). -/
def blockByte (b : Block) (i : Nat) : Byte := b.extractLsb' (8 * i) 8

/-- `word(b, j)`, the word `b[4j+3] : b[4j+2] : b[4j+1] : b[4j]` (R8): little-endian packing. -/
def blockWord (b : Block) (j : Nat) : Word := b.extractLsb' (32 * j) 32

/-- `block(w0, w1, w2, w3)`, the inverse of `word` (R8). -/
def blockOfWords (w0 w1 w2 w3 : Word) : Block := w3 ++ (w2 ++ (w1 ++ w0))

/-- The word `b3 : b2 : b1 : b0` (R8). -/
def wordOfBytes (b0 b1 b2 b3 : Byte) : Word := b3 ++ (b2 ++ (b1 ++ b0))

/-- The block with byte `b[i] = f i` for i in 0..15 (R8). -/
def blockOfBytes (f : Nat → Byte) : Block :=
  blockOfWords (wordOfBytes (f 0) (f 1) (f 2) (f 3)) (wordOfBytes (f 4) (f 5) (f 6) (f 7))
    (wordOfBytes (f 8) (f 9) (f 10) (f 11)) (wordOfBytes (f 12) (f 13) (f 14) (f 15))

/-- The block with word `j` replaced by `w` (R132: `din[4j+i] <- w[8i+7:8i]`). -/
def setBlockWord (b : Block) (j : Nat) (w : Word) : Block :=
  blockOfWords (if j = 0 then w else blockWord b 0) (if j = 1 then w else blockWord b 1)
    (if j = 2 then w else blockWord b 2) (if j = 3 then w else blockWord b 3)

/-- `xorBlocks(a, b)`, the bytewise exclusive or (R10). -/
def xorBlocks (a b : Block) : Block := a ^^^ b

end Sys2Proof.Machine
end

