-- ==== Sys2Proof/Machine/Memory.lean ====
section
/-! DEFINITION. BUF as a list of cells in canonical form (R41, R63): the byte and block operations over it. -/

namespace Sys2Proof.Machine

/-- BUF: the cells that differ from what an unlisted address reads as, addresses strictly rising. -/
abbrev Mem := List Host.Cell

/-- What a BUF address that nothing has written reads as (log entry 8). -/
def unlistedByte : Byte := 0

/-- The byte at an address: BUF is a total map (R41). -/
def memRead : Mem → Nat → Byte
  | [], _ => unlistedByte
  | (k, v) :: rest, a => if k = a then v else memRead rest a

/-- The list `cells` with `(a, b)` before it, left out when `b` is what an unlisted address reads as. -/
def consCell (a : Nat) (b : Byte) (cells : Mem) : Mem := if b = unlistedByte then cells else (a, b) :: cells

/-- Write one byte, keeping the canonical form. -/
def memWrite : Mem → Nat → Byte → Mem
  | [], a, b => consCell a b []
  | (k, v) :: rest, a, b =>
      if a < k then consCell a b ((k, v) :: rest)
      else if a = k then consCell a b rest
      else (k, v) :: memWrite rest a b

/-- Every address of the list is above `lo`, addresses rise strictly, no cell holds the unlisted byte, all addresses are 32-bit. -/
def memWfFrom (lo : Nat) : Mem → Bool
  | [] => true
  | (k, v) :: rest => lo ≤ k && k < 2 ^ 32 && v != unlistedByte && memWfFrom (k + 1) rest

/-- BUF is in canonical form. -/
def Mem.wf (m : Mem) : Bool := memWfFrom 0 m

/-- The address of byte `i` of a block at `a`: `a + i` modulo 2^32 (R9, R64, R83). -/
def byteAddress (a : Word) (i : Nat) : Nat := (a + BitVec.ofNat 32 i).toNat

/-- `MemRead(a, 16)` (R9, R64). -/
def memReadBlock (m : Mem) (a : Word) : Block := blockOfBytes fun i => memRead m (byteAddress a i)

/-- Bytes 0 .. k-1 of a block stored at `a`, in ascending order. -/
def memWriteBytes (m : Mem) (a : Word) (b : Block) : Nat → Mem
  | 0 => m
  | k + 1 => memWrite (memWriteBytes m a b k) (byteAddress a k) (blockByte b k)

/-- `MemWrite(a, 16, b)` (R9, R64). -/
def memWriteBlock (m : Mem) (a : Word) (b : Block) : Mem := memWriteBytes m a b 16

end Sys2Proof.Machine
end

