-- ==== Sys2Proof/Machine/State.lean ====
section
/-! DEFINITION. The state of the system as plain data (R20): CREG, MC, AESU, BUF, and the environment the step reads (the host's
pending accesses, the schedule of agents, the draw counter), with the log of MC's bus accesses. -/

namespace Sys2Proof.Machine

/-- The outcome codes of MC_STATUS.ERR (R221). Codes 5 to 15 are never produced (R105). -/
inductive Err where
  | none
  | alignment
  | keyNotSet
  | deviceTimeout
  | illegalCommand
  deriving DecidableEq, Repr

/-- The FSM states of MC (R38). -/
inductive St where
  | idle
  | check
  | fetch
  | wrdin
  | trig
  | poll
  | rdout
  | wback
  deriving DecidableEq, Repr

/-- The phases of AESU (R131). -/
inductive Phase where
  | fresh
  | busy (op : DevOp)
  | ready
  | wedged
  deriving DecidableEq, Repr

/-- The host register file (R20 to R30). MC_CMD and offset 0x3C hold no storage (R21, R30); BUSY is `st != IDLE` (R37). -/
structure Creg where
  /-- MC_LEN (R22). -/
  len : Word
  /-- MC_SRC (R23). -/
  src : Word
  /-- MC_DST (R24). -/
  dst : Word
  /-- MC_IV0 to MC_IV3 (R25). -/
  iv0 : Word
  iv1 : Word
  iv2 : Word
  iv3 : Word
  /-- MC_KEY0 to MC_KEY3 (R26). -/
  key0 : Word
  key1 : Word
  key2 : Word
  key3 : Word
  /-- MC_STATUS[1], DONE (R27). -/
  done : Bool
  /-- MC_STATUS[2], KEYED (R27, R36). -/
  keyed : Bool
  /-- MC_STATUS[3], OVR (R27, R231). -/
  ovr : Bool
  /-- MC_STATUS[11:8], ERR (R27, R221). -/
  err : Err
  /-- MC_TIMEOUT (R28). -/
  timeout : Word
  /-- MC_BLKCNT (R29). -/
  blkcnt : Word
  deriving DecidableEq, Repr

/-- MC's internal registers (R35). -/
structure Mc where
  st : St
  cmd : Word
  nblk : BitVec 28
  idx : BitVec 28
  sblk : Block
  xblk : Block
  yblk : Block
  chain : Block
  pcnt : Word
  deriving DecidableEq, Repr

/-- AESU's state (R40). -/
structure Aesu where
  din : Block
  dout : Block
  /-- The key slot (R43); `none` when no key has been loaded. -/
  key : Option Block
  phase : Phase
  deriving DecidableEq, Repr

/-- The width of a host access to CREG (R34). -/
inductive Width where
  | byte
  | half
  | word
  deriving DecidableEq, Repr

/-- One line of a host program (R103, R104): a CREG access, a BUF access of one byte (R63), the WAITIDLE loop, or a check. Offsets
are from CREG_BASE. -/
inductive HostLine where
  | cregWrite (off : Nat) (width : Width) (w : Word)
  | cregRead (off : Nat) (width : Width)
  | bufWrite (a : Word) (b : Byte)
  | bufRead (a : Word)
  | waitIdle
  | expect (w : Word)
  deriving DecidableEq, Repr

/-- The HOST agent: the accesses it has still to make, oldest first, and what it has seen, newest first. -/
structure HostSide where
  prog : List HostLine
  /-- Values its CREG reads returned. -/
  reads : List Word
  /-- Values its BUF reads returned. -/
  bytes : List Byte
  /-- Outcomes of its EXPECT checks. -/
  checks : List Bool
  deriving DecidableEq, Repr

/-- One access MC makes on its DEV or BUF port (R72, R73). DEV offsets are from DEV_BASE. -/
inductive BusEvent where
  | devWrite (off : Nat) (w : Word)
  | devRead (off : Nat) (w : Word)
  | bufRead (a : Word) (b : Block)
  | bufWrite (a : Word) (b : Block)
  deriving DecidableEq, Repr

/-- The whole state. `creg`, `mc`, `aesu` and `buf` are the four parts of R20; the rest is the model's own (INVENTORY.md). -/
structure State where
  /-- The layout and opcodes this machine is configured with: an argument of the machine that no step changes (R6, R20, log entry 4). -/
  dev : DevParams
  creg : Creg
  mc : Mc
  aesu : Aesu
  buf : Mem
  /-- The HOST agent (R3). -/
  host : HostSide
  /-- Who takes the next steps, first first; when it names nobody, `Config.freeTurn` does (log entry 7). -/
  sched : List Turn
  /-- The number of the next draw: every step reads it and advances it by one. -/
  draws : Nat
  /-- MC's bus accesses, newest first (R72, R73). -/
  bus : List BusEvent
  /-- Bytes the host wrote to BUF in a range of the running command, each with a value MC's FETCH may see instead (R75). -/
  hostRace : List Host.Cell
  /-- Bytes MC wrote to BUF, each with the value the host may see instead until it reads DONE = 1 (R74, R75). -/
  mcRace : List Host.Cell
  deriving DecidableEq, Repr

/-- Why the machine has no next state. -/
inductive Fault where
  /-- Raised by the TRIG step of an illegal command with FUNC = 3: `opc(3)` is not defined (R99). Safe: such a command ends at CHECK
  (R196), so no run from reset reaches it. -/
  | noDeviceOpcode
  deriving DecidableEq, Repr

/-- Accesses the spec gives no meaning. -/
inductive Refusal where
  /-- Raised by an arm of exec whose instruction has no meaning yet. Safe. No arm raises it in this model. -/
  | notModelled (mnemonic : String)
  /-- Raised by a DEV access outside the four registers, or in a direction they do not have (R141, N3). Safe: MC never makes one. -/
  | deviceAccess (off : Nat)
  /-- Raised by a host access at a CREG offset of `CREG_BYTES` or beyond, which is "not part of AES-MC" (R30). Safe. -/
  | outsideCreg (off : Nat)
  deriving DecidableEq, Repr

/-- What one instruction or step answers. -/
abbrev Result := Host.Outcome State Fault Refusal

/-- CREG after a reset (R250). -/
def Creg.reset : Creg where
  len := 0
  src := 0
  dst := 0
  iv0 := 0
  iv1 := 0
  iv2 := 0
  iv3 := 0
  key0 := 0
  key1 := 0
  key2 := 0
  key3 := 0
  done := false
  keyed := false
  ovr := false
  err := .none
  timeout := Config.timeoutReset
  blkcnt := 0

/-- MC after a reset: IDLE, and zero in the registers R250 leaves unspecified (log entry 9). -/
def Mc.reset : Mc where
  st := .idle
  cmd := 0
  nblk := 0
  idx := 0
  sblk := 0
  xblk := 0
  yblk := 0
  chain := 0
  pcnt := 0

/-- AESU after a system reset at draw `n`: Fresh, no key, free contents of DATA_IN and DATA_OUT (R252). -/
def Aesu.reset (n : Nat) : Aesu where
  din := Config.freeResetBlock n 0
  dout := Config.freeResetBlock n 1
  key := none
  phase := .fresh

/-- The system with layout `p` right after a system reset (R250, R252): nothing pending, nothing logged, BUF with nothing listed. -/
def State.resetFor (p : DevParams) : State where
  dev := p
  creg := Creg.reset
  mc := Mc.reset
  aesu := Aesu.reset 0
  buf := []
  host := { prog := [], reads := [], bytes := [], checks := [] }
  sched := []
  draws := 0
  bus := []
  hostRace := []
  mcRace := []

/-- The system right after a system reset, with the default layout of R6. -/
def State.reset : State := State.resetFor Config.dev

end Sys2Proof.Machine
end

