-- ==== Sys2Proof/Machine/Flags.lean ====
section
/-! DEFINITION. MC_STATUS: its fields, its word and the outcome codes (R27, R37, R221). -/

namespace Sys2Proof.Machine

/-- The code of an outcome in MC_STATUS[11:8] (R221). -/
def errCode : Err → BitVec 4
  | .none => 0
  | .alignment => 1
  | .keyNotSet => 2
  | .deviceTimeout => 3
  | .illegalCommand => 4

/-- BUSY (R37): `st != IDLE`. -/
def State.busy (s : State) : Bool := s.mc.st != .idle

/-- One flag as a bit. -/
def flagBit (b : Bool) : BitVec 1 := if b then 1 else 0

/-- The MC_STATUS word (R27): ERR in [11:8]; OVR, KEYED, DONE, BUSY in [3:0]; the reserved bits read 0. -/
def statusWord (s : State) : Word :=
  (0 : BitVec 20) ++ errCode s.creg.err ++ (0 : BitVec 4)
    ++ flagBit s.creg.ovr ++ flagBit s.creg.keyed ++ flagBit s.creg.done ++ flagBit s.busy

end Sys2Proof.Machine
end

