-- ==== Sys2Proof/Machine/Operands.lean ====
section
/-! DEFINITION. How a command's operands are assembled from CREG (R101) and the block datapath (R184 to R186). -/

namespace Sys2Proof.Machine

/-- The IV block, `block(MC_IV0, MC_IV1, MC_IV2, MC_IV3)` (R25, R67, R101). -/
def ivBlock (c : Creg) : Block := blockOfWords c.iv0 c.iv1 c.iv2 c.iv3

/-- MC_IVj <- word(b, j) for j in 0..3 (R188). -/
def setIv (b : Block) (c : Creg) : Creg :=
  { c with iv0 := blockWord b 0, iv1 := blockWord b 1, iv2 := blockWord b 2, iv3 := blockWord b 3 }

/-- The key staging block KEYSTG (R26, R67, R101). -/
def keyBlock (c : Creg) : Block := blockOfWords c.key0 c.key1 c.key2 c.key3

/-- `MC_LEN[3:0] == 0` (R160). -/
def lenAligned (c : Creg) : Bool := c.len.extractLsb' 0 4 == 0

/-- `nblk = MC_LEN[31:4]` (R101, R161). -/
def lenBlocks (c : Creg) : BitVec 28 := c.len.extractLsb' 4 28

/-- `base + (zext_32(i) << 4)`, modulo 2^32 (R83, R101, R162). -/
def blockAddress (base : Word) (i : BitVec 28) : Word := base + (i.setWidth 32 <<< 4)

/-- The address FETCH reads (R162, R187). -/
def srcAddress (s : State) : Word := blockAddress s.creg.src s.mc.idx

/-- The address WBACK writes (R162, R188). -/
def dstAddress (s : State) : Word := blockAddress s.creg.dst s.mc.idx

/-- `pre(s)`, the operand of one block (R184). -/
def pre (func : Func) (mode : Mode) (chain sblk : Block) : Block :=
  if mode = .cbc ∧ func = .enc then xorBlocks sblk chain else sblk

/-- `post(y)`, the output of one block, with the chain from before its update (R185). -/
def post (func : Func) (mode : Mode) (chain yblk : Block) : Block :=
  if mode = .cbc ∧ func = .dec then xorBlocks yblk chain else yblk

/-- The chaining value after a block (R186, R188): the ciphertext block just produced (func 0) or just consumed; ECB keeps it. -/
def chainNext (func : Func) (mode : Mode) (chain sblk yblk : Block) : Block :=
  if mode = .cbc then (if func = .enc then yblk else sblk) else chain

/-- `opc(FUNC)` (R99): the device operation of a command; FUNC = 3 has none. -/
def devOpOf : Func → Option DevOp
  | .enc => some .enc
  | .dec => some .dec
  | .setKey => some .setKey
  | .reserved => none

end Sys2Proof.Machine
end

