-- ==== Sys2Proof/Machine/Ops.lean ====
section
/-! DEFINITION. The shared operations: acceptance and `finish` (an error's entry, R220), the AESU register window under its contract
(R131 to R143), and BUF as MC and the host share it (R63, R75). -/

namespace Sys2Proof.Machine

/-- Acceptance of the command word `w` (R181). Host writes made before it are visible to the command's reads (R74), so no byte the host
wrote is open any more. -/
def accept (w : Word) (s : State) : State :=
  { s with
    creg := { s.creg with done := false, err := .none, ovr := false, blkcnt := 0 }
    mc := { s.mc with cmd := w, st := .check }
    hostRace := [] }

/-- `finish(code)` (R182): the one way a command ends, with or without an error. `raise E` is `finish E` (R9, R220). -/
def finish (code : Err) (s : State) : State :=
  { s with
    creg := { s.creg with err := code, done := true }
    mc := { s.mc with st := .idle } }

/-- KEYED <- b (R190). -/
def setKeyed (b : Bool) (s : State) : State := { s with creg := { s.creg with keyed := b } }

/-- A host write dropped because BUSY = 1 (R33, R231): OVR <- 1 and nothing else. -/
def setOvr (s : State) : State := { s with creg := { s.creg with ovr := true } }

/-- st <- S (R9). -/
def goto (st : St) (s : State) : State := { s with mc := { s.mc with st := st } }

/-- The least significant place of a 16-byte register at `base` that offset `off` names: lane `j` with `off = base + 4j` (R65). -/
def laneOf (base off : Nat) : Option Nat :=
  if off = base then some 0
  else if off = base + 4 then some 1
  else if off = base + 8 then some 2
  else if off = base + 12 then some 3
  else none

/-- A protocol violation at draw `n`: AESU is wedged, and its key is unknown from then on (R138, R139). -/
def aesuWedge (a : Aesu) (n : Nat) : Aesu := { a with phase := .wedged, key := Config.freeKey n }

/-- A 32-bit DATA_IN write of lane `j` at draw `n` (R132, R138). -/
def aesuWriteDin (a : Aesu) (n j : Nat) (w : Word) : Aesu :=
  match a.phase with
  | .fresh | .ready => { a with din := setBlockWord a.din j w }
  | .busy _ => aesuWedge a n
  | .wedged => a

/-- A CONTROL write at draw `n` (R133, R138). -/
def aesuWriteControl (p : DevParams) (a : Aesu) (n : Nat) (w : Word) : Aesu :=
  match a.phase with
  | .fresh | .ready =>
      match decodeControl p w with
      | .ok op => { a with phase := .busy op }
      | .error _ => aesuWedge a n
  | .busy _ => aesuWedge a n
  | .wedged => a

/-- A 32-bit write to the AESU window at draw `n`; only DATA_IN and CONTROL can be written (R62, R141). -/
def aesuWrite (p : DevParams) (a : Aesu) (n off : Nat) (w : Word) : Except Refusal Aesu :=
  if off = p.ctrlOff then .ok (aesuWriteControl p a n w)
  else
    match laneOf p.dinOff off with
    | some j => .ok (aesuWriteDin a n j w)
    | none => .error (.deviceAccess off)

/-- A word that is nonzero whatever the seed is, and any nonzero word for some seed (R135, log entry 6). -/
def readyStatus (seed : Word) : Word := if seed = 0 then 1 else seed

/-- What a STATUS read at draw `n` returns (R135). -/
def aesuStatus (a : Aesu) (n : Nat) : Word :=
  match a.phase with
  | .busy _ => 0
  | .ready => readyStatus (Config.freeReadySeed n)
  | .fresh | .wedged => Config.freeStatus n

/-- What a DATA_OUT read of lane `j` at draw `n` returns (R136). -/
def aesuDataOut (a : Aesu) (n j : Nat) : Word :=
  match a.phase with
  | .ready => blockWord a.dout j
  | .fresh | .busy _ | .wedged => Config.freeDataOut n j

/-- A 32-bit read of the AESU window; only DATA_OUT and STATUS can be read, and no read changes AESU (R62, R71, R141). -/
def aesuRead (p : DevParams) (a : Aesu) (n off : Nat) : Except Refusal Word :=
  if off = p.statOff then .ok (aesuStatus a n)
  else
    match laneOf p.doutOff off with
    | some j => .ok (aesuDataOut a n j)
    | none => .error (.deviceAccess off)

/-- The result of a transform with a loaded key (R128, R129); SET_KEY makes none. -/
def transform (op : DevOp) (key x : Block) : Block :=
  match op with
  | .enc => aesE key x
  | .dec => aesD key x
  | .setKey => x

/-- DATA_OUT after an ENCRYPT or DECRYPT completes at draw `n`: the transform of DATA_IN, or a draw when no key is loaded (R134, R137). -/
def transformResult (op : DevOp) (a : Aesu) (n : Nat) : Block :=
  match a.key with
  | some k => transform op k a.din
  | none => Config.freeResult n

/-- Completion of operation `op` at draw `n` (R128 to R130, R134). DATA_IN keeps its value (R143). -/
def aesuComplete (op : DevOp) (a : Aesu) (n : Nat) : Aesu :=
  match op with
  | .enc => { a with dout := transformResult .enc a n, phase := .ready }
  | .dec => { a with dout := transformResult .dec a n, phase := .ready }
  | .setKey => { a with key := some a.din, phase := .ready }

/-- `DevWrite32(off, w)` (R9): one access, logged once (R72). -/
def devWrite32 (off : Nat) (w : Word) (s : State) : Except Refusal State :=
  match aesuWrite s.dev s.aesu s.draws off w with
  | .ok a => .ok { s with aesu := a, bus := .devWrite off w :: s.bus }
  | .error r => .error r

/-- `DevRead32(off)` (R9): one access, logged once (R72); the answer is the word and the state after. -/
def devRead32 (off : Nat) (s : State) : Except Refusal (Word × State) :=
  match aesuRead s.dev s.aesu s.draws off with
  | .ok w => .ok (w, { s with bus := .devRead off w :: s.bus })
  | .error r => .error r

/-- `DevWriteBlock(off, b)`: words 0, 1, 2, 3 in ascending order (R9, R65). -/
def devWriteBlock (off : Nat) (b : Block) (s : State) : Except Refusal State :=
  match devWrite32 off (blockWord b 0) s with
  | .error r => .error r
  | .ok s0 =>
    match devWrite32 (off + 4) (blockWord b 1) s0 with
    | .error r => .error r
    | .ok s1 =>
      match devWrite32 (off + 8) (blockWord b 2) s1 with
      | .error r => .error r
      | .ok s2 => devWrite32 (off + 12) (blockWord b 3) s2

/-- `DevReadBlock(off)`: four reads in ascending order (R9, R65). -/
def devReadBlock (off : Nat) (s : State) : Except Refusal (Block × State) :=
  match devRead32 off s with
  | .error r => .error r
  | .ok (w0, s0) =>
    match devRead32 (off + 4) s0 with
    | .error r => .error r
    | .ok (w1, s1) =>
      match devRead32 (off + 8) s1 with
      | .error r => .error r
      | .ok (w2, s2) =>
        match devRead32 (off + 12) s2 with
        | .error r => .error r
        | .ok (w3, s3) => .ok (blockOfWords w0 w1 w2 w3, s3)

/-- The values a race has left for address `a` beside the one BUF holds. -/
def raceValues (race : List Host.Cell) (a : Nat) : List Byte :=
  (race.filter fun c => c.1 == a).map fun c => c.2

/-- Address `a` is open to a race. -/
def raced (race : List Host.Cell) (a : Nat) : Bool := race.any fun c => c.1 == a

/-- The byte an access sees: the one BUF holds or one of the values a race has left, picked by a free index (R75). -/
def seenByte (now : Byte) (others : List Byte) (index : Nat) : Byte :=
  match others with
  | [] => now
  | _ :: _ => (now :: others).getD (index % (others.length + 1)) now

/-- Byte `i` of MC's read of the block at `a` (R64, R75). -/
def mcLoadByte (s : State) (a : Word) (i : Nat) : Byte :=
  seenByte (memRead s.buf (byteAddress a i)) (raceValues s.hostRace (byteAddress a i)) (Config.freeRaceIndex s.draws i)

/-- `MemRead(a, 16)` as MC makes it (R9, R64, R75): the block MC sees. -/
def mcLoadBlock (a : Word) (s : State) : Block := blockOfBytes (mcLoadByte s a)

/-- `race` without its oldest entry for address `a`: the byte BUF held before the host's first write, once MC has written there itself. -/
def dropOldest : List Host.Cell → Nat → List Host.Cell
  | [], _ => []
  | c :: rest, a => if c.1 = a ∧ raced rest a = false then rest else c :: dropOldest rest a

/-- Byte `i` of MC's write of `b` at `a`. Where the host wrote the same byte during the command, either write may win (R75), and the one
that lost stays open to MC's later reads (R165) as it does to the host's. MC's own reads never see the byte from before both (R73). -/
def mcStoreByte (a : Word) (b : Block) (i : Nat) (s : State) : State :=
  let at_ := byteAddress a i
  let lost := raced s.hostRace at_ && Config.freeRaceLost s.draws i
  let other := if lost then blockByte b i else memRead s.buf at_
  { s with
    buf := if lost then s.buf else memWrite s.buf at_ (blockByte b i)
    hostRace := if raced s.hostRace at_ then (at_, other) :: dropOldest s.hostRace at_ else s.hostRace
    mcRace := (at_, other) :: s.mcRace }

/-- Bytes 0 .. k-1 of MC's write of `b` at `a`, in ascending order. -/
def mcStoreBytes (a : Word) (b : Block) : Nat → State → State
  | 0, s => s
  | k + 1, s => mcStoreByte a b k (mcStoreBytes a b k s)

/-- `MemWrite(a, 16, b)` as MC makes it (R9, R64, R75), logged once. -/
def mcStoreBlock (a : Word) (b : Block) (s : State) : State :=
  let t := mcStoreBytes a b 16 s
  { t with bus := .bufWrite a b :: t.bus }

end Sys2Proof.Machine
end

