-- ==== Sys2Proof/Machine/Steps.lean ====
section
/-! DEFINITION. The steps of MC's FSM that a command's meaning is made of: CHECK, FETCH, WRDIN, TRIG, POLL, RDOUT and WBACK. -/

namespace Sys2Proof.Machine

/-- CHECK of an illegal command word (R183, R196). -/
def checkIllegal (s : State) : State := finish .illegalCommand s

/-- CHECK of LOAD_KEY (R183, R191). -/
def checkLoadKey (s : State) : State :=
  { s with
    creg := { s.creg with keyed := false }
    mc := { s.mc with xblk := keyBlock s.creg, st := .wrdin } }

/-- What CHECK latches once an encrypt or decrypt command has passed its checks (R183). -/
def latchCrypt (mode : Mode) (s : State) : State :=
  { s with
    mc := { s.mc with
      nblk := lenBlocks s.creg
      chain := if mode = .cbc then ivBlock s.creg else s.mc.chain
      idx := 0 } }

/-- CHECK of an encrypt or decrypt command (R183): ALIGNMENT, then KEY_NOT_SET (R228), then the walk or, with no block, NONE (R161). -/
def checkCrypt (mode : Mode) (s : State) : State :=
  if !lenAligned s.creg then finish .alignment s
  else if !s.creg.keyed then finish .keyNotSet s
  else if lenBlocks s.creg = 0 then finish .none (latchCrypt mode s)
  else goto .fetch (latchCrypt mode s)

/-- FETCH (R187). -/
def fetchStep (func : Func) (mode : Mode) (s : State) : State :=
  let b := mcLoadBlock (srcAddress s) s
  { s with
    mc := { s.mc with sblk := b, xblk := pre func mode s.mc.chain b, st := .wrdin }
    bus := .bufRead (srcAddress s) b :: s.bus }

/-- WRDIN (R121). -/
def wrdinStep (s : State) : Result :=
  match devWriteBlock s.dev.dinOff s.mc.xblk s with
  | .ok t => .next (goto .trig t)
  | .error r => .refused r

/-- TRIG (R122). -/
def trigStep (func : Func) (s : State) : Result :=
  match devOpOf func with
  | none => .fault .noDeviceOpcode
  | some op =>
    match devWrite32 s.dev.ctrlOff (s.dev.opc op) s with
    | .ok t => .next { t with mc := { t.mc with pcnt := 0, st := .poll } }
    | .error r => .refused r

/-- POLL after its STATUS read has returned `v` (R123). -/
def pollAnswer (func : Func) (v : Word) (s : State) : State :=
  let t := { s with mc := { s.mc with pcnt := s.mc.pcnt + 1 } }
  if v ≠ 0 then
    if func = .setKey then finish .none (setKeyed true t) else goto .rdout t
  else if t.creg.timeout ≤ t.mc.pcnt then finish .deviceTimeout (setKeyed false t)
  else goto .poll t

/-- POLL (R123): one fresh STATUS read. -/
def pollStep (func : Func) (s : State) : Result :=
  match devRead32 s.dev.statOff s with
  | .ok (v, t) => .next (pollAnswer func v t)
  | .error r => .refused r

/-- RDOUT (R124). -/
def rdoutStep (s : State) : Result :=
  match devReadBlock s.dev.doutOff s with
  | .ok (b, t) => .next { t with mc := { t.mc with yblk := b, st := .wback } }
  | .error r => .refused r

/-- The end of WBACK (R188, R189): after the last block a CBC command returns the chain in MC_IV and finishes; otherwise the next
block is fetched. The comparison is of the counts, which cannot wrap (R39). -/
def wbackNext (mode : Mode) (s : State) : State :=
  if s.mc.idx.toNat + 1 = s.mc.nblk.toNat then
    finish .none (if mode = .cbc then { s with creg := setIv s.mc.chain s.creg } else s)
  else { s with mc := { s.mc with idx := s.mc.idx + 1, st := .fetch } }

/-- WBACK (R188). -/
def wbackStep (func : Func) (mode : Mode) (s : State) : State :=
  let t := mcStoreBlock (dstAddress s) (post func mode s.mc.chain s.mc.yblk) s
  wbackNext mode
    { t with
      mc := { t.mc with chain := chainNext func mode t.mc.chain t.mc.sblk t.mc.yblk }
      creg := { t.creg with blkcnt := t.mc.idx.setWidth 32 + 1 } }

/-- One step of a command with word `w`, fields FUNC and MODE, and CHECK step `check` (R38, R180): from IDLE it is accepted (R181);
in every other FSM state the one enabled MC step is taken. -/
def commandStep (w : Word) (func : Func) (mode : Mode) (check : State → State) (s : State) : Result :=
  match s.mc.st with
  | .idle => .next (accept w s)
  | .check => .next (check s)
  | .fetch => .next (fetchStep func mode s)
  | .wrdin => wrdinStep s
  | .trig => trigStep func s
  | .poll => pollStep func s
  | .rdout => rdoutStep s
  | .wback => .next (wbackStep func mode s)

end Sys2Proof.Machine
end

