-- ==== Sys2Proof/Machine/Commands.lean ====
section
/-! DEFINITION. The five legal commands. A meaning is the command's next step: its acceptance from IDLE, then one MC step for each
FSM state (R38, R180). -/

namespace Sys2Proof.Machine

/-- LOAD_KEY (R191). -/
def execLoadKey (s : State) : Result := commandStep (encode .loadKey) .setKey .ecb checkLoadKey s

/-- ECB_ENC (R192). -/
def execEcbEnc (s : State) : Result := commandStep (encode .ecbEnc) .enc .ecb (checkCrypt .ecb) s

/-- ECB_DEC (R193). -/
def execEcbDec (s : State) : Result := commandStep (encode .ecbDec) .dec .ecb (checkCrypt .ecb) s

/-- CBC_ENC (R194). -/
def execCbcEnc (s : State) : Result := commandStep (encode .cbcEnc) .enc .cbc (checkCrypt .cbc) s

/-- CBC_DEC (R195). -/
def execCbcDec (s : State) : Result := commandStep (encode .cbcDec) .dec .cbc (checkCrypt .cbc) s

end Sys2Proof.Machine
end

