-- ==== Sys2Proof/Machine/Device.lean ====
section
/-! DEFINITION. The three device opcodes, as AESU runs them. A meaning is the operation's next step at AESU: the CONTROL write that
starts it ("on CONTROL write", R133), and, once AESU is busy with it, its completion ("on completion", R134). -/

namespace Sys2Proof.Machine

/-- One step of the device operation `op` (R128 to R130, R133, R134, R138). A CONTROL write in phase Busy with another operation wedges
AESU; in phase Wedged it has no effect. -/
def deviceStep (op : DevOp) (s : State) : State :=
  if s.aesu.phase = .busy op then { s with aesu := aesuComplete op s.aesu s.draws }
  else { s with aesu := aesuWriteControl s.dev s.aesu s.draws (s.dev.opc op) }

/-- ENCRYPT (R128). -/
def execEncrypt (s : State) : Result := .next (deviceStep .enc s)

/-- DECRYPT (R129). -/
def execDecrypt (s : State) : Result := .next (deviceStep .dec s)

/-- SET_KEY (R130). -/
def execSetKey (s : State) : Result := .next (deviceStep .setKey s)

end Sys2Proof.Machine
end

