-- ==== Sys2Proof/Machine/Illegal.lean ====
section
/-! DEFINITION. The illegal command words (R96, R196): accepted like any word, ended at CHECK with ILLEGAL_COMMAND. The FSM steps after
CHECK, which no run reaches with such a word, are the ones R121 to R124, R187 and R188 give for its FUNC and MODE bits. -/

namespace Sys2Proof.Machine

/-- A word with FUNC = 3. -/
def execIllegalFunc3 (mode : Mode) (rsvd : BitVec 29) (s : State) : Result :=
  commandStep (encode (.illegalFunc3 mode rsvd)) .reserved mode checkIllegal s

/-- A word with FUNC = 2 and MODE = 1. -/
def execIllegalSetKeyMode1 (rsvd : BitVec 29) (s : State) : Result :=
  commandStep (encode (.illegalSetKeyMode1 rsvd)) .setKey .cbc checkIllegal s

/-- A word with a bit of RSVD set. -/
def execIllegalRsvd (func : Func) (mode : Mode) (rsvd : BitVec 29) (s : State) : Result :=
  commandStep (encode (.illegalRsvd func mode rsvd)) func mode checkIllegal s

end Sys2Proof.Machine
end

