-- ==== Sys2Proof/Machine/Dispatch.lean ====
section
/-! DEFINITION. One arm per instruction. -/

namespace Sys2Proof.Machine

def exec (i : Instr) (s : State) : Host.Outcome State Fault Refusal :=
  match i with
  | .ecbEnc => Sys2Proof.Machine.execEcbEnc s
  | .ecbDec => Sys2Proof.Machine.execEcbDec s
  | .loadKey => Sys2Proof.Machine.execLoadKey s
  | .cbcEnc => Sys2Proof.Machine.execCbcEnc s
  | .cbcDec => Sys2Proof.Machine.execCbcDec s
  | .illegalFunc3 mode rsvd => Sys2Proof.Machine.execIllegalFunc3 mode rsvd s
  | .illegalSetKeyMode1 rsvd => Sys2Proof.Machine.execIllegalSetKeyMode1 rsvd s
  | .illegalRsvd func mode rsvd => Sys2Proof.Machine.execIllegalRsvd func mode rsvd s
  | .encrypt => Sys2Proof.Machine.execEncrypt s
  | .decrypt => Sys2Proof.Machine.execDecrypt s
  | .setKey => Sys2Proof.Machine.execSetKey s

end Sys2Proof.Machine
end

