-- ==== Sys2Proof/Machine/HostPort.lean ====
section
/-! DEFINITION. The HOST agent's steps: CREG reads and writes (R31 to R34), BUF accesses of its own (R63, R75), and the lines of a host
program (R103, R104). -/

namespace Sys2Proof.Machine

/-- What a host read of each CREG offset returns (R21 to R31). -/
def cregValue (s : State) (off : Nat) : Word :=
  match off with
  | 0x04 => s.creg.len
  | 0x08 => s.creg.src
  | 0x0C => s.creg.dst
  | 0x10 => s.creg.iv0
  | 0x14 => s.creg.iv1
  | 0x18 => s.creg.iv2
  | 0x1C => s.creg.iv3
  | 0x30 => statusWord s
  | 0x34 => s.creg.timeout
  | 0x38 => s.creg.blkcnt
  | _ => 0

/-- What MC_TIMEOUT stores for a written word (R28): 0 is stored as 1. -/
def timeoutStored (w : Word) : Word := if w = 0 then 1 else w

/-- CREG after a host write of `w` at a writable offset while BUSY = 0 (R22 to R32); other offsets keep it as it is. -/
def cregStore (off : Nat) (w : Word) (c : Creg) : Creg :=
  match off with
  | 0x04 => { c with len := w }
  | 0x08 => { c with src := w }
  | 0x0C => { c with dst := w }
  | 0x10 => { c with iv0 := w }
  | 0x14 => { c with iv1 := w }
  | 0x18 => { c with iv2 := w }
  | 0x1C => { c with iv3 := w }
  | 0x20 => { c with key0 := w }
  | 0x24 => { c with key1 := w }
  | 0x28 => { c with key2 := w }
  | 0x2C => { c with key3 := w }
  | 0x34 => { c with timeout := timeoutStored w }
  | _ => c

/-- An aligned 32-bit access: the only kind CREG accepts (R34). -/
def cregAccepts (off : Nat) (width : Width) : Bool := width == .word && off % 4 == 0

/-- A host write to CREG (R21, R32 to R34). -/
def cregWrite (off : Nat) (width : Width) (w : Word) (s : State) : State :=
  if !cregAccepts off width then s
  else if s.busy then setOvr s
  else if off = 0x00 then accept w s
  else { s with creg := cregStore off w s.creg }

/-- The bytes of BUF still open to the host's reads after a read at `off`: none once it has read MC_STATUS with DONE = 1 (R74). -/
def raceAfterRead (off : Nat) (width : Width) (s : State) : List Host.Cell :=
  if off = 0x30 ∧ width = .word ∧ s.creg.done = true then [] else s.mcRace

/-- The value of a host read of CREG: 0 for an access CREG does not accept (R34). -/
def cregReadValue (off : Nat) (width : Width) (s : State) : Word :=
  if cregAccepts off width then cregValue s off else 0

/-- A host read of CREG (R31, R34): the value goes to the host, and nothing of AES-MC changes. -/
def cregRead (off : Nat) (width : Width) (s : State) : State :=
  { s with
    host := { s.host with reads := cregReadValue off width s :: s.host.reads }
    mcRace := raceAfterRead off width s }

/-- Address `a` lies in the range of `len` bytes from `base`, modulo 2^32 (R75). -/
def inRange (base len a : Word) : Bool := a - base < len

/-- Address `a` lies in the source or the destination range of the command (R75). -/
def inCommandRange (c : Creg) (a : Word) : Bool := inRange c.src c.len a || inRange c.dst c.len a

/-- A host write at `a` races with MC: a command runs, and `a` is in one of its two ranges (R75). -/
def hostWriteRaces (a : Word) (s : State) : Bool := s.busy && inCommandRange s.creg a

/-- MC has written the byte at `a` in the current or the last command: one of its first MC_BLKCNT destination blocks holds it (R29, R162). -/
def mcWrote (a : Word) (c : Creg) : Bool := (a - c.dst).toNat < 16 * c.blkcnt.toNat

/-- A host write of a byte that races with MC, and that MC has already written in the running command, may be lost to MC's (R75). -/
def hostWriteLost (a : Word) (s : State) : Bool :=
  hostWriteRaces a s && mcWrote a s.creg && Config.freeRaceLost s.draws 0

/-- A host write of one byte of BUF (R63, R75). In a range of the running command it races with MC: the value that is not left in BUF
stays open to MC's reads and, where MC has already written the byte, to the host's. Anywhere else it is a plain write, seen by every later
read (R74). -/
def hostStoreByte (a : Word) (b : Byte) (s : State) : State :=
  let other := if hostWriteLost a s then b else memRead s.buf a.toNat
  { s with
    buf := if hostWriteLost a s then s.buf else memWrite s.buf a.toNat b
    hostRace := if hostWriteRaces a s then (a.toNat, other) :: s.hostRace else s.hostRace
    mcRace :=
      if hostWriteRaces a s && mcWrote a s.creg then (a.toNat, other) :: s.mcRace
      else s.mcRace.filter fun c => c.1 != a.toNat }

/-- What a host read of one byte of BUF returns: the byte BUF holds or, where MC wrote it and DONE = 1 has not been read since, one of
the values a race has left (R74, R75). -/
def hostLoadByte (a : Word) (s : State) : Byte :=
  seenByte (memRead s.buf a.toNat) (raceValues s.mcRace a.toNat) (Config.freeRaceIndex s.draws 0)

/-- A CREG offset of `CREG_BYTES` or beyond is not part of AES-MC (R30). -/
def outsideCreg (off : Nat) : Bool := Config.cregBytes ≤ off

/-- One line of the host's program, already taken from the list (R103, R104). WAITIDLE reads MC_STATUS and stays first in the list
while the BUSY bit it read is 1. EXPECT makes no access. -/
def hostLine (l : HostLine) (s : State) : Result :=
  match l with
  | .cregWrite off width w => if outsideCreg off then .refused (.outsideCreg off) else .next (cregWrite off width w s)
  | .cregRead off width => if outsideCreg off then .refused (.outsideCreg off) else .next (cregRead off width s)
  | .bufWrite a b => .next (hostStoreByte a b s)
  | .bufRead a => .next { s with host := { s.host with bytes := hostLoadByte a s :: s.host.bytes } }
  | .waitIdle =>
      let t := cregRead 0x30 .word s
      .next (if s.busy then { t with host := { t.host with prog := .waitIdle :: t.host.prog } } else t)
  | .expect w => .next { s with host := { s.host with checks := (s.host.reads.head? == some w) :: s.host.checks } }

/-- The HOST's step: its next line, or nothing when it has none. -/
def hostStep (s : State) : Result :=
  match s.host.prog with
  | [] => .next s
  | l :: rest => hostLine l { s with host := { s.host with prog := rest } }

/-- `W <reg>, <value>` at an offset (R103). -/
def lineW (off : Nat) (w : Word) : HostLine := .cregWrite off .word w

/-- `R <reg>` at an offset (R103). -/
def lineR (off : Nat) : HostLine := .cregRead off .word

/-- `CMD <mnemonic>` (R104). -/
def linesCmd (i : Instr) : List HostLine := [lineW 0x00 (encode i)]

/-- `SETIV <hex16>` (R104). -/
def linesSetIv (iv : Block) : List HostLine :=
  [lineW 0x10 (blockWord iv 0), lineW 0x14 (blockWord iv 1), lineW 0x18 (blockWord iv 2), lineW 0x1C (blockWord iv 3)]

/-- `SETKEY <hex16>` (R104). -/
def linesSetKey (k : Block) : List HostLine :=
  [lineW 0x20 (blockWord k 0), lineW 0x24 (blockWord k 1), lineW 0x28 (blockWord k 2), lineW 0x2C (blockWord k 3)]

/-- `LOADKEY <hex16>` (R104). -/
def linesLoadKey (k : Block) : List HostLine := linesSetKey k ++ linesCmd .loadKey ++ [.waitIdle]

/-- `RUN <mnemonic>, <len>, <src>, <dst>` (R104). -/
def linesRun (i : Instr) (len src dst : Word) : List HostLine :=
  [lineW 0x04 len, lineW 0x08 src, lineW 0x0C dst] ++ linesCmd i ++ [.waitIdle]

/-- `MEM <addr>, <hexbytes>` (R103): BUF bytes from `a` upward, as start state. -/
def bufWithBytes (m : Mem) (a : Word) : List Byte → Mem
  | [] => m
  | b :: rest => bufWithBytes (memWrite m a.toNat b) (a + 1) rest

end Sys2Proof.Machine
end

