-- ==== Sys2Proof/Machine/Resets.lean ====
section
/-! DEFINITION. The two resets (R250 to R252). -/

namespace Sys2Proof.Machine

/-- A reset of AES-MC alone (R250 to R252): a running command is abandoned without `finish`; BUF and AESU stay as they are, and every BUF
write already made stays made (R251), so nothing is open to a race any more. -/
def mcReset (s : State) : State := { s with creg := Creg.reset, mc := Mc.reset, hostRace := [], mcRace := [] }

/-- A system reset: AES-MC and AESU (R252). -/
def systemReset (s : State) : State := { mcReset s with aesu := Aesu.reset s.draws }

end Sys2Proof.Machine
end

