-- ==== Sys2Proof/Machine/Agents.lean ====
section
/-! DEFINITION. Who moves, and what each agent does in its step (R3, R38, R134). -/

namespace Sys2Proof.Machine

/-- Who takes the next step: the schedule's first entry or, when it is empty, a free choice (log entry 7). -/
def State.turn (s : State) : Turn := s.sched.headD (Config.freeTurn s.draws)

/-- The state the chosen agent acts on: its turn taken from the schedule, and the draw counter advanced. -/
def State.afterTurn (s : State) : State := { s with sched := s.sched.tail, draws := s.draws + 1 }

/-- MC's step (R38): none in IDLE (R239); else the step of the command in `cmd`. -/
def mcStep (s : State) : Result :=
  if s.mc.st = .idle then .next s else exec (decodeCmd s.mc.cmd) s

/-- AESU's own step (R134): the completion of the operation it is busy with; none in any other phase. -/
def aesuStep (s : State) : Result :=
  match s.aesu.phase with
  | .busy op => exec (devInstr op) s
  | .fresh | .ready | .wedged => .next s

/-- The step of the agent `t`. A turn given to an agent with no enabled step passes (log entry 7). -/
def agentStep (t : Turn) (s : State) : Result :=
  match t with
  | .host => hostStep s
  | .mc => mcStep s
  | .aesu => aesuStep s
  | .mcReset => .next (mcReset s)
  | .systemReset => .next (systemReset s)

/-- `s` with the command word `w` accepted (R181) and MC's turn next. -/
def placeCommand (w : Word) (s : State) : State := { accept w s with sched := .mc :: s.sched }

end Sys2Proof.Machine
end

