-- ==== Sys2Proof/Machine/Step.lean ====
section
/-! DEFINITION. One step of the system: the schedule names who moves, and that agent takes its step (R3, R38, R265). -/

namespace Sys2Proof.Machine

/-- One step. -/
def step (s : State) : Host.Outcome State Fault Refusal := agentStep s.turn s.afterTurn

/-- `s` with the command word `w` placed where MC finds its next instruction: accepted, and MC's turn (log entry 10). Every command
word has 32 bits (R90), so the number of bits asked about changes nothing. -/
def State.withFetchWord (s : State) (_nbits w : Nat) : State := placeCommand (BitVec.ofNat 32 w) s

end Sys2Proof.Machine
end

