-- ==== Sys2Proof/Safety.lean ====
section
/-! DEFINITION. What the claims are stated with: the system invariant, the whole effect of a command, runs of one command, and the
bound on a command's steps. -/

namespace Sys2Proof.Safety

open Sys2Proof.Machine

/-- The word is one of the five legal command words (R95). -/
def legalWord (w : Word) : Bool :=
  match decodeCmd w with
  | .ecbEnc | .ecbDec | .loadKey | .cbcEnc | .cbcDec => true
  | .illegalFunc3 _ _ | .illegalSetKeyMode1 _ | .illegalRsvd _ _ _ => false
  | .encrypt | .decrypt | .setKey => false

/-- MC is past CHECK in a command: one of the six states of a device transaction and its BUF accesses. -/
def pastCheck (s : State) : Bool := s.mc.st != .idle && s.mc.st != .check

/-- FUNC and MODE of the latched command word. -/
def funcOf (s : State) : Func := cmdFunc s.mc.cmd

def modeOf (s : State) : Mode := cmdMode s.mc.cmd

/-- The system invariant: what every run from a system reset keeps, and every step keeps from any state that has it. -/
structure Inv (s : State) : Prop where
  /-- BUF is in canonical form. -/
  buf_wf : Mem.wf s.buf = true
  /-- MC_TIMEOUT is never 0 (R28). -/
  timeout_ne : s.creg.timeout ≠ 0
  /-- While BUSY = 1, DONE = 0 and ERR = 0 (R31, R181). -/
  running : s.busy = true → s.creg.done = false ∧ s.creg.err = .none
  /-- Between acceptance and CHECK no block is counted (R181). -/
  check_blkcnt : s.mc.st = .check → s.creg.blkcnt = 0
  /-- Only a legal command gets past CHECK (R196). -/
  legal : pastCheck s = true → legalWord s.mc.cmd = true
  /-- LOAD_KEY never reaches FETCH, RDOUT or WBACK (R126, R191). -/
  load_key_states : s.mc.st = .fetch ∨ s.mc.st = .rdout ∨ s.mc.st = .wback → funcOf s ≠ .setKey
  /-- Past CHECK, KEYED is 0 in LOAD_KEY and 1 in every other command (R183, R190). -/
  keyed_running : pastCheck s = true → s.creg.keyed = (funcOf s != .setKey)
  /-- LOAD_KEY counts no block (R29). -/
  load_key_blkcnt : pastCheck s = true → funcOf s = .setKey → s.creg.blkcnt = 0
  /-- In a block, `idx < nblk` (R35, R39), `nblk` is MC_LEN[31:4], and MC_BLKCNT is the number of blocks already written. -/
  counts : pastCheck s = true → funcOf s ≠ .setKey →
    s.mc.idx.toNat < s.mc.nblk.toNat ∧ s.mc.nblk = lenBlocks s.creg ∧ lenAligned s.creg = true ∧
      s.creg.blkcnt = s.mc.idx.setWidth 32
  /-- Before a poll, fewer than MC_TIMEOUT reads have been made (R39). -/
  polls : s.mc.st = .poll → s.mc.pcnt < s.creg.timeout
  /-- Nothing runs in AESU between WRDIN and TRIG (R127). -/
  trig_phase : s.mc.st = .trig → s.aesu.phase = .fresh ∨ s.aesu.phase = .ready ∨ s.aesu.phase = .wedged
  /-- While MC polls, AESU is busy with the operation of the command, has completed it, or is wedged. -/
  poll_phase : s.mc.st = .poll →
    (∃ op, devOpOf (funcOf s) = some op ∧ s.aesu.phase = .busy op) ∨ s.aesu.phase = .ready ∨ s.aesu.phase = .wedged
  /-- With KEYED = 1 and MC not polling, AESU has completed its last operation or is wedged. -/
  keyed_phase : s.creg.keyed = true → s.mc.st ≠ .poll → s.aesu.phase = .ready ∨ s.aesu.phase = .wedged
  /-- With KEYED = 1 AESU holds a key, unless it is wedged (R137). -/
  keyed_key : s.creg.keyed = true → s.aesu.phase ≠ .wedged → s.aesu.key ≠ none
  /-- The operand in DATA_IN is the one MC wrote (R120), unless AESU is wedged. -/
  operand : s.mc.st = .trig ∨ s.mc.st = .poll → s.aesu.phase ≠ .wedged → s.aesu.din = s.mc.xblk
  /-- Once LOAD_KEY's operation has completed, AESU's key is the block MC sent (R130). -/
  loaded : s.mc.st = .poll → funcOf s = .setKey → s.aesu.phase = .ready → s.aesu.key = some s.mc.xblk
  /-- Once a block's operation has completed, DATA_OUT is the transform of the block MC sent (R128, R129). -/
  result : s.mc.st = .poll ∨ s.mc.st = .rdout → s.aesu.phase = .ready → ∀ op k, devOpOf (funcOf s) = some op → op ≠ .setKey →
    s.aesu.key = some k → s.aesu.dout = transform op k s.mc.xblk
  /-- The result MC has read is that transform (R124). -/
  read_result : s.mc.st = .wback → s.aesu.phase = .ready → ∀ op k, devOpOf (funcOf s) = some op →
    s.aesu.key = some k → s.mc.yblk = transform op k s.mc.xblk
  /-- The layout meets R6. -/
  dev_ok : s.dev.ok = true

/-- A host line whose CREG offset, if it has one, lies inside the CREG window (R30). -/
def lineInRange : HostLine → Bool
  | .cregWrite off _ _ => !outsideCreg off
  | .cregRead off _ => !outsideCreg off
  | .bufWrite _ _ | .bufRead _ | .waitIdle | .expect _ => true

/-- All the host's pending accesses lie inside the CREG window. -/
def HostInRange (s : State) : Prop := ∀ l ∈ s.host.prog, lineInRange l = true

/-- The whole effect of `k` blocks of an encrypt or decrypt command, as the loops of R192 to R195 give it: BUF and the chaining value
after blocks 0 .. k-1, each block read, transformed under `key` and written before the next one is read (R163, R164). -/
def blockLoop (func : Func) (mode : Mode) (op : DevOp) (key : Block) (src dst : Word) (buf : Mem) (iv : Block) : Nat → Mem × Block
  | 0 => (buf, iv)
  | k + 1 =>
      let (m, chain) := blockLoop func mode op key src dst buf iv k
      let s := memReadBlock m (blockAddress src (BitVec.ofNat 28 k))
      let y := transform op key (pre func mode chain s)
      (memWriteBlock m (blockAddress dst (BitVec.ofNat 28 k)) (post func mode chain y), chainNext func mode chain s y)

/-- `blockLoop` for the command latched in `s`, with the operands `s` holds. -/
def commandLoop (s : State) (op : DevOp) (key : Block) (k : Nat) : Mem × Block :=
  blockLoop (funcOf s) (modeOf s) op key s.creg.src s.creg.dst s.buf (ivBlock s.creg) k

/-- The bytes of BUF the next step writes as a host write: the address and the byte, or none. -/
def hostWrites (s : State) : List Host.Cell :=
  match s.turn, s.host.prog with
  | .host, .bufWrite a b :: _ => [(a.toNat, b)]
  | _, _ => []

/-- The next step is no reset, and no host write to BUF in the source or destination range: what R75 and R259 ask of the host while a
command runs. A host write anywhere else is allowed. -/
def quiet (s : State) : Bool :=
  match s.turn, s.host.prog with
  | .mc, _ | .aesu, _ => true
  | .host, .bufWrite a _ :: _ => !inCommandRange s.creg a
  | .host, _ => true
  | .mcReset, _ | .systemReset, _ => false

/-- `t` is reached from `s` by quiet steps, in any interleaving of the three agents, each taken while BUSY = 1; `writes` are the bytes the
host has written to BUF on the way, newest first. -/
inductive BusyRun (s : State) : List Host.Cell → State → Prop where
  | refl : BusyRun s [] s
  | tail {writes : List Host.Cell} {t u : State} : BusyRun s writes t → t.busy = true → quiet t = true → step t = .next u →
      BusyRun s (hostWrites t ++ writes) u

/-- `m` after the byte writes `writes`, given newest first. -/
def withWrites (m : Mem) (writes : List Host.Cell) : Mem := writes.foldr (fun c n => memWrite n c.1 c.2) m

/-- A command that encrypts or decrypts stands at CHECK and is about to pass it: the word is legal, MC_LEN is aligned, KEYED = 1, AESU
holds `key` and is ready, no host write to BUF is open (R183, R255), BUF is in canonical form and the layout meets R6. -/
structure ReadyToRun (s : State) (key : Block) : Prop where
  at_check : s.mc.st = .check
  legal : legalWord s.mc.cmd = true
  crypt : funcOf s ≠ .setKey
  aligned : lenAligned s.creg = true
  keyed : s.creg.keyed = true
  has_key : s.aesu.key = some key
  phase : s.aesu.phase = .ready
  no_race : s.hostRace = []
  timeout_ne : s.creg.timeout ≠ 0
  blkcnt : s.creg.blkcnt = 0
  buf_wf : Mem.wf s.buf = true
  dev_ok : s.dev.ok = true

/-- The four encrypt and decrypt commands with their FUNC, MODE and device operation (R91, R95, R99). -/
def cryptCommands : List (Instr × Func × Mode × DevOp) :=
  [(.ecbEnc, .enc, .ecb, .enc), (.ecbDec, .dec, .ecb, .dec), (.cbcEnc, .enc, .cbc, .enc), (.cbcDec, .dec, .cbc, .dec)]

/-- The five legal commands with their device operation (R95, R99). -/
def legalCommands : List (Instr × DevOp) :=
  [(.ecbEnc, .enc), (.ecbDec, .dec), (.loadKey, .setKey), (.cbcEnc, .enc), (.cbcDec, .dec)]

/-- The three device opcodes with their operation (R97). -/
def deviceOpcodes : List (Instr × DevOp) := [(.encrypt, .enc), (.decrypt, .dec), (.setKey, .setKey)]

/-- `MC_SRC + 16*i` and `MC_DST + 16*i`, modulo 2^32 (R162). -/
def blockAt (base : Word) (i : Nat) : Word := base + BitVec.ofNat 32 (16 * i)

/-- The byte at `c` belongs to the block at `a` (R64). -/
def inBlock (a : Word) (c : Nat) : Prop := ∃ i < 16, c = (a.toNat + i) % 2 ^ 32

/-- The ranges of `n` blocks from `src` and from `dst` have no byte in common (R197). -/
def rangesDisjoint (src dst : Word) (n : Nat) : Prop :=
  ∀ i < n, ∀ j < n, ∀ c, inBlock (blockAt src i) c → ¬ inBlock (blockAt dst j) c

/-- `c[i]` of R197 for CBC_ENC, with `c[-1]` = IV: the chaining value after `k` blocks of input `inp`. -/
def cbcChain (key iv : Block) (inp : Nat → Block) : Nat → Block
  | 0 => iv
  | k + 1 => aesE key (xorBlocks (inp k) (cbcChain key iv inp k))

/-- What R197 says a command leaves at block `i` of the destination, for input blocks `inp`. -/
def expectedBlock (func : Func) (mode : Mode) (key iv : Block) (inp : Nat → Block) (i : Nat) : Block :=
  match func, mode with
  | .dec, .ecb => aesD key (inp i)
  | .enc, .cbc => cbcChain key iv inp (i + 1)
  | .dec, .cbc => xorBlocks (aesD key (inp i)) (if i = 0 then iv else inp (i - 1))
  | _, _ => aesE key (inp i)

/-- The final chaining value of R197 after `n` blocks. -/
def expectedIv (func : Func) (key iv : Block) (inp : Nat → Block) (n : Nat) : Block :=
  if n = 0 then iv else if func = .enc then cbcChain key iv inp n else inp (n - 1)

/-- The MC steps the blocks after the current one still take at most (R266). -/
def laterBlocks (s : State) : Nat := (s.mc.nblk.toNat - (s.mc.idx.toNat + 1)) * (5 + s.creg.timeout.toNat)

/-- The MC steps after the current transaction's polling: RDOUT, WBACK and the later blocks, or none in LOAD_KEY. -/
def afterPoll (s : State) : Nat := if funcOf s = .setKey then 0 else 2 + laterBlocks s

/-- MC's registers with the ones kept that the steps of a block still to come read: `nblk`, `idx` and `sblk`, and `chain` in CBC. -/
def keepWalk (m : Mc) : Mc :=
  { Mc.reset with
    st := m.st, cmd := m.cmd, nblk := m.nblk, idx := m.idx, sblk := m.sblk
    chain := if cmdMode m.cmd = .cbc then m.chain else 0 }

/-- MC's registers with 0 in each that is dead in the FSM state: a later step writes it before any step reads it (R35, R198, R253). In IDLE
all of them are. -/
def hideMc (m : Mc) : Mc :=
  let command := { Mc.reset with st := m.st, cmd := m.cmd }
  let block := if cmdFunc m.cmd = .setKey then command else keepWalk m
  match m.st with
  | .idle => Mc.reset
  | .check => command
  | .fetch => { keepWalk m with sblk := 0 }
  | .wrdin => { block with xblk := m.xblk }
  | .trig => block
  | .poll => { block with pcnt := m.pcnt }
  | .rdout => keepWalk m
  | .wback => { keepWalk m with yblk := m.yblk }

/-- `s` with MC's dead registers hidden. -/
def hideDead (s : State) : State := { s with mc := hideMc s.mc }

/-- An outcome with the dead registers of its next state hidden. -/
def hideResult : Result → Result
  | .next s => .next (hideDead s)
  | .fault f => .fault f
  | .refused r => .refused r

/-- An upper bound on the MC steps the running command still takes (R266): polls left, steps left in this block, blocks left. -/
def stepsLeft (s : State) : Nat :=
  match s.mc.st with
  | .idle => 0
  | .check =>
      if funcOf s = .setKey then 1 + 2 + s.creg.timeout.toNat
      else 1 + (lenBlocks s.creg).toNat * (5 + s.creg.timeout.toNat)
  | .fetch => 5 + s.creg.timeout.toNat + laterBlocks s
  | .wrdin => 2 + s.creg.timeout.toNat + afterPoll s
  | .trig => 1 + s.creg.timeout.toNat + afterPoll s
  | .poll => (s.creg.timeout.toNat - s.mc.pcnt.toNat) + afterPoll s
  | .rdout => 2 + laterBlocks s
  | .wback => 1 + laterBlocks s

end Sys2Proof.Safety
end

