-- ==== Sys2Proof/Certificates/Slice0/Obligations.lean ====
section
/-! DEFINITION. The statements for the provers. -/

open Sys2Proof Sys2Proof.Machine Sys2Proof.Safety

/-! ### Blocks, parameters and BUF -/

/-- R10: the exclusive or of two blocks is bytewise. -/
def Obligations.XorBlocksIsBytewise : Prop :=
  ∀ a b : Block, ∀ i < 16, blockByte (xorBlocks a b) i = blockByte a i ^^^ blockByte b i

/-- R8: `word(b, j)` packs bytes 4j .. 4j+3 with the lowest byte in the low bits, and `block` is its inverse both ways. -/
def Obligations.WordsPackBlocksLittleEndian : Prop :=
  (∀ (b : Block), ∀ j < 4, blockWord b j =
    blockByte b (4 * j + 3) ++ (blockByte b (4 * j + 2) ++ (blockByte b (4 * j + 1) ++ blockByte b (4 * j)))) ∧
  (∀ b : Block, blockOfWords (blockWord b 0) (blockWord b 1) (blockWord b 2) (blockWord b 3) = b) ∧
  (∀ w0 w1 w2 w3 : Word, blockWord (blockOfWords w0 w1 w2 w3) 0 = w0 ∧ blockWord (blockOfWords w0 w1 w2 w3) 1 = w1 ∧
    blockWord (blockOfWords w0 w1 w2 w3) 2 = w2 ∧ blockWord (blockOfWords w0 w1 w2 w3) 3 = w3)

/-- R11: the two laws of the AES functions, and nothing else is known of them. -/
def Obligations.AesFunctionsAreInverse : Prop :=
  ∀ k x : Block, aesD k (aesE k x) = x ∧ aesE k (aesD k x) = x

/-- R64, R83: byte i of a block at `a` is at `a + i` modulo 2^32, for reads and for writes; a write changes no other byte and keeps the
canonical form. -/
def Obligations.BlockBytesLieAtRisingAddresses : Prop :=
  ∀ (m : Mem) (a : Word) (b : Block), Mem.wf m = true →
    (∀ i < 16, blockByte (memReadBlock m a) i = memRead m ((a.toNat + i) % 2 ^ 32)) ∧
    (∀ i < 16, memRead (memWriteBlock m a b) ((a.toNat + i) % 2 ^ 32) = blockByte b i) ∧
    (∀ c, ¬ inBlock a c → memRead (memWriteBlock m a b) c = memRead m c) ∧
    Mem.wf (memWriteBlock m a b) = true

/-! ### Encodings -/

/-- Sanity: the words of R95, R96 and R97, written out, decode to the instructions they stand for. -/
def Obligations.SpecWordsDecode : Prop :=
  decodeCmd 0x00000000 = .ecbEnc ∧ decodeCmd 0x00000001 = .ecbDec ∧ decodeCmd 0x00000002 = .loadKey ∧
  decodeCmd 0x00000004 = .cbcEnc ∧ decodeCmd 0x00000005 = .cbcDec ∧
  decodeCmd 0x00000003 = .illegalFunc3 .ecb 0 ∧ decodeCmd 0x00000007 = .illegalFunc3 .cbc 0 ∧
  decodeCmd 0x00000006 = .illegalSetKeyMode1 0 ∧
  decodeCmd 0x00000008 = .illegalRsvd .enc .ecb 1 ∧ decodeCmd 0x0000000C = .illegalRsvd .enc .cbc 1 ∧
  decodeCmd 0x80000000 = .illegalRsvd .enc .ecb 0x10000000 ∧
  decodeAs Config.dev .devControl 0x00000000 = some .encrypt ∧ decodeAs Config.dev .devControl 0x00000001 = some .decrypt ∧
  decodeAs Config.dev .devControl 0x00000002 = some .setKey ∧ decodeAs Config.dev .devControl 0x00000003 = none

/-- R95: exactly five command words are legal, each the command the table gives it; every other word is in an illegal class (R96). -/
def Obligations.ExactlyFiveWordsAreLegal : Prop :=
  ∀ w : Word,
    (decodeCmd w = .ecbEnc ↔ w = 0x00000000) ∧ (decodeCmd w = .ecbDec ↔ w = 0x00000001) ∧
    (decodeCmd w = .loadKey ↔ w = 0x00000002) ∧ (decodeCmd w = .cbcEnc ↔ w = 0x00000004) ∧
    (decodeCmd w = .cbcDec ↔ w = 0x00000005) ∧
    (w ≠ 0 ∧ w ≠ 1 ∧ w ≠ 2 ∧ w ≠ 4 ∧ w ≠ 5 →
      (∃ m r, decodeCmd w = .illegalFunc3 m r) ∨ (∃ r, decodeCmd w = .illegalSetKeyMode1 r) ∨
      (∃ f m r, decodeCmd w = .illegalRsvd f m r ∧ r ≠ 0))

/-- Every well-formed instruction, with every operand at every value its encoding admits, is read back from its word, for every layout that
meets R6. -/
def Obligations.DecodeAfterEncode : Prop :=
  ∀ (p : DevParams) (i : Instr), p.ok = true → i.wf = true → decodeAs p i.format (encodeFor p i) = some i

/-- Every command word has one meaning: it decodes to a well-formed instruction that encodes to it again, at every layout. -/
def Obligations.EncodeAfterDecode : Prop :=
  ∀ w : Word, (decodeCmd w).wf = true ∧ (decodeCmd w).format = .cmd ∧ ∀ p : DevParams, encodeFor p (decodeCmd w) = w

/-- For every layout that meets R6, the default one among them, CONTROL reads back the three opcodes and rejects every other word by name. -/
def Obligations.OpcodesDecodeForEveryLayout : Prop :=
  Config.dev.ok = true ∧
  ∀ p : DevParams, p.ok = true →
    (∀ op, decodeControl p (p.opc op) = .ok op) ∧
    (∀ w, w ≠ p.opcEncrypt → w ≠ p.opcDecrypt → w ≠ p.opcSetKey → decodeControl p w = .error (.notAnOpcode w))

/-! ### The steps of the system -/

/-- A step runs the decoded instruction: on MC's turn the command in `cmd`, on AESU's turn the operation it is busy with; each after the
turn is taken from the schedule and the draw counter advanced. An agent with no enabled step passes (the model's choice, log entry 7). -/
def Obligations.StepRunsTheDecodedInstruction : Prop :=
  ∀ s : State,
    (s.turn = .mc → s.mc.st ≠ .idle → step s = exec (decodeCmd s.mc.cmd) { s with sched := s.sched.tail, draws := s.draws + 1 }) ∧
    (s.turn = .mc → s.mc.st = .idle → step s = .next { s with sched := s.sched.tail, draws := s.draws + 1 }) ∧
    (∀ op, s.turn = .aesu → s.aesu.phase = .busy op →
      step s = exec (devInstr op) { s with sched := s.sched.tail, draws := s.draws + 1 }) ∧
    (s.turn = .aesu → (∀ op, s.aesu.phase ≠ .busy op) → step s = .next { s with sched := s.sched.tail, draws := s.draws + 1 }) ∧
    (s.turn = .host → s.host.prog = [] → step s = .next { s with sched := s.sched.tail, draws := s.draws + 1 })

/-- A word placed by `withFetchWord` is run by the very next step, at CHECK (the model's way to load a command, log entry 10). -/
def Obligations.PlacedWordRunsNext : Prop :=
  ∀ (s : State) (n : Nat) (w : Word),
    step (s.withFetchWord n w.toNat) = exec (decodeCmd w) { accept w s with sched := s.sched, draws := s.draws + 1 }

/-! ### The host port -/

/-- R21 to R31: what a host read of each of the sixteen CREG offsets returns. The read changes the host's list of values and nothing of
AES-MC, AESU or BUF. -/
def Obligations.HostReadReturnsTheRegister : Prop :=
  ∀ (s : State) (rest : List HostLine) (off : Nat) (v : Word), s.turn = .host → s.host.prog = .cregRead off .word :: rest →
    (off, v) ∈ [(0x00, 0), (0x04, s.creg.len), (0x08, s.creg.src), (0x0C, s.creg.dst),
      (0x10, s.creg.iv0), (0x14, s.creg.iv1), (0x18, s.creg.iv2), (0x1C, s.creg.iv3),
      (0x20, 0), (0x24, 0), (0x28, 0), (0x2C, 0),
      (0x30, statusWord s), (0x34, s.creg.timeout), (0x38, s.creg.blkcnt), (0x3C, (0 : Word))] →
    ∃ t, step s = .next t ∧ t.host = { s.host with prog := rest, reads := v :: s.host.reads } ∧
      t.creg = s.creg ∧ t.mc = s.mc ∧ t.aesu = s.aesu ∧ t.buf = s.buf ∧ t.bus = s.bus ∧ t.hostRace = s.hostRace

/-- R27, R37, R105: the fields of MC_STATUS; BUSY is `st != IDLE`, and the reserved bits read 0. -/
def Obligations.StatusWordHasTheFields : Prop :=
  ∀ s : State,
    (statusWord s).getLsbD 0 = (s.mc.st != .idle) ∧ (statusWord s).getLsbD 1 = s.creg.done ∧
    (statusWord s).getLsbD 2 = s.creg.keyed ∧ (statusWord s).getLsbD 3 = s.creg.ovr ∧
    (statusWord s).extractLsb' 4 4 = 0 ∧
    (statusWord s).extractLsb' 8 4 =
      (match s.creg.err with | .none => 0 | .alignment => 1 | .keyNotSet => 2 | .deviceTimeout => 3 | .illegalCommand => 4) ∧
    (statusWord s).extractLsb' 12 20 = 0

/-- R31: a read of MC_STATUS while BUSY = 1 shows BUSY = 1, DONE = 0, ERR = 0 and the current KEYED and OVR, in every state with the
invariant. -/
def Obligations.StatusWhileBusy : Prop :=
  ∀ s : State, Inv s → s.busy = true →
    statusWord s = 1 + (if s.creg.keyed then 4 else 0) + (if s.creg.ovr then 8 else 0)

/-- R32: a host write at a writable offset while BUSY = 0 stores the word (MC_TIMEOUT stores 1 for 0, R28) and changes nothing else; a
write to MC_STATUS, MC_BLKCNT or offset 0x3C is ignored. -/
def Obligations.HostWriteWhileIdle : Prop :=
  ∀ (s : State) (rest : List HostLine) (off : Nat) (w : Word) (c : Creg), s.turn = .host →
    s.host.prog = .cregWrite off .word w :: rest → s.mc.st = .idle →
    (off, c) ∈ [(0x04, { s.creg with len := w }), (0x08, { s.creg with src := w }), (0x0C, { s.creg with dst := w }),
      (0x10, { s.creg with iv0 := w }), (0x14, { s.creg with iv1 := w }), (0x18, { s.creg with iv2 := w }),
      (0x1C, { s.creg with iv3 := w }), (0x20, { s.creg with key0 := w }), (0x24, { s.creg with key1 := w }),
      (0x28, { s.creg with key2 := w }), (0x2C, { s.creg with key3 := w }), (0x30, s.creg),
      (0x34, { s.creg with timeout := if w = 0 then 1 else w }), (0x38, s.creg), (0x3C, s.creg)] →
    step s = .next { s.afterTurn with creg := c, host := { s.host with prog := rest } }

/-- R181: acceptance is a host write of any word to MC_CMD while BUSY = 0. KEYED, MC_IV and every other CREG register keep their values. -/
def Obligations.AcceptanceLatchesTheWord : Prop :=
  ∀ (s : State) (rest : List HostLine) (w : Word), s.turn = .host → s.host.prog = .cregWrite 0x00 .word w :: rest →
    s.mc.st = .idle →
    step s = .next { s.afterTurn with
      creg := { s.creg with done := false, err := .none, ovr := false, blkcnt := 0 }
      mc := { s.mc with cmd := w, st := .check }
      host := { s.host with prog := rest }
      hostRace := [] }

/-- R33: a host write at any CREG offset, MC_CMD among them, while BUSY = 1 sets OVR and changes nothing else. -/
def Obligations.HostWriteWhileBusyIsDropped : Prop :=
  ∀ (s : State) (rest : List HostLine) (off : Nat) (w : Word), s.turn = .host → s.host.prog = .cregWrite off .word w :: rest →
    off < 0x40 → off % 4 = 0 → s.mc.st ≠ .idle →
    step s = .next { s.afterTurn with creg := { s.creg with ovr := true }, host := { s.host with prog := rest } }

/-- R34: a host access that is narrower than 32 bits or not aligned has no effect when it is a write (OVR too keeps its value), and
returns 0 when it is a read, BUSY or not. -/
def Obligations.NarrowOrUnalignedAccessesDoNothing : Prop :=
  ∀ (s : State) (rest : List HostLine) (off : Nat) (width : Width), s.turn = .host → off < 0x40 →
    width ≠ .word ∨ off % 4 ≠ 0 →
    (∀ w, s.host.prog = .cregWrite off width w :: rest →
      step s = .next { s.afterTurn with host := { s.host with prog := rest } }) ∧
    (s.host.prog = .cregRead off width :: rest →
      step s = .next { s.afterTurn with host := { s.host with prog := rest, reads := 0 :: s.host.reads } })

/-- R104: WAITIDLE reads MC_STATUS, and is done exactly when the BUSY bit it read is 0. -/
def Obligations.WaitIdleLoopsWhileBusy : Prop :=
  ∀ (s : State) (rest : List HostLine), s.turn = .host → s.host.prog = .waitIdle :: rest →
    ∃ t, step s = .next t ∧ t.host.reads = statusWord s :: s.host.reads ∧
      t.host.prog = (if (statusWord s).getLsbD 0 then .waitIdle :: rest else rest) ∧
      t.creg = s.creg ∧ t.mc = s.mc ∧ t.aesu = s.aesu ∧ t.buf = s.buf

/-- R63, R75: the host's accesses to BUF, a byte at a time. While BUSY = 0 a write writes that byte and no other. While BUSY = 1 a write
outside both ranges of the command does the same and is open to no race; a write inside one of them may be lost, to MC's if MC has already
written the byte, and otherwise may or may not be seen by MC's later reads: BUF holds the new byte or the old one, the other stays open to
those reads and, where MC has already written, to the host's. No other byte changes, and nothing of AES-MC or AESU. A read returns what
BUF holds or one a race has left. (The form of the race values, and that MC_BLKCNT says which bytes MC has written, are the model's, log
entry 13.) -/
def Obligations.HostBufAccesses : Prop :=
  ∀ (s : State) (rest : List HostLine) (a : Word), s.turn = .host →
    (∀ b, s.host.prog = .bufWrite a b :: rest → s.mc.st = .idle → ∃ t, step s = .next t ∧
      t.buf = memWrite s.buf a.toNat b ∧ t.hostRace = s.hostRace ∧ t.creg = s.creg ∧ t.mc = s.mc ∧ t.aesu = s.aesu) ∧
    (∀ b, s.host.prog = .bufWrite a b :: rest → s.mc.st ≠ .idle → Mem.wf s.buf = true → ∃ t, step s = .next t ∧
      (let inRanges := (a - s.creg.src).toNat < s.creg.len.toNat ∨ (a - s.creg.dst).toNat < s.creg.len.toNat
       let written := (a - s.creg.dst).toNat < 16 * s.creg.blkcnt.toNat
       let now := memRead t.buf a.toNat
       let old := memRead s.buf a.toNat
       (¬ inRanges → t.buf = memWrite s.buf a.toNat b ∧ t.hostRace = s.hostRace) ∧
       (inRanges → ¬ written → now = b ∧ old ∈ raceValues t.hostRace a.toNat) ∧
       (inRanges → written → (now = b ∧ old ∈ raceValues t.hostRace a.toNat ∧ old ∈ raceValues t.mcRace a.toNat) ∨
         (now = old ∧ b ∈ raceValues t.hostRace a.toNat ∧ b ∈ raceValues t.mcRace a.toNat)) ∧
       (∀ c, c ≠ a.toNat → memRead t.buf c = memRead s.buf c ∧ raceValues t.hostRace c = raceValues s.hostRace c)) ∧
      t.creg = s.creg ∧ t.mc = s.mc ∧ t.aesu = s.aesu ∧ t.bus = s.bus ∧ t.host = { s.host with prog := rest }) ∧
    (s.host.prog = .bufRead a :: rest → ∃ v, v ∈ memRead s.buf a.toNat :: raceValues s.mcRace a.toNat ∧
      step s = .next { s.afterTurn with host := { s.host with prog := rest, bytes := v :: s.host.bytes } })

/-- R74: once the host has read MC_STATUS with DONE = 1, its reads of BUF return what BUF holds, for every byte. -/
def Obligations.BufIsVisibleAfterDone : Prop :=
  ∀ (s t u : State) (rest : List HostLine) (a : Word), s.turn = .host → s.host.prog = .cregRead 0x30 .word :: .bufRead a :: rest →
    s.creg.done = true → step s = .next t → t.turn = .host → step t = .next u →
    u.host.bytes = memRead s.buf a.toNat :: s.host.bytes

/-! ### The AESU contract -/

/-- R132: a DATA_IN write of lane j in phase Fresh or Ready replaces bytes 4j .. 4j+3 of DATA_IN and nothing else; in phase Busy it wedges
AESU, whose key is then a free value (the model's form of R139's unknown key, log entry 19); in phase Wedged it has no effect. -/
def Obligations.DataInWrites : Prop :=
  ∀ (p : DevParams) (a : Aesu) (n : Nat) (w : Word), p.ok = true → ∀ j < 4,
    (a.phase = .fresh ∨ a.phase = .ready → ∃ d, aesuWrite p a n (p.dinOff + 4 * j) w = .ok { a with din := d } ∧
      ∀ k < 16, blockByte d k = if k / 4 = j then w.extractLsb' (8 * (k % 4)) 8 else blockByte a.din k) ∧
    (∀ op, a.phase = .busy op →
      aesuWrite p a n (p.dinOff + 4 * j) w = .ok { a with phase := .wedged, key := Config.freeKey n }) ∧
    (a.phase = .wedged → aesuWrite p a n (p.dinOff + 4 * j) w = .ok a)

/-- R133, R138, R139: what a CONTROL write does, by phase and value, for every layout that meets R6. Where it wedges AESU the key is unknown
from then on: a free value (the model's form, log entry 19). -/
def Obligations.ControlWrites : Prop :=
  ∀ (p : DevParams) (a : Aesu) (n : Nat) (w : Word), p.ok = true →
    (a.phase = .fresh ∨ a.phase = .ready →
      (w = p.opcEncrypt → aesuWrite p a n p.ctrlOff w = .ok { a with phase := .busy .enc }) ∧
      (w = p.opcDecrypt → aesuWrite p a n p.ctrlOff w = .ok { a with phase := .busy .dec }) ∧
      (w = p.opcSetKey → aesuWrite p a n p.ctrlOff w = .ok { a with phase := .busy .setKey }) ∧
      (w ≠ p.opcEncrypt → w ≠ p.opcDecrypt → w ≠ p.opcSetKey →
        aesuWrite p a n p.ctrlOff w = .ok { a with phase := .wedged, key := Config.freeKey n })) ∧
    (∀ op, a.phase = .busy op → aesuWrite p a n p.ctrlOff w = .ok { a with phase := .wedged, key := Config.freeKey n }) ∧
    (a.phase = .wedged → aesuWrite p a n p.ctrlOff w = .ok a)

/-- R135, R136: a STATUS read is 0 in phase Busy, a draw from the nonzero words in phase Ready and a draw from all words in the other two; a
DATA_OUT read of lane j is word j of DATA_OUT in phase Ready and a draw otherwise. The draw in phase Ready is `readyStatus` of a free word:
never 0, and every other word for some value of the free word (the model's form of R135's draw, log entry 6). -/
def Obligations.StatusAndDataOutReads : Prop :=
  (∀ (p : DevParams) (a : Aesu) (n : Nat), p.ok = true →
    (∀ op, a.phase = .busy op → aesuRead p a n p.statOff = .ok 0) ∧
    (a.phase = .ready → aesuRead p a n p.statOff = .ok (readyStatus (Config.freeReadySeed n))) ∧
    (a.phase = .fresh ∨ a.phase = .wedged → aesuRead p a n p.statOff = .ok (Config.freeStatus n)) ∧
    (∀ j < 4, (a.phase = .ready → aesuRead p a n (p.doutOff + 4 * j) = .ok (blockWord a.dout j)) ∧
      (a.phase ≠ .ready → aesuRead p a n (p.doutOff + 4 * j) = .ok (Config.freeDataOut n j)))) ∧
  (∀ w : Word, w ≠ 0 ↔ ∃ seed, readyStatus seed = w)

/-- R30, R141: where the spec gives an access no meaning the model stops on it by name: a host access at a CREG offset of 0x40 or beyond; a
DEV access at an offset with no register, a read of DATA_IN or CONTROL, a write of DATA_OUT or STATUS (which MC never makes,
`EveryStepCompletes`). That such an access stops the model, and under which name, is the model's choice (log entry 17). -/
def Obligations.AccessesWithNoMeaningAreRefused : Prop :=
  (∀ (s : State) (rest : List HostLine) (off : Nat) (width : Width), s.turn = .host → 0x40 ≤ off →
    (∀ w, s.host.prog = .cregWrite off width w :: rest → step s = .refused (.outsideCreg off)) ∧
    (s.host.prog = .cregRead off width :: rest → step s = .refused (.outsideCreg off))) ∧
  (∀ (p : DevParams) (a : Aesu) (n off : Nat) (w : Word),
    (off ≠ p.dinOff → off ≠ p.dinOff + 4 → off ≠ p.dinOff + 8 → off ≠ p.dinOff + 12 → off ≠ p.ctrlOff →
      aesuWrite p a n off w = .error (.deviceAccess off)) ∧
    (off ≠ p.doutOff → off ≠ p.doutOff + 4 → off ≠ p.doutOff + 8 → off ≠ p.doutOff + 12 → off ≠ p.statOff →
      aesuRead p a n off = .error (.deviceAccess off)))

/-- R128 to R130, R133: ENCRYPT, DECRYPT and SET_KEY start from phase Fresh or Ready and change nothing but the phase; while AESU is busy
with another operation they wedge it, with a free value in the key slot (the model's form of R139, log entry 19); once wedged they have no
effect. -/
def Obligations.DeviceOpcodesStart : Prop :=
  ∀ (i : Instr) (op : DevOp) (s : State), (i, op) ∈ deviceOpcodes → s.dev.ok = true →
    (s.aesu.phase = .fresh ∨ s.aesu.phase = .ready → exec i s = .next { s with aesu := { s.aesu with phase := .busy op } }) ∧
    (∀ op', s.aesu.phase = .busy op' → op' ≠ op →
      exec i s = .next { s with aesu := { s.aesu with phase := .wedged, key := Config.freeKey s.draws } }) ∧
    (s.aesu.phase = .wedged → exec i s = .next s)

/-- R134: completion. ENCRYPT and DECRYPT put the transform of DATA_IN under the loaded key in DATA_OUT; SET_KEY puts DATA_IN in the key
slot and leaves DATA_OUT; each leaves DATA_IN (R143) and ends in phase Ready, changing nothing outside AESU. With no key loaded DATA_OUT is
left free. -/
def Obligations.DeviceOpcodesComplete : Prop :=
  ∀ (s : State),
    (s.aesu.phase = .busy .enc →
      (∀ k, s.aesu.key = some k →
        exec .encrypt s = .next { s with aesu := { s.aesu with dout := aesE k s.aesu.din, phase := .ready } }) ∧
      ∃ d, exec .encrypt s = .next { s with aesu := { s.aesu with dout := d, phase := .ready } }) ∧
    (s.aesu.phase = .busy .dec →
      (∀ k, s.aesu.key = some k →
        exec .decrypt s = .next { s with aesu := { s.aesu with dout := aesD k s.aesu.din, phase := .ready } }) ∧
      ∃ d, exec .decrypt s = .next { s with aesu := { s.aesu with dout := d, phase := .ready } }) ∧
    (s.aesu.phase = .busy .setKey →
      exec .setKey s = .next { s with aesu := { s.aesu with key := some s.aesu.din, phase := .ready } })

/-- R139: Wedged is absorbing; only a system reset leaves it. -/
def Obligations.WedgedUntilSystemReset : Prop :=
  ∀ s t : State, s.dev.ok = true → step s = .next t → s.aesu.phase = .wedged → s.turn ≠ .systemReset → t.aesu.phase = .wedged

/-! ### The steps of a command -/

/-- R183: the CHECK step of any command word is the rule's pseudocode, read from the word's own bits. -/
def Obligations.CheckFollowsItsPseudocode : Prop :=
  ∀ (w : Word) (s : State), s.mc.st = .check →
    exec (decodeCmd w) s =
      if w.extractLsb' 3 29 ≠ 0 ∨ w.extractLsb' 0 2 = 3 ∨ (w.extractLsb' 0 2 = 2 ∧ w.extractLsb' 2 1 = 1) then
        .next (finish .illegalCommand s)
      else if w.extractLsb' 0 2 = 2 then
        .next { s with
          creg := { s.creg with keyed := false }
          mc := { s.mc with xblk := blockOfWords s.creg.key0 s.creg.key1 s.creg.key2 s.creg.key3, st := .wrdin } }
      else if s.creg.len.extractLsb' 0 4 ≠ 0 then .next (finish .alignment s)
      else if s.creg.keyed = false then .next (finish .keyNotSet s)
      else
        let t := { s with
          mc := { s.mc with
            nblk := s.creg.len.extractLsb' 4 28
            chain := if w.extractLsb' 2 1 = 1 then blockOfWords s.creg.iv0 s.creg.iv1 s.creg.iv2 s.creg.iv3 else s.mc.chain
            idx := 0 } }
        if s.creg.len.extractLsb' 4 28 = 0 then .next (finish .none t) else .next { t with mc := { t.mc with st := .fetch } }

/-- R196, R225: an illegal command of any class, with any operands, ends at CHECK with ILLEGAL_COMMAND; KEYED, MC_IV, MC_BLKCNT, BUF and
AESU keep their values, and no bus access is made. -/
def Obligations.IllegalCommandsEndAtCheck : Prop :=
  ∀ (i : Instr) (s : State), s.mc.st = .check →
    (∃ m r, i = .illegalFunc3 m r) ∨ (∃ r, i = .illegalSetKeyMode1 r) ∨ (∃ f m r, i = .illegalRsvd f m r) →
    exec i s = .next { s with
      creg := { s.creg with err := .illegalCommand, done := true }
      mc := { s.mc with st := .idle } }

/-- R222, R223, R228: an encrypt or decrypt command reports ALIGNMENT first and KEY_NOT_SET next; either ends it at CHECK with KEYED, MC_IV,
MC_BLKCNT, BUF and AESU unchanged and no bus access. -/
def Obligations.EncryptAndDecryptErrorsAtCheck : Prop :=
  ∀ (i : Instr) (f : Func) (m : Mode) (op : DevOp) (s : State), (i, f, m, op) ∈ cryptCommands → s.mc.st = .check →
    (s.creg.len.toNat % 16 ≠ 0 → exec i s = .next { s with
      creg := { s.creg with err := .alignment, done := true }, mc := { s.mc with st := .idle } }) ∧
    (s.creg.len.toNat % 16 = 0 → s.creg.keyed = false → exec i s = .next { s with
      creg := { s.creg with err := .keyNotSet, done := true }, mc := { s.mc with st := .idle } })

/-- R187, R75: FETCH, for the four encrypt and decrypt commands. With no host write open the block read is the one BUF holds; otherwise every
byte of it is that byte or one a race has left (the form of the race values is the model's, log entry 13). -/
def Obligations.FetchReadsOneBlock : Prop :=
  ∀ (i : Instr) (f : Func) (m : Mode) (op : DevOp) (s : State), (i, f, m, op) ∈ cryptCommands → s.mc.st = .fetch →
    ∃ b : Block,
      exec i s = .next { s with
        mc := { s.mc with sblk := b, xblk := if i = .cbcEnc then xorBlocks b s.mc.chain else b, st := .wrdin }
        bus := .bufRead (blockAt s.creg.src s.mc.idx.toNat) b :: s.bus } ∧
      (s.hostRace = [] → b = memReadBlock s.buf (blockAt s.creg.src s.mc.idx.toNat)) ∧
      ∀ k < 16, blockByte b k ∈
        memRead s.buf (byteAddress (blockAt s.creg.src s.mc.idx.toNat) k) ::
          raceValues s.hostRace (byteAddress (blockAt s.creg.src s.mc.idx.toNat) k)

/-- R121: WRDIN, for the five legal commands: four writes in ascending order; DATA_IN takes the operand, or AESU wedges if it was busy, its
key then a free value (the model's form of R139, log entry 19). -/
def Obligations.WrdinWritesTheOperand : Prop :=
  ∀ (i : Instr) (op : DevOp) (s : State), (i, op) ∈ legalCommands → s.dev.ok = true → s.mc.st = .wrdin →
    ∃ a : Aesu,
      exec i s = .next { s with
        aesu := a
        mc := { s.mc with st := .trig }
        bus := .devWrite (s.dev.dinOff + 12) (blockWord s.mc.xblk 3) :: .devWrite (s.dev.dinOff + 8) (blockWord s.mc.xblk 2) ::
          .devWrite (s.dev.dinOff + 4) (blockWord s.mc.xblk 1) :: .devWrite s.dev.dinOff (blockWord s.mc.xblk 0) :: s.bus } ∧
      (s.aesu.phase = .fresh ∨ s.aesu.phase = .ready → a = { s.aesu with din := s.mc.xblk }) ∧
      (∀ o, s.aesu.phase = .busy o → a = { s.aesu with phase := .wedged, key := Config.freeKey s.draws }) ∧
      (s.aesu.phase = .wedged → a = s.aesu)

/-- R122: TRIG, for the five legal commands: one CONTROL write of the command's opcode, the poll count restarts at 0; AESU starts the
operation, or wedges if it was busy, its key then a free value (the model's form of R139, log entry 19). -/
def Obligations.TrigStartsTheOperation : Prop :=
  ∀ (i : Instr) (op : DevOp) (s : State), (i, op) ∈ legalCommands → s.dev.ok = true → s.mc.st = .trig →
    ∃ a : Aesu,
      exec i s = .next { s with
        aesu := a
        mc := { s.mc with pcnt := 0, st := .poll }
        bus := .devWrite s.dev.ctrlOff
          (match op with | .enc => s.dev.opcEncrypt | .dec => s.dev.opcDecrypt | .setKey => s.dev.opcSetKey) :: s.bus } ∧
      (s.aesu.phase = .fresh ∨ s.aesu.phase = .ready → a = { s.aesu with phase := .busy op }) ∧
      (∀ o, s.aesu.phase = .busy o → a = { s.aesu with phase := .wedged, key := Config.freeKey s.draws }) ∧
      (s.aesu.phase = .wedged → a = s.aesu)

/-- R123: POLL, for the five legal commands: one STATUS read, counted; a nonzero word ends LOAD_KEY with KEYED = 1 and sends the others to
RDOUT; a zero word ends the command with DEVICE_TIMEOUT and KEYED = 0 once MC_TIMEOUT reads are made, and otherwise polls again. -/
def Obligations.PollFollowsItsPseudocode : Prop :=
  ∀ (i : Instr) (op : DevOp) (s : State) (v : Word), (i, op) ∈ legalCommands → s.mc.st = .poll →
    aesuRead s.dev s.aesu s.draws s.dev.statOff = .ok v →
    exec i s =
      if v ≠ 0 then
        if i = .loadKey then .next { s with
          creg := { s.creg with keyed := true, err := .none, done := true }
          mc := { s.mc with pcnt := s.mc.pcnt + 1, st := .idle }
          bus := .devRead s.dev.statOff v :: s.bus }
        else .next { s with mc := { s.mc with pcnt := s.mc.pcnt + 1, st := .rdout }, bus := .devRead s.dev.statOff v :: s.bus }
      else if s.creg.timeout ≤ s.mc.pcnt + 1 then .next { s with
        creg := { s.creg with keyed := false, err := .deviceTimeout, done := true }
        mc := { s.mc with pcnt := s.mc.pcnt + 1, st := .idle }
        bus := .devRead s.dev.statOff v :: s.bus }
      else .next { s with mc := { s.mc with pcnt := s.mc.pcnt + 1 }, bus := .devRead s.dev.statOff v :: s.bus }

/-- R124: RDOUT, for the four encrypt and decrypt commands: four reads in ascending order make the result; in phase Ready it is DATA_OUT. -/
def Obligations.RdoutReadsTheResult : Prop :=
  ∀ (i : Instr) (f : Func) (m : Mode) (op : DevOp) (s : State), (i, f, m, op) ∈ cryptCommands → s.dev.ok = true → s.mc.st = .rdout →
    ∃ w0 w1 w2 w3 : Word,
      aesuRead s.dev s.aesu s.draws s.dev.doutOff = .ok w0 ∧ aesuRead s.dev s.aesu s.draws (s.dev.doutOff + 4) = .ok w1 ∧
      aesuRead s.dev s.aesu s.draws (s.dev.doutOff + 8) = .ok w2 ∧ aesuRead s.dev s.aesu s.draws (s.dev.doutOff + 12) = .ok w3 ∧
      exec i s = .next { s with
        mc := { s.mc with yblk := blockOfWords w0 w1 w2 w3, st := .wback }
        bus := .devRead (s.dev.doutOff + 12) w3 :: .devRead (s.dev.doutOff + 8) w2 :: .devRead (s.dev.doutOff + 4) w1 ::
          .devRead s.dev.doutOff w0 :: s.bus } ∧
      (s.aesu.phase = .ready → blockOfWords w0 w1 w2 w3 = s.aesu.dout)

/-- R188: WBACK, for the four encrypt and decrypt commands, in a state where the index has not wrapped (R39): the output block is written,
the chain updated, the block counted; after the last block a CBC command returns the chain in MC_IV and the command finishes, otherwise the
next block is fetched. With no host write open the sixteen bytes are the output; every other byte of BUF is unchanged in any case. A byte the
host wrote too during the command holds either write, and the one that lost stays open to MC's later reads (R75; the form of the race values
is the model's, log entry 13). -/
def Obligations.WbackWritesOneBlock : Prop :=
  ∀ (i : Instr) (f : Func) (m : Mode) (op : DevOp) (s : State), (i, f, m, op) ∈ cryptCommands → s.mc.st = .wback →
    Mem.wf s.buf = true → s.mc.idx.toNat < s.mc.nblk.toNat →
    ∃ t : State,
      exec i s = .next t ∧
      (let out := if i = .cbcDec then xorBlocks s.mc.yblk s.mc.chain else s.mc.yblk
       let chain := if i = .cbcEnc then s.mc.yblk else if i = .cbcDec then s.mc.sblk else s.mc.chain
       let last := s.mc.idx.toNat + 1 = s.mc.nblk.toNat
       let dst := blockAt s.creg.dst s.mc.idx.toNat
       (s.hostRace = [] → t.buf = memWriteBlock s.buf dst out) ∧
       (∀ c, ¬ inBlock dst c → memRead t.buf c = memRead s.buf c ∧ raceValues t.hostRace c = raceValues s.hostRace c) ∧
       (∀ k < 16, let c := (dst.toNat + k) % 2 ^ 32
         (raceValues s.hostRace c = [] → memRead t.buf c = blockByte out k ∧ raceValues t.hostRace c = []) ∧
         (raceValues s.hostRace c ≠ [] →
           (memRead t.buf c = blockByte out k ∧ memRead s.buf c ∈ raceValues t.hostRace c) ∨
           (memRead t.buf c = memRead s.buf c ∧ blockByte out k ∈ raceValues t.hostRace c))) ∧
       t.bus = .bufWrite dst out :: s.bus ∧
       t.creg.blkcnt = BitVec.ofNat 32 (s.mc.idx.toNat + 1) ∧
       t.mc = (if last then { s.mc with chain := chain, st := .idle }
         else { s.mc with chain := chain, idx := BitVec.ofNat 28 (s.mc.idx.toNat + 1), st := .fetch }) ∧
       (last → t.creg.err = .none ∧ t.creg.done = true) ∧
       (¬ last → t.creg.err = s.creg.err ∧ t.creg.done = s.creg.done) ∧
       ivBlock t.creg = (if last ∧ m = .cbc then chain else ivBlock s.creg)) ∧
      t.creg.len = s.creg.len ∧ t.creg.src = s.creg.src ∧ t.creg.dst = s.creg.dst ∧ keyBlock t.creg = keyBlock s.creg ∧
      t.creg.keyed = s.creg.keyed ∧ t.creg.ovr = s.creg.ovr ∧ t.creg.timeout = s.creg.timeout ∧
      t.aesu = s.aesu ∧ t.host = s.host ∧ t.sched = s.sched ∧ t.draws = s.draws ∧ t.dev = s.dev ∧
      (s.hostRace = [] → t.hostRace = [])

/-- From IDLE, a command's first step is its acceptance (R181), for every command, legal or not: its word is latched. (That exec answers
acceptance in IDLE is the model's choice, log entry 11.) -/
def Obligations.CommandsAreAcceptedFromIdle : Prop :=
  ∀ (i : Instr) (s : State), i.format = .cmd → s.mc.st = .idle → exec i s = .next (accept (encode i) s)

/-- The one form of a command the model stops on: TRIG of a word with FUNC = 3, whose opcode R99 does not define. No run reaches it
(`EveryStepCompletes`). R99 gives no stop: that TRIG of such a word is this fault is the model's choice (log entry 15). -/
def Obligations.TrigOfFunc3HasNoOpcode : Prop :=
  ∀ (mode : Mode) (rsvd : BitVec 29) (s : State), s.mc.st = .trig →
    exec (.illegalFunc3 mode rsvd) s = .fault .noDeviceOpcode

/-- The frame of every command, by FSM state: what each step may change, and nothing else. MC_LEN, MC_SRC, MC_DST, MC_KEY and MC_TIMEOUT are
never written by MC (R22 to R28), OVR only by acceptance, MC_IV only in WBACK, KEYED only in CHECK and POLL; DATA_OUT of AESU never, its key
slot only when the step wedges AESU (a free value then, the model's form of R139, log entry 19), AESU only in WRDIN and TRIG; BUF only in
WBACK and only in the destination block; each datapath register only in the steps that R35 names; the layout, the host, the
schedule and the draw counter never. -/
def Obligations.CommandFrame : Prop :=
  ∀ (i : Instr) (s t : State), i.format = .cmd → s.dev.ok = true → exec i s = .next t → Mem.wf s.buf = true →
    (t.creg.len = s.creg.len ∧ t.creg.src = s.creg.src ∧ t.creg.dst = s.creg.dst ∧ keyBlock t.creg = keyBlock s.creg ∧
      t.creg.timeout = s.creg.timeout ∧ (s.mc.st ≠ .idle → t.creg.ovr = s.creg.ovr) ∧
      (s.mc.st ≠ .wback → ivBlock t.creg = ivBlock s.creg) ∧
      (s.mc.st ≠ .idle → s.mc.st ≠ .wback → t.creg.blkcnt = s.creg.blkcnt) ∧
      (s.mc.st ≠ .check → s.mc.st ≠ .poll → t.creg.keyed = s.creg.keyed) ∧
      (s.mc.st = .fetch ∨ s.mc.st = .wrdin ∨ s.mc.st = .trig ∨ s.mc.st = .rdout →
        t.creg.done = s.creg.done ∧ t.creg.err = s.creg.err)) ∧
    ((t.aesu.key = s.aesu.key ∨
        (s.aesu.phase ≠ .wedged ∧ t.aesu.phase = .wedged ∧ t.aesu.key = Config.freeKey s.draws)) ∧
      t.aesu.dout = s.aesu.dout ∧ (s.mc.st ≠ .wrdin → s.mc.st ≠ .trig → t.aesu = s.aesu)) ∧
    ((s.mc.st ≠ .idle → t.mc.cmd = s.mc.cmd) ∧ (s.mc.st ≠ .check → t.mc.nblk = s.mc.nblk) ∧
      (s.mc.st ≠ .check → s.mc.st ≠ .wback → t.mc.idx = s.mc.idx ∧ t.mc.chain = s.mc.chain) ∧
      (s.mc.st ≠ .fetch → t.mc.sblk = s.mc.sblk) ∧ (s.mc.st ≠ .check → s.mc.st ≠ .fetch → t.mc.xblk = s.mc.xblk) ∧
      (s.mc.st ≠ .rdout → t.mc.yblk = s.mc.yblk) ∧ (s.mc.st ≠ .trig → s.mc.st ≠ .poll → t.mc.pcnt = s.mc.pcnt)) ∧
    ((s.mc.st ≠ .wback → t.buf = s.buf) ∧
      (∀ c, (s.mc.st = .wback → ¬ inBlock (blockAt s.creg.dst s.mc.idx.toNat) c) → memRead t.buf c = memRead s.buf c)) ∧
    (t.dev = s.dev ∧ t.host = s.host ∧ t.sched = s.sched ∧ t.draws = s.draws ∧ (s.mc.st = .idle ∨ s.mc.st = .check → t.bus = s.bus))

/-! ### Whole commands -/

/-- R191: LOAD_KEY from CHECK, with AESU Fresh or Ready and completing before the first poll: four MC steps and one completion load the
staging block into AESU and set KEYED. BUF is not accessed and DATA_OUT not read. -/
def Obligations.LoadKeyLoadsTheKey : Prop :=
  ∀ s : State, s.dev.ok = true → s.mc.st = .check → s.aesu.phase = .fresh ∨ s.aesu.phase = .ready →
    ∃ s1 s2 s3 s4 s5 : State,
      exec .loadKey s = .next s1 ∧ exec .loadKey s1 = .next s2 ∧ exec .loadKey s2 = .next s3 ∧
      exec .setKey s3 = .next s4 ∧ exec .loadKey s4 = .next s5 ∧
      s1.creg.keyed = false ∧ s3.aesu.phase = .busy .setKey ∧
      s5.aesu = { s.aesu with din := keyBlock s.creg, key := some (keyBlock s.creg), phase := .ready } ∧
      s5.creg = { s.creg with keyed := true, err := .none, done := true } ∧ s5.mc.st = .idle ∧ s5.buf = s.buf ∧
      ∃ v : Word, v ≠ 0 ∧
        s5.bus = .devRead s.dev.statOff v :: .devWrite s.dev.ctrlOff s.dev.opcSetKey ::
          .devWrite (s.dev.dinOff + 12) s.creg.key3 :: .devWrite (s.dev.dinOff + 8) s.creg.key2 ::
          .devWrite (s.dev.dinOff + 4) s.creg.key1 :: .devWrite s.dev.dinOff s.creg.key0 :: s.bus

/-- R192 to R195: one block of each encrypt and decrypt command, with a key loaded, AESU completing before the first poll and no host write
open: six MC steps and one completion write the transform of the source block at the destination, chained as the mode says, with the bus
accesses of R73 and R120 in that order and no others. -/
def Obligations.OneBlockIsTransformed : Prop :=
  ∀ (i : Instr) (f : Func) (m : Mode) (op : DevOp) (s : State) (k : Block), (i, f, m, op) ∈ cryptCommands →
    s.dev.ok = true → s.mc.st = .fetch → s.aesu.phase = .ready → s.aesu.key = some k → s.hostRace = [] →
    s.mc.idx.toNat < s.mc.nblk.toNat →
    ∃ s1 s2 s3 s4 s5 s6 s7 : State,
      exec i s = .next s1 ∧ exec i s1 = .next s2 ∧ exec i s2 = .next s3 ∧ exec (devInstr op) s3 = .next s4 ∧
      exec i s4 = .next s5 ∧ exec i s5 = .next s6 ∧ exec i s6 = .next s7 ∧
      (let src := memReadBlock s.buf (blockAt s.creg.src s.mc.idx.toNat)
       let out := match i with
         | .ecbDec => aesD k src
         | .cbcEnc => aesE k (xorBlocks src s.mc.chain)
         | .cbcDec => xorBlocks (aesD k src) s.mc.chain
         | _ => aesE k src
       s7.buf = memWriteBlock s.buf (blockAt s.creg.dst s.mc.idx.toNat) out ∧
       s7.mc.chain = (match i with | .cbcEnc => out | .cbcDec => src | _ => s.mc.chain) ∧
       let x := if i = .cbcEnc then xorBlocks src s.mc.chain else src
       let y := if op = .enc then aesE k x else aesD k x
       ∃ v : Word, v ≠ 0 ∧
         s7.bus = .bufWrite (blockAt s.creg.dst s.mc.idx.toNat) out ::
           .devRead (s.dev.doutOff + 12) (blockWord y 3) :: .devRead (s.dev.doutOff + 8) (blockWord y 2) ::
           .devRead (s.dev.doutOff + 4) (blockWord y 1) :: .devRead s.dev.doutOff (blockWord y 0) :: .devRead s.dev.statOff v ::
           .devWrite s.dev.ctrlOff (if op = .enc then s.dev.opcEncrypt else s.dev.opcDecrypt) ::
           .devWrite (s.dev.dinOff + 12) (blockWord x 3) :: .devWrite (s.dev.dinOff + 8) (blockWord x 2) ::
           .devWrite (s.dev.dinOff + 4) (blockWord x 1) ::
           .devWrite s.dev.dinOff (blockWord x 0) :: .bufRead (blockAt s.creg.src s.mc.idx.toNat) src :: s.bus) ∧
      s7.creg.blkcnt = BitVec.ofNat 32 (s.mc.idx.toNat + 1) ∧ s7.aesu.phase = .ready ∧ s7.aesu.key = some k ∧
      s7.creg.keyed = s.creg.keyed ∧
      s7.mc.st = (if s.mc.idx.toNat + 1 = s.mc.nblk.toNat then .idle else .fetch)

/-- R192 to R195, R163 to R167, R189, R227: an encrypt or decrypt command, from CHECK to its end, in any interleaving of MC, AESU and a
host that keeps to R75: one that may write BUF anywhere outside the command's two ranges. At every step before its end BUF holds the loop's
value for the blocks written so far, with the host's own writes. It ends with ERR = NONE and the whole loop's BUF, MC_IV and MC_BLKCNT, or
with DEVICE_TIMEOUT on some block k, with exactly blocks 0 .. k-1 written, MC_IV unchanged and KEYED = 0. -/
def Obligations.CommandsRefineTheSpecLoops : Prop :=
  ∀ (s u : State) (writes : List Host.Cell) (key : Block) (op : DevOp), ReadyToRun s key → devOpOf (funcOf s) = some op →
    BusyRun s writes u →
    (u.busy = true → u.mc.st ≠ .check →
      u.buf = withWrites (commandLoop s op key u.mc.idx.toNat).1 writes ∧ ivBlock u.creg = ivBlock s.creg) ∧
    (u.busy = false →
      let n := (lenBlocks s.creg).toNat
      (u.creg.err = .none ∧ u.buf = withWrites (commandLoop s op key n).1 writes ∧ u.creg.blkcnt = BitVec.ofNat 32 n ∧
        u.creg.keyed = true ∧
        ivBlock u.creg = (if modeOf s = .cbc then (commandLoop s op key n).2 else ivBlock s.creg)) ∨
      (u.creg.err = .deviceTimeout ∧ u.creg.keyed = false ∧ ivBlock u.creg = ivBlock s.creg ∧
        ∃ k < n, u.creg.blkcnt = BitVec.ofNat 32 k ∧ u.buf = withWrites (commandLoop s op key k).1 writes))

/-- R197: where source and destination ranges do not overlap, or are the same, a command that ends with ERR = NONE leaves the mode's function
of the original input in every destination block, and a CBC command the last ciphertext block in MC_IV; the host may meanwhile write BUF
anywhere outside the two ranges. -/
def Obligations.CompletedCommandLeavesTheModeFunction : Prop :=
  ∀ (s u : State) (writes : List Host.Cell) (key : Block), ReadyToRun s key → BusyRun s writes u → u.busy = false →
    u.creg.err = .none →
    let n := (lenBlocks s.creg).toNat
    let inp := fun i => memReadBlock s.buf (blockAt s.creg.src i)
    rangesDisjoint s.creg.src s.creg.dst n ∨ s.creg.dst = s.creg.src →
    (∀ i < n, memReadBlock u.buf (blockAt s.creg.dst i) = expectedBlock (funcOf s) (modeOf s) key (ivBlock s.creg) inp i) ∧
    (modeOf s = .cbc → ivBlock u.creg = expectedIv (funcOf s) key (ivBlock s.creg) inp n) ∧
    (modeOf s = .ecb → ivBlock u.creg = ivBlock s.creg)

/-- R200, as a law of the spec's loops: the decryption loop, run on what the encryption loop of the same mode, key and IV left, gives the
original blocks back. Of the commands it speaks only through `CommandsRefineTheSpecLoops`. -/
def Obligations.DecryptInvertsEncrypt : Prop :=
  ∀ (mode : Mode) (key iv : Block) (src mid dst : Word) (buf : Mem) (n : Nat), Mem.wf buf = true → n < 2 ^ 28 →
    rangesDisjoint src mid n ∨ mid = src → rangesDisjoint mid dst n ∨ dst = mid →
    let enc := blockLoop .enc mode .enc key src mid buf iv n
    let dec := blockLoop .dec mode .dec key mid dst enc.1 iv n
    (∀ i < n, memReadBlock dec.1 (blockAt dst i) = memReadBlock buf (blockAt src i)) ∧
    (mode = .cbc → dec.2 = enc.2)

/-! ### The invariant and the whole machine -/

/-- The invariant holds right after reset, at every layout that meets R6. -/
def Obligations.ResetMeetsTheInvariant : Prop := Inv State.reset ∧ ∀ p : DevParams, p.ok = true → Inv (State.resetFor p)

/-- Every step of every agent keeps the invariant, from every state that has it. -/
def Obligations.StepsKeepTheInvariant : Prop := ∀ s t : State, Inv s → step s = .next t → Inv t

/-- R6: the layout and the opcodes are an argument of the machine. No step of any agent changes them. -/
def Obligations.NoStepChangesTheLayout : Prop := ∀ s t : State, s.dev.ok = true → step s = .next t → t.dev = s.dev

/-- From every state with the invariant, whose host keeps to the CREG window, the step completes: no fault and no refusal; and the host still
keeps to it after. So MC never makes a DEV access the contract gives no meaning (R98, R141), and no command gets stuck. -/
def Obligations.EveryStepCompletes : Prop :=
  ∀ s : State, Inv s → HostInRange s → ∃ t, step s = .next t ∧ HostInRange t

/-- R125: MC enters RDOUT only from a POLL step whose STATUS read returned a nonzero value. -/
def Obligations.RdoutOnlyAfterNonzeroStatus : Prop :=
  ∀ s t : State, s.dev.ok = true → step s = .next t → t.mc.st = .rdout → s.mc.st ≠ .rdout →
    s.turn = .mc ∧ s.mc.st = .poll ∧ ∃ v, v ≠ 0 ∧ t.bus = .devRead s.dev.statOff v :: s.bus

/-- R190: the only actions that write KEYED. -/
def Obligations.OnlyTheseActionsWriteKeyed : Prop :=
  ∀ s t : State, Inv s → step s = .next t → t.creg.keyed ≠ s.creg.keyed →
    (s.turn = .mc ∧ s.mc.st = .check ∧ decodeCmd s.mc.cmd = .loadKey ∧ t.creg.keyed = false) ∨
    (s.turn = .mc ∧ s.mc.st = .poll ∧ decodeCmd s.mc.cmd = .loadKey ∧ t.creg.keyed = true ∧ t.creg.err = .none) ∨
    (s.turn = .mc ∧ s.mc.st = .poll ∧ t.creg.keyed = false ∧ t.creg.err = .deviceTimeout) ∨
    ((s.turn = .mcReset ∨ s.turn = .systemReset) ∧ t.creg.keyed = false)

/-- R189, R25: MC_IV changes only by a reset, by a host write at 0x10 to 0x1C while BUSY = 0, or in the last WBACK of a CBC command that
completes without error. -/
def Obligations.OnlyTheseActionsWriteIv : Prop :=
  ∀ s t : State, Inv s → step s = .next t → ivBlock t.creg ≠ ivBlock s.creg →
    (s.turn = .mcReset ∨ s.turn = .systemReset) ∨
    (s.turn = .host ∧ s.mc.st = .idle ∧ ∃ off w rest, s.host.prog = .cregWrite off .word w :: rest ∧ 0x10 ≤ off ∧ off ≤ 0x1C) ∨
    (s.turn = .mc ∧ s.mc.st = .wback ∧ modeOf s = .cbc ∧ t.mc.st = .idle ∧ t.creg.err = .none ∧ ivBlock t.creg = t.mc.chain)

/-- R63, R163: BUF changes only by a host write of its own or in MC's WBACK. -/
def Obligations.OnlyHostAndWbackWriteBuf : Prop :=
  ∀ s t : State, Inv s → step s = .next t → t.buf ≠ s.buf →
    (s.turn = .host ∧ ∃ a b rest, s.host.prog = .bufWrite a b :: rest) ∨ (s.turn = .mc ∧ s.mc.st = .wback)

/-- R137, R223: AESU is put in Busy(Enc) or Busy(Dec) only by MC's TRIG step, and only with KEYED = 1 and a key in AESU, which the step
keeps: from every state with the invariant. -/
def Obligations.EncryptAndDecryptOnlyWithAKey : Prop :=
  ∀ (s t : State) (op : DevOp), Inv s → step s = .next t → t.aesu.phase = .busy op → s.aesu.phase ≠ .busy op → op ≠ .setKey →
    s.turn = .mc ∧ s.mc.st = .trig ∧ s.creg.keyed = true ∧ s.aesu.key ≠ none ∧ t.aesu.key = s.aesu.key

/-- R224: a timeout ends the command after exactly MC_TIMEOUT reads of the transaction; the block is not written, MC_IV is unchanged,
MC_BLKCNT is the index of the block (0 for LOAD_KEY), and KEYED = 0. -/
def Obligations.TimeoutLeavesTheBlockUnwritten : Prop :=
  ∀ s t : State, Inv s → s.turn = .mc → s.mc.st = .poll → step s = .next t → t.mc.st = .idle → t.creg.err = .deviceTimeout →
    t.mc.pcnt = s.creg.timeout ∧ t.creg.keyed = false ∧ t.creg.done = true ∧ t.buf = s.buf ∧ ivBlock t.creg = ivBlock s.creg ∧
    t.aesu = s.aesu ∧ t.creg.blkcnt = (if funcOf s = .setKey then 0 else BitVec.ofNat 32 s.mc.idx.toNat)

/-- R250: what a reset leaves in CREG and the FSM, from every state, and in the state the machine starts in. -/
def Obligations.ResetPutsTheStatedValues : Prop :=
  ∀ t : State, (t = State.reset ∨ (∃ p, t = State.resetFor p) ∨ (∃ s, t = mcReset s) ∨ ∃ s, t = systemReset s) →
    t.mc.st = .idle ∧ statusWord t = 0 ∧ t.creg.len = 0 ∧ t.creg.src = 0 ∧ t.creg.dst = 0 ∧ ivBlock t.creg = 0 ∧
    keyBlock t.creg = 0 ∧ t.creg.timeout = 0x00100000 ∧ t.creg.blkcnt = 0 ∧
    ∀ off < 0x40, cregValue t off = if off = 0x34 then 0x00100000 else 0

/-- R251, R252: a reset of AES-MC alone abandons a command at once: no `finish`, DONE = 0; BUF, AESU and the accesses already made stay. A
system reset resets AESU too: Fresh, no key, and DATA_IN and DATA_OUT are free values. -/
def Obligations.ResetsAbandonTheCommand : Prop :=
  (∀ s : State, s.turn = .mcReset → ∃ t, step s = .next t ∧ t.mc.st = .idle ∧ t.creg = Creg.reset ∧ t.creg.done = false ∧
    t.buf = s.buf ∧ t.aesu = s.aesu ∧ t.bus = s.bus ∧ t.host = s.host) ∧
  (∀ s : State, s.turn = .systemReset → ∃ t, step s = .next t ∧ t.mc.st = .idle ∧ t.creg = Creg.reset ∧ t.creg.done = false ∧
    t.buf = s.buf ∧ t.bus = s.bus ∧ t.host = s.host ∧ t.aesu.phase = .fresh ∧ t.aesu.key = none ∧
    t.aesu.din = Config.freeResetBlock (s.draws + 1) 0 ∧ t.aesu.dout = Config.freeResetBlock (s.draws + 1) 1)

/-- R253, R198: what MC's dead registers hold is never seen. A step from a state with 0 in them and a step from the state itself end alike
but for dead registers, in every state and for every agent: so no value R250 leaves unspecified, and no register of an earlier command,
reaches CREG, BUF, AESU, the bus or the host. -/
def Obligations.DeadRegistersAreNeverRead : Prop :=
  ∀ s : State, s.dev.ok = true → hideResult (step (hideDead s)) = hideResult (step s)

/-- R266: the bound on a command's MC steps at CHECK, and every MC step of a running command brings it down, while no other agent's step
raises it. -/
def Obligations.EveryMcStepCountsDown : Prop :=
  (∀ s : State, s.mc.st = .check →
    (decodeCmd s.mc.cmd = .loadKey → stepsLeft s = 1 + 2 + s.creg.timeout.toNat) ∧
    (funcOf s ≠ .setKey → stepsLeft s = 1 + (s.creg.len.toNat / 16) * (5 + s.creg.timeout.toNat))) ∧
  (∀ s t : State, Inv s → s.mc.st ≠ .idle → step s = .next t →
    (s.turn = .mc → stepsLeft t < stepsLeft s) ∧ (s.turn = .aesu ∨ s.turn = .host → stepsLeft t = stepsLeft s))

/-- R266: MC cannot hang, whatever AESU does: under any schedule without resets that gives MC as many turns as the bound, the running
command ends. -/
def Obligations.EveryCommandEnds : Prop :=
  ∀ s : State, Inv s → HostInRange s → s.mc.st ≠ .idle → (∀ x ∈ s.sched, x ≠ .mcReset ∧ x ≠ .systemReset) →
    stepsLeft s ≤ s.sched.count .mc →
    ∃ n ≤ s.sched.length, ∃ t, Host.Core.run core n s = .next t ∧ t.mc.st = .idle
end

