-- ==== Sys2Proof/Laws/Blocks.lean ====
section
/-! SUPPORT. Blocks as bytes and words: the laws later proofs cite instead of unfolding. -/

namespace Sys2Proof.Machine

/-- Bit `i` of `block(a, b, c, d)` (R8). -/
theorem getLsbD_ofWords (a b c d : Word) (i : Nat) :
    (blockOfWords a b c d).getLsbD i =
      if i < 32 then a.getLsbD i else if i - 32 < 32 then b.getLsbD (i - 32)
      else if i - 32 - 32 < 32 then c.getLsbD (i - 32 - 32) else d.getLsbD (i - 32 - 32 - 32) := by
  change BitVec.getLsbD (w := 32 + (32 + (32 + 32))) (d ++ (c ++ (b ++ a))) i = _
  simp only [BitVec.getLsbD_append]
  split_ifs <;> first | rfl | omega

/-- Bit `i` of the word made of four bytes (R8). -/
theorem getLsbD_wordOfBytes (a b c d : Byte) (i : Nat) :
    (wordOfBytes a b c d).getLsbD i =
      if i < 8 then a.getLsbD i else if i - 8 < 8 then b.getLsbD (i - 8)
      else if i - 8 - 8 < 8 then c.getLsbD (i - 8 - 8) else d.getLsbD (i - 8 - 8 - 8) := by
  change BitVec.getLsbD (w := 8 + (8 + (8 + 8))) (d ++ (c ++ (b ++ a))) i = _
  simp only [BitVec.getLsbD_append]
  split_ifs <;> first | rfl | omega

@[simp] theorem blockWord_ofWords_0 (a b c d : Word) : blockWord (blockOfWords a b c d) 0 = a := by
  apply BitVec.eq_of_getLsbD_eq
  intro i hi
  simp (disch := omega) only [blockWord, BitVec.getLsbD_extractLsb', getLsbD_ofWords, hi, decide_true, Bool.true_and, if_pos]
  congr 1
  omega

@[simp] theorem blockWord_ofWords_1 (a b c d : Word) : blockWord (blockOfWords a b c d) 1 = b := by
  apply BitVec.eq_of_getLsbD_eq
  intro i hi
  simp (disch := omega) only [blockWord, BitVec.getLsbD_extractLsb', getLsbD_ofWords, hi, decide_true, Bool.true_and, if_pos, if_neg]
  congr 1
  omega

@[simp] theorem blockWord_ofWords_2 (a b c d : Word) : blockWord (blockOfWords a b c d) 2 = c := by
  apply BitVec.eq_of_getLsbD_eq
  intro i hi
  simp (disch := omega) only [blockWord, BitVec.getLsbD_extractLsb', getLsbD_ofWords, hi, decide_true, Bool.true_and, if_pos, if_neg]
  congr 1
  omega

@[simp] theorem blockWord_ofWords_3 (a b c d : Word) : blockWord (blockOfWords a b c d) 3 = d := by
  apply BitVec.eq_of_getLsbD_eq
  intro i hi
  simp (disch := omega) only [blockWord, BitVec.getLsbD_extractLsb', getLsbD_ofWords, hi, decide_true, Bool.true_and, if_neg]
  congr 1
  omega

/-- `block` is the inverse of `word` (R8). -/
@[simp] theorem blockOfWords_words (b : Block) :
    blockOfWords (blockWord b 0) (blockWord b 1) (blockWord b 2) (blockWord b 3) = b := by
  apply BitVec.eq_of_getLsbD_eq
  intro i hi
  simp only [getLsbD_ofWords, blockWord, BitVec.getLsbD_extractLsb']
  split_ifs with h0 h1 h2
  · simp [h0]
  · simp [h1, show 32 + (i - 32) = i by omega]
  · simp [h2, show 64 + (i - 32 - 32) = i by omega]
  · simp [show i - 32 - 32 - 32 < 32 by omega, show 96 + (i - 32 - 32 - 32) = i by omega]

/-- Four lane writes replace the whole block (R65, R132). -/
@[simp] theorem setBlockWord_all (b c : Block) :
    setBlockWord (setBlockWord (setBlockWord (setBlockWord b 0 (blockWord c 0)) 1 (blockWord c 1)) 2 (blockWord c 2)) 3
      (blockWord c 3) = c := by
  simp [setBlockWord]

/-- Two blocks with the same bytes are equal (R8). -/
theorem block_ext {a b : Block} (h : ∀ i < 16, blockByte a i = blockByte b i) : a = b := by
  apply BitVec.eq_of_getLsbD_eq
  intro i hi
  have hb := congrArg (fun v => BitVec.getLsbD v (i % 8)) (h (i / 8) (by omega))
  simpa [blockByte, BitVec.getLsbD_extractLsb', show i % 8 < 8 by omega, show 8 * (i / 8) + i % 8 = i by omega] using hb

/-- Byte `i` of the block made of bytes `f` (R8). -/
theorem blockByte_ofBytes (f : Nat → Byte) {i : Nat} (hi : i < 16) : blockByte (blockOfBytes f) i = f i := by
  apply BitVec.eq_of_getLsbD_eq
  intro k hk
  simp only [blockByte, BitVec.getLsbD_extractLsb', hk, decide_true, Bool.true_and, blockOfBytes, getLsbD_ofWords,
    getLsbD_wordOfBytes]
  interval_cases i <;> simp only [Nat.reduceMul] <;>
    repeat' first
      | rw [if_pos (by omega)]
      | rw [if_neg (by omega)]
  all_goals exact congrArg _ (by omega)

/-- Byte `i` of an exclusive or (R10). -/
theorem blockByte_xor (a b : Block) (i : Nat) : blockByte (xorBlocks a b) i = blockByte a i ^^^ blockByte b i := by
  simp only [blockByte, xorBlocks]
  ext k hk
  simp [BitVec.getElem_extractLsb']

/-- XOR with the same block twice gives the first block back (R10). -/
@[simp] theorem xorBlocks_cancel (a b : Block) : xorBlocks (xorBlocks a b) b = a := by
  simp [xorBlocks]

@[simp] theorem xorBlocks_zero (a : Block) : xorBlocks a 0 = a := by
  simp [xorBlocks]

end Sys2Proof.Machine
end

