-- ==== Sys2Proof/Laws/Memory.lean ====
section
/-! SUPPORT. BUF: a read after a write, and the canonical form, kept by every memory operation. -/

namespace Sys2Proof.Machine

theorem memRead_consCell (m : Mem) (a : Nat) (b : Byte) (c : Nat) (hlow : memRead m a = unlistedByte) :
    memRead (consCell a b m) c = if c = a then b else memRead m c := by
  unfold consCell
  split_ifs with hb hc hc
  · rw [hc, hlow, hb]
  · rfl
  · simp [memRead, hc]
  · simp [memRead, Ne.symm hc]

/-- Below the first address of a canonical list nothing is listed. -/
theorem memRead_below {m : Mem} {lo a : Nat} (h : memWfFrom lo m = true) (ha : a < lo) : memRead m a = unlistedByte := by
  induction m generalizing lo with
  | nil => rfl
  | cons c rest ih =>
    obtain ⟨k, v⟩ := c
    simp only [memWfFrom, Bool.and_eq_true, decide_eq_true_eq] at h
    rw [memRead, if_neg (by omega)]
    exact ih h.2 (by omega)

/-- A read after a write, in a canonical list. -/
theorem memRead_write_from {m : Mem} {lo : Nat} (h : memWfFrom lo m = true) (a : Nat) (b : Byte) (c : Nat) :
    memRead (memWrite m a b) c = if c = a then b else memRead m c := by
  induction m generalizing lo with
  | nil => exact memRead_consCell [] a b c rfl
  | cons cell rest ih =>
    obtain ⟨k, v⟩ := cell
    have hw := h
    simp only [memWfFrom, Bool.and_eq_true, decide_eq_true_eq] at h
    unfold memWrite
    by_cases hlt : a < k
    · rw [if_pos hlt]
      refine memRead_consCell _ a b c ?_
      rw [memRead, if_neg (by omega)]
      exact memRead_below h.2 (by omega)
    rw [if_neg hlt]
    by_cases heq : a = k
    · subst heq
      rw [if_pos rfl, memRead_consCell _ a b c (memRead_below h.2 (by omega))]
      by_cases hc : c = a
      · simp [hc]
      · simp [hc, memRead, Ne.symm hc]
    · rw [if_neg heq, memRead, ih h.2]
      by_cases hk : k = c
      · simp [memRead, hk, show c ≠ a by omega]
      · simp [memRead, hk]

/-- The byte just written is read back, and every other byte reads as before. -/
theorem memRead_write {m : Mem} (h : Mem.wf m = true) (a : Nat) (b : Byte) (c : Nat) :
    memRead (memWrite m a b) c = if c = a then b else memRead m c := memRead_write_from h a b c

theorem memWfFrom_mono {m : Mem} {lo lo' : Nat} (h : memWfFrom lo m = true) (hle : lo' ≤ lo) : memWfFrom lo' m = true := by
  cases m with
  | nil => rfl
  | cons c rest =>
    simp only [memWfFrom, Bool.and_eq_true, decide_eq_true_eq] at h ⊢
    exact ⟨⟨⟨by omega, h.1.1.2⟩, h.1.2⟩, h.2⟩

theorem memWfFrom_consCell {m : Mem} {lo a : Nat} (b : Byte) (hlo : lo ≤ a) (ha : a < 2 ^ 32)
    (h : memWfFrom (a + 1) m = true) : memWfFrom lo (consCell a b m) = true := by
  unfold consCell
  split_ifs with hb
  · exact memWfFrom_mono h (by omega)
  · simp [memWfFrom, hlo, hb, h, show a < 4294967296 from ha]

theorem memWfFrom_write {m : Mem} {lo a : Nat} (b : Byte) (h : memWfFrom lo m = true) (hlo : lo ≤ a) (ha : a < 2 ^ 32) :
    memWfFrom lo (memWrite m a b) = true := by
  induction m generalizing lo with
  | nil => exact memWfFrom_consCell b hlo ha rfl
  | cons cell rest ih =>
    obtain ⟨k, v⟩ := cell
    have hw := h
    simp only [memWfFrom, Bool.and_eq_true, decide_eq_true_eq] at h
    unfold memWrite
    split_ifs with hlt heq
    · refine memWfFrom_consCell b hlo ha ?_
      simp only [memWfFrom, Bool.and_eq_true, decide_eq_true_eq]
      exact ⟨⟨⟨by omega, h.1.1.2⟩, h.1.2⟩, h.2⟩
    · exact memWfFrom_consCell b hlo ha (heq ▸ h.2)
    · simp only [memWfFrom, Bool.and_eq_true, decide_eq_true_eq]
      exact ⟨h.1, ih h.2 (by omega)⟩

/-- A byte write keeps the canonical form. -/
theorem memWrite_wf {m : Mem} {a : Nat} (b : Byte) (h : Mem.wf m = true) (ha : a < 2 ^ 32) : Mem.wf (memWrite m a b) = true :=
  memWfFrom_write b h (Nat.zero_le a) ha

theorem mem_ext_from {m n : Mem} {lo lo' : Nat} (hm : memWfFrom lo m = true) (hn : memWfFrom lo' n = true)
    (h : ∀ a, memRead m a = memRead n a) : m = n := by
  induction m generalizing n lo lo' with
  | nil =>
    cases n with
    | nil => rfl
    | cons c rest =>
      obtain ⟨k, v⟩ := c
      simp only [memWfFrom, Bool.and_eq_true, decide_eq_true_eq] at hn
      have := h k
      simp only [memRead, if_true] at this
      simp [← this] at hn
  | cons c rest ih =>
    obtain ⟨k, v⟩ := c
    have hm' := hm
    simp only [memWfFrom, Bool.and_eq_true, decide_eq_true_eq] at hm
    cases n with
    | nil =>
      have := h k
      simp only [memRead, if_true] at this
      simp [this] at hm
    | cons d rest' =>
      obtain ⟨l, w⟩ := d
      have hn' := hn
      simp only [memWfFrom, Bool.and_eq_true, decide_eq_true_eq] at hn
      have hk := h k
      have hl := h l
      simp only [memRead, if_true] at hk hl
      rcases Nat.lt_trichotomy k l with hkl | hkl | hkl
      · rw [if_neg (by omega), memRead_below hn.2 (by omega)] at hk
        simp [hk] at hm
      · subst hkl
        simp only [if_true] at hk
        subst hk
        congr 1
        refine ih hm.2 hn.2 fun a => ?_
        have ha := h a
        simp only [memRead] at ha
        by_cases hka : k = a
        · subst hka
          rw [memRead_below hm.2 (by omega), memRead_below hn.2 (by omega)]
        · simpa [hka] using ha
      · rw [if_neg (by omega), memRead_below hm.2 (by omega)] at hl
        simp [← hl] at hn

/-- Two memories in canonical form that read the same are equal. -/
theorem mem_ext {m n : Mem} (hm : Mem.wf m = true) (hn : Mem.wf n = true) (h : ∀ a, memRead m a = memRead n a) : m = n :=
  mem_ext_from hm hn h

theorem byteAddress_lt (a : Word) (i : Nat) : byteAddress a i < 2 ^ 32 := (a + BitVec.ofNat 32 i).isLt

/-- The sixteen bytes of a block lie at sixteen addresses. -/
theorem byteAddress_inj {a : Word} {i j : Nat} (hi : i < 16) (hj : j < 16) (h : byteAddress a i = byteAddress a j) : i = j := by
  simp only [byteAddress, BitVec.toNat_add, BitVec.toNat_ofNat] at h
  have := a.isLt
  omega

theorem memWriteBytes_wf {m : Mem} (a : Word) (b : Block) (k : Nat) (h : Mem.wf m = true) :
    Mem.wf (memWriteBytes m a b k) = true := by
  induction k with
  | zero => exact h
  | succ k ih => exact memWrite_wf _ ih (byteAddress_lt a k)

/-- A block write keeps the canonical form. -/
theorem memWriteBlock_wf {m : Mem} (a : Word) (b : Block) (h : Mem.wf m = true) : Mem.wf (memWriteBlock m a b) = true :=
  memWriteBytes_wf a b 16 h

theorem memRead_writeBytes_outside {m : Mem} (h : Mem.wf m = true) (a : Word) (b : Block) (k c : Nat)
    (hc : ∀ i < k, c ≠ byteAddress a i) : memRead (memWriteBytes m a b k) c = memRead m c := by
  induction k with
  | zero => rfl
  | succ k ih =>
    rw [memWriteBytes, memRead_write (memWriteBytes_wf a b k h), if_neg (hc k (by omega))]
    exact ih fun i hi => hc i (by omega)

theorem memRead_writeBytes_inside {m : Mem} (h : Mem.wf m = true) (a : Word) (b : Block) {k i : Nat} (hk : k ≤ 16)
    (hi : i < k) : memRead (memWriteBytes m a b k) (byteAddress a i) = blockByte b i := by
  induction k with
  | zero => omega
  | succ k ih =>
    rw [memWriteBytes, memRead_write (memWriteBytes_wf a b k h)]
    by_cases hik : i = k
    · simp [hik]
    · rw [if_neg fun he => hik (byteAddress_inj (by omega) (by omega) he)]
      exact ih (by omega) (by omega)

/-- After a block write, byte `i` of the block is at `a + i` (R64). -/
theorem memRead_writeBlock_inside {m : Mem} (h : Mem.wf m = true) (a : Word) (b : Block) {i : Nat} (hi : i < 16) :
    memRead (memWriteBlock m a b) (byteAddress a i) = blockByte b i :=
  memRead_writeBytes_inside h a b (Nat.le_refl 16) hi

/-- A block write leaves every byte outside the block alone. -/
theorem memRead_writeBlock_outside {m : Mem} (h : Mem.wf m = true) (a : Word) (b : Block) (c : Nat)
    (hc : ∀ i < 16, c ≠ byteAddress a i) : memRead (memWriteBlock m a b) c = memRead m c :=
  memRead_writeBytes_outside h a b 16 c hc

/-- Byte `i` of the block read at `a` is the byte at `a + i` (R64). -/
theorem blockByte_readBlock (m : Mem) (a : Word) {i : Nat} (hi : i < 16) :
    blockByte (memReadBlock m a) i = memRead m (byteAddress a i) := blockByte_ofBytes _ hi

/-- A block written is read back. -/
theorem memReadBlock_writeBlock {m : Mem} (h : Mem.wf m = true) (a : Word) (b : Block) :
    memReadBlock (memWriteBlock m a b) a = b :=
  block_ext fun i hi => by rw [blockByte_readBlock _ _ hi, memRead_writeBlock_inside h a b hi]

end Sys2Proof.Machine
end

