-- ==== Sys2Proof/Laws/Buffer.lean ====
section
/-! SUPPORT. BUF as MC and the host share it: what a store leaves alone, the canonical form, and plain memory where nothing races. -/

namespace Sys2Proof.Machine

@[simp] theorem seenByte_nil (now : Byte) (n : Nat) : seenByte now [] n = now := rfl

@[simp] theorem raceValues_nil (a : Nat) : raceValues [] a = [] := rfl

@[simp] theorem raced_nil (a : Nat) : raced [] a = false := rfl

/-- The byte seen is the one BUF holds or one a race has left (R75). -/
theorem seenByte_mem (now : Byte) (others : List Byte) (n : Nat) : seenByte now others n ∈ now :: others := by
  cases others with
  | nil => simp
  | cons v rest =>
    have hlt : n % ((v :: rest).length + 1) < (now :: v :: rest).length := Nat.mod_lt _ (by simp)
    have : seenByte now (v :: rest) n = (now :: v :: rest)[n % ((v :: rest).length + 1)] := by
      simp only [seenByte, List.getD_eq_getElem?_getD, List.getElem?_eq_getElem hlt, Option.getD_some]
    rw [this]
    exact List.getElem_mem hlt

/-- With no host write open, MC reads what BUF holds (R64). -/
theorem mcLoadBlock_quiet {s : State} (h : s.hostRace = []) (a : Word) : mcLoadBlock a s = memReadBlock s.buf a := by
  have : mcLoadByte s a = fun i => memRead s.buf (byteAddress a i) := by
    funext i
    simp [mcLoadByte, h]
  rw [mcLoadBlock, this, memReadBlock]

/-- Every byte of the block MC reads is the one BUF holds or one a race has left (R75). -/
theorem mcLoadBlock_byte (s : State) (a : Word) {i : Nat} (hi : i < 16) :
    blockByte (mcLoadBlock a s) i ∈
      memRead s.buf (byteAddress a i) :: raceValues s.hostRace (byteAddress a i) := by
  rw [mcLoadBlock, blockByte_ofBytes _ hi]
  exact seenByte_mem _ _ _

section
variable (a : Word) (b : Block) (s : State)

theorem mcStoreBytes_frame (k : Nat) :
    (mcStoreBytes a b k s).creg = s.creg ∧ (mcStoreBytes a b k s).mc = s.mc ∧ (mcStoreBytes a b k s).aesu = s.aesu ∧
    (mcStoreBytes a b k s).host = s.host ∧ (mcStoreBytes a b k s).sched = s.sched ∧ (mcStoreBytes a b k s).draws = s.draws ∧
    (mcStoreBytes a b k s).bus = s.bus ∧ (mcStoreBytes a b k s).dev = s.dev := by
  induction k with
  | zero => simp [mcStoreBytes]
  | succ k ih => simpa [mcStoreBytes, mcStoreByte] using ih

theorem mcStoreBlock_eq : mcStoreBlock a b s =
    { mcStoreBytes a b 16 s with bus := .bufWrite a b :: (mcStoreBytes a b 16 s).bus } := rfl

@[simp] theorem mcStoreBlock_creg : (mcStoreBlock a b s).creg = s.creg := by
  rw [mcStoreBlock_eq, (mcStoreBytes_frame a b s 16).1]
@[simp] theorem mcStoreBlock_mc : (mcStoreBlock a b s).mc = s.mc := by
  rw [mcStoreBlock_eq, (mcStoreBytes_frame a b s 16).2.1]
@[simp] theorem mcStoreBlock_aesu : (mcStoreBlock a b s).aesu = s.aesu := by
  rw [mcStoreBlock_eq, (mcStoreBytes_frame a b s 16).2.2.1]
@[simp] theorem mcStoreBlock_host : (mcStoreBlock a b s).host = s.host := by
  rw [mcStoreBlock_eq, (mcStoreBytes_frame a b s 16).2.2.2.1]
@[simp] theorem mcStoreBlock_sched : (mcStoreBlock a b s).sched = s.sched := by
  rw [mcStoreBlock_eq, (mcStoreBytes_frame a b s 16).2.2.2.2.1]
@[simp] theorem mcStoreBlock_draws : (mcStoreBlock a b s).draws = s.draws := by
  rw [mcStoreBlock_eq, (mcStoreBytes_frame a b s 16).2.2.2.2.2.1]
@[simp] theorem mcStoreBlock_bus : (mcStoreBlock a b s).bus = .bufWrite a b :: s.bus := by
  rw [mcStoreBlock_eq, (mcStoreBytes_frame a b s 16).2.2.2.2.2.2.1]
@[simp] theorem mcStoreBlock_dev : (mcStoreBlock a b s).dev = s.dev := by
  rw [mcStoreBlock_eq, (mcStoreBytes_frame a b s 16).2.2.2.2.2.2.2]
theorem mcStoreBlock_buf : (mcStoreBlock a b s).buf = (mcStoreBytes a b 16 s).buf := by rw [mcStoreBlock_eq]
theorem mcStoreBlock_hostRace : (mcStoreBlock a b s).hostRace = (mcStoreBytes a b 16 s).hostRace := by
  unfold mcStoreBlock
  generalize mcStoreBytes a b 16 s = u
  rfl

end

theorem mcStoreBytes_wf {s : State} (a : Word) (b : Block) (k : Nat) (h : Mem.wf s.buf = true) :
    Mem.wf (mcStoreBytes a b k s).buf = true := by
  induction k with
  | zero => exact h
  | succ k ih =>
    simp only [mcStoreBytes, mcStoreByte]
    split_ifs
    · exact ih
    · exact memWrite_wf _ ih (byteAddress_lt a k)

/-- MC's block write keeps the canonical form. -/
theorem mcStoreBlock_wf {s : State} (a : Word) (b : Block) (h : Mem.wf s.buf = true) :
    Mem.wf (mcStoreBlock a b s).buf = true := by
  rw [mcStoreBlock_buf]
  exact mcStoreBytes_wf a b 16 h

theorem mcStoreBytes_quiet {s : State} (h : s.hostRace = []) (a : Word) (b : Block) (k : Nat) :
    (mcStoreBytes a b k s).buf = memWriteBytes s.buf a b k ∧ (mcStoreBytes a b k s).hostRace = [] := by
  induction k with
  | zero => exact ⟨rfl, h⟩
  | succ k ih => simp [mcStoreBytes, mcStoreByte, memWriteBytes, ih]

/-- With no host write open, MC's block write is the plain one (R64). -/
theorem mcStoreBlock_quiet {s : State} (h : s.hostRace = []) (a : Word) (b : Block) :
    (mcStoreBlock a b s).buf = memWriteBlock s.buf a b := by
  rw [mcStoreBlock_buf, memWriteBlock, (mcStoreBytes_quiet h a b 16).1]

/-- With no host write open, none is open after MC's block write. -/
theorem mcStoreBlock_hostRace_nil {s : State} (h : s.hostRace = []) (a : Word) (b : Block) : (mcStoreBlock a b s).hostRace = [] := by
  rw [mcStoreBlock_hostRace, (mcStoreBytes_quiet h a b 16).2]

/-- MC's block write leaves every byte outside the block alone, whatever races. -/
theorem mcStoreBlock_outside {s : State} (h : Mem.wf s.buf = true) (a : Word) (b : Block) (c : Nat)
    (hc : ∀ i < 16, c ≠ byteAddress a i) : memRead (mcStoreBlock a b s).buf c = memRead s.buf c := by
  have key : ∀ k ≤ 16, memRead (mcStoreBytes a b k s).buf c = memRead s.buf c := by
    intro k
    induction k with
    | zero => intro _; rfl
    | succ k ih =>
      intro hk
      simp only [mcStoreBytes, mcStoreByte]
      split_ifs
      · exact ih (by omega)
      · rw [memRead_write (mcStoreBytes_wf a b k h), if_neg (hc k (by omega))]
        exact ih (by omega)
  rw [mcStoreBlock_buf]
  exact key 16 (Nat.le_refl 16)

theorem raceValues_cons (c : Host.Cell) (race : List Host.Cell) (a : Nat) :
    raceValues (c :: race) a = if c.1 = a then c.2 :: raceValues race a else raceValues race a := by
  by_cases h : c.1 = a <;> simp [raceValues, h]

/-- Dropping the oldest entry of one address leaves the values of every other address. -/
theorem raceValues_dropOldest (race : List Host.Cell) {a c : Nat} (h : c ≠ a) : raceValues (dropOldest race a) c = raceValues race c := by
  induction race with
  | nil => rfl
  | cons e rest ih =>
    unfold dropOldest
    split_ifs with he
    · rw [raceValues_cons, if_neg (by rw [he.1]; exact h.symm)]
    · rw [raceValues_cons, raceValues_cons, ih]

theorem raced_cons (e : Host.Cell) (race : List Host.Cell) (c : Nat) : raced (e :: race) c = (e.1 == c || raced race c) := rfl

theorem raced_dropOldest (race : List Host.Cell) {a c : Nat} (h : c ≠ a) : raced (dropOldest race a) c = raced race c := by
  induction race with
  | nil => rfl
  | cons e rest ih =>
    unfold dropOldest
    split_ifs with he
    · simp [raced_cons, he.1, Ne.symm h]
    · rw [raced_cons, raced_cons, ih]

/-- What MC's store of one byte leaves alone at every other address. -/
theorem mcStoreByte_other {s : State} (h : Mem.wf s.buf = true) (a : Word) (b : Block) (i : Nat) {c : Nat} (hc : c ≠ byteAddress a i) :
    memRead (mcStoreByte a b i s).buf c = memRead s.buf c ∧ raced (mcStoreByte a b i s).hostRace c = raced s.hostRace c ∧
      raceValues (mcStoreByte a b i s).hostRace c = raceValues s.hostRace c := by
  have hbuf : memRead (mcStoreByte a b i s).buf c = memRead s.buf c := by
    simp only [mcStoreByte]
    split_ifs
    · rfl
    · rw [memRead_write h, if_neg hc]
  cases hr : raced s.hostRace (byteAddress a i) with
  | false => exact ⟨hbuf, by simp [mcStoreByte, hr], by simp [mcStoreByte, hr]⟩
  | true =>
    refine ⟨hbuf, ?_, ?_⟩ <;> simp only [mcStoreByte, hr, Bool.true_and, if_true]
    · rw [raced_cons, raced_dropOldest _ hc]
      simp [Ne.symm hc]
    · rw [raceValues_cons, if_neg (Ne.symm hc), raceValues_dropOldest _ hc]

/-- What MC's store of one byte does at its own address: with no host write open the byte is stored; otherwise the byte stored and the
byte that was there are both open to MC's later reads (R75, R165). -/
theorem mcStoreByte_own {s : State} (h : Mem.wf s.buf = true) (a : Word) (b : Block) (i : Nat) :
    let c := byteAddress a i
    let t := mcStoreByte a b i s
    (raced s.hostRace c = false → memRead t.buf c = blockByte b i ∧ raceValues t.hostRace c = raceValues s.hostRace c) ∧
    (raced s.hostRace c = true → (memRead t.buf c = blockByte b i ∧ memRead s.buf c ∈ raceValues t.hostRace c) ∨
      (memRead t.buf c = memRead s.buf c ∧ blockByte b i ∈ raceValues t.hostRace c)) := by
  intro c t
  refine ⟨fun hr => ?_, fun hr => ?_⟩
  · simp only [t, c, mcStoreByte] at hr ⊢
    simp [hr, memRead_write h]
  · simp only [t, c, mcStoreByte] at hr ⊢
    simp only [hr, Bool.true_and, if_true]
    cases Config.freeRaceLost s.draws i
    · exact .inl ⟨by simp [memRead_write h], by simp [raceValues_cons]⟩
    · exact .inr ⟨rfl, by simp [raceValues_cons]⟩

/-- MC's store of a block, at the address `c`: outside the block nothing changes; byte `i` is stored as `mcStoreByte_own` says. -/
theorem mcStoreBytes_at {s : State} (h : Mem.wf s.buf = true) (a : Word) (b : Block) {k : Nat} (hk : k ≤ 16) :
    let t := mcStoreBytes a b k s
    (∀ c, (∀ i < k, c ≠ byteAddress a i) →
      memRead t.buf c = memRead s.buf c ∧ raced t.hostRace c = raced s.hostRace c ∧ raceValues t.hostRace c = raceValues s.hostRace c) ∧
    (∀ i < k, let c := byteAddress a i
      (raced s.hostRace c = false → memRead t.buf c = blockByte b i ∧ raceValues t.hostRace c = raceValues s.hostRace c) ∧
      (raced s.hostRace c = true → (memRead t.buf c = blockByte b i ∧ memRead s.buf c ∈ raceValues t.hostRace c) ∨
        (memRead t.buf c = memRead s.buf c ∧ blockByte b i ∈ raceValues t.hostRace c))) := by
  induction k with
  | zero => exact ⟨fun _ _ => ⟨rfl, rfl, rfl⟩, fun i hi => absurd hi (Nat.not_lt_zero i)⟩
  | succ k ih =>
    obtain ⟨h1, h2⟩ := ih (by omega)
    have hw := mcStoreBytes_wf (s := s) a b k h
    refine ⟨fun c hc => ?_, fun i hi => ?_⟩
    · obtain ⟨e1, e2, e3⟩ := mcStoreByte_other hw a b k (hc k (by omega))
      obtain ⟨f1, f2, f3⟩ := h1 c fun i hi => hc i (by omega)
      exact ⟨e1.trans f1, e2.trans f2, e3.trans f3⟩
    · by_cases hik : i = k
      · subst hik
        obtain ⟨f1, f2, f3⟩ := h1 (byteAddress a i) fun j hj he => by
          have := byteAddress_inj (by omega) (by omega) he
          omega
        have := mcStoreByte_own hw a b i
        simp only [f1, f2, f3] at this
        exact this
      · obtain ⟨e1, -, e3⟩ := mcStoreByte_other hw a b k (c := byteAddress a i) fun he => hik (byteAddress_inj (by omega) (by omega) he)
        have := h2 i (by omega)
        simp only [mcStoreBytes, e1, e3]
        exact this

theorem raced_iff (race : List Host.Cell) (c : Nat) : raced race c = true ↔ raceValues race c ≠ [] := by
  induction race with
  | nil => simp
  | cons e rest ih =>
    rw [raced_cons, raceValues_cons]
    by_cases h : e.1 = c <;> simp [h, ih]

/-- What MC's write of a block does, byte by byte, in the terms of the values the races have left (R64, R75): nothing outside the block;
where no host write is open the byte is stored and none is open after; elsewhere the byte stored and the one that was there are both
open to MC's later reads. -/
theorem mcStoreBlock_at {s : State} (h : Mem.wf s.buf = true) (a : Word) (b : Block) :
    (∀ c, (∀ i < 16, c ≠ byteAddress a i) →
      memRead (mcStoreBlock a b s).buf c = memRead s.buf c ∧
        raceValues (mcStoreBlock a b s).hostRace c = raceValues s.hostRace c) ∧
    (∀ i < 16,
      (raceValues s.hostRace (byteAddress a i) = [] →
        memRead (mcStoreBlock a b s).buf (byteAddress a i) = blockByte b i ∧
          raceValues (mcStoreBlock a b s).hostRace (byteAddress a i) = []) ∧
      (raceValues s.hostRace (byteAddress a i) ≠ [] →
        (memRead (mcStoreBlock a b s).buf (byteAddress a i) = blockByte b i ∧
          memRead s.buf (byteAddress a i) ∈ raceValues (mcStoreBlock a b s).hostRace (byteAddress a i)) ∨
        (memRead (mcStoreBlock a b s).buf (byteAddress a i) = memRead s.buf (byteAddress a i) ∧
          blockByte b i ∈ raceValues (mcStoreBlock a b s).hostRace (byteAddress a i)))) := by
  have key := mcStoreBytes_at h a b (Nat.le_refl 16)
  rw [mcStoreBlock_buf, mcStoreBlock_hostRace]
  generalize mcStoreBytes a b 16 s = u at key ⊢
  obtain ⟨h1, h2⟩ := key
  refine ⟨fun c hc => ⟨(h1 c hc).1, (h1 c hc).2.2⟩, fun i hi => ⟨fun hn => ?_, fun hn => (h2 i hi).2 ((raced_iff _ _).2 hn)⟩⟩
  have := (h2 i hi).1 (by rw [← Bool.not_eq_true, raced_iff]; simpa using hn)
  exact ⟨this.1, this.2.trans hn⟩

/-- A host write of a byte keeps the canonical form. -/
theorem hostStoreByte_wf {s : State} (a : Word) (b : Byte) (h : Mem.wf s.buf = true) :
    Mem.wf (hostStoreByte a b s).buf = true := by
  unfold hostStoreByte
  dsimp only
  split_ifs
  · exact h
  · exact memWrite_wf _ h a.isLt

end Sys2Proof.Machine
end

