-- ==== Sys2Proof/Laws/Decode.lean ====
section
/-! SUPPORT. The fields of a command word, and the FUNC and MODE of the instruction a word decodes to. -/

namespace Sys2Proof

@[simp] theorem funcOfBits_funcBits (f : Func) : funcOfBits (funcBits f) = f := by cases f <;> decide

@[simp] theorem modeOfBit_modeBit (m : Mode) : modeOfBit (modeBit m) = m := by cases m <;> decide

@[simp] theorem funcBits_funcOfBits (b : BitVec 2) : funcBits (funcOfBits b) = b := by revert b; decide

@[simp] theorem modeBit_modeOfBit (b : BitVec 1) : modeBit (modeOfBit b) = b := by revert b; decide

/-- Bit `i` of a command word built from its fields (R91). -/
theorem getLsbD_cmdWord (f : Func) (m : Mode) (r : BitVec 29) (i : Nat) :
    (cmdWord f m r).getLsbD i =
      if i < 2 then (funcBits f).getLsbD i else if i - 2 < 1 then (modeBit m).getLsbD (i - 2) else r.getLsbD (i - 3) := by
  change BitVec.getLsbD (w := 29 + 1 + 2) (r ++ modeBit m ++ funcBits f) i = _
  simp only [BitVec.getLsbD_append]
  split_ifs <;> rfl

@[simp] theorem cmdFunc_cmdWord (f : Func) (m : Mode) (r : BitVec 29) : cmdFunc (cmdWord f m r) = f := by
  have : (cmdWord f m r).extractLsb' 0 2 = funcBits f := by
    apply BitVec.eq_of_getLsbD_eq
    intro i hi
    simp [getLsbD_cmdWord, hi]
  rw [cmdFunc, this, funcOfBits_funcBits]

@[simp] theorem cmdMode_cmdWord (f : Func) (m : Mode) (r : BitVec 29) : cmdMode (cmdWord f m r) = m := by
  have : (cmdWord f m r).extractLsb' 2 1 = modeBit m := by
    apply BitVec.eq_of_getLsbD_eq
    intro i hi
    rw [BitVec.getLsbD_extractLsb', getLsbD_cmdWord, if_neg (by omega), if_pos (by omega), Nat.add_sub_cancel_left]
    simp [hi]
  rw [cmdMode, this, modeOfBit_modeBit]

@[simp] theorem cmdRsvd_cmdWord (f : Func) (m : Mode) (r : BitVec 29) : cmdRsvd (cmdWord f m r) = r := by
  apply BitVec.eq_of_getLsbD_eq
  intro i hi
  simp [cmdRsvd, getLsbD_cmdWord, hi, show ¬ 3 + i < 2 by omega, show ¬ 3 + i - 2 < 1 by omega]

/-- A command word is its three fields (R91). -/
theorem cmdWord_fields (w : Word) : cmdWord (cmdFunc w) (cmdMode w) (cmdRsvd w) = w := by
  apply BitVec.eq_of_getLsbD_eq
  intro i hi
  simp only [getLsbD_cmdWord, cmdFunc, cmdMode, cmdRsvd, funcBits_funcOfBits, modeBit_modeOfBit, BitVec.getLsbD_extractLsb']
  split_ifs with h0 h1
  · simp [h0]
  · simp [show i = 2 by omega]
  · simp [show i - 3 < 29 by omega, show 3 + (i - 3) = i by omega]

/-- The FUNC field an instruction's command word has; a device opcode has none. -/
def Instr.func : Instr → Option Func
  | .ecbEnc | .cbcEnc => some .enc
  | .ecbDec | .cbcDec => some .dec
  | .loadKey => some .setKey
  | .illegalFunc3 _ _ => some .reserved
  | .illegalSetKeyMode1 _ => some .setKey
  | .illegalRsvd f _ _ => some f
  | .encrypt | .decrypt | .setKey => none

/-- The MODE field an instruction's command word has; a device opcode has none. -/
def Instr.mode : Instr → Option Mode
  | .ecbEnc | .ecbDec | .loadKey => some .ecb
  | .cbcEnc | .cbcDec => some .cbc
  | .illegalFunc3 m _ => some m
  | .illegalSetKeyMode1 _ => some .cbc
  | .illegalRsvd _ m _ => some m
  | .encrypt | .decrypt | .setKey => none

/-- A command decodes to an instruction with its own FUNC and MODE. -/
theorem decodeCmd_fields (w : Word) : (decodeCmd w).func = some (cmdFunc w) ∧ (decodeCmd w).mode = some (cmdMode w) := by
  unfold decodeCmd
  cases hf : cmdFunc w <;> cases hm : cmdMode w <;> dsimp only <;> (try split_ifs) <;> exact ⟨rfl, rfl⟩

/-- The five legal words are the five that decode to a command with RSVD = 0 (R95). -/
theorem legalWord_cases {w : Word} (h : Safety.legalWord w = true) :
    decodeCmd w = .ecbEnc ∨ decodeCmd w = .ecbDec ∨ decodeCmd w = .loadKey ∨ decodeCmd w = .cbcEnc ∨ decodeCmd w = .cbcDec := by
  unfold Safety.legalWord at h
  have hd : (decodeCmd w).format = .cmd := by
    unfold decodeCmd
    cases cmdFunc w <;> cases cmdMode w <;> dsimp only <;> (try split_ifs) <;> rfl
  cases hi : decodeCmd w <;> simp [hi, Instr.format] at h hd ⊢

end Sys2Proof
end

