-- ==== Sys2Proof/Laws/Device.lean ====
section
/-! SUPPORT. The AESU window: what each access of MC does, for every layout that meets R6. -/

namespace Sys2Proof.Machine

/-- The facts of R6 that the accesses need, as arithmetic. -/
theorem DevParams.ok_facts {p : DevParams} (h : p.ok = true) :
    (p.opcEncrypt ≠ p.opcDecrypt ∧ p.opcEncrypt ≠ p.opcSetKey ∧ p.opcDecrypt ≠ p.opcSetKey) ∧
    (p.dinOff + 16 ≤ p.ctrlOff ∨ p.ctrlOff + 4 ≤ p.dinOff) ∧ (p.doutOff + 16 ≤ p.statOff ∨ p.statOff + 4 ≤ p.doutOff) := by
  simp only [DevParams.ok, rangesApart, Bool.and_eq_true, Bool.or_eq_true, bne_iff_ne, decide_eq_true_eq] at h
  tauto

theorem configDev_ok : Config.dev.ok = true := by decide

/-- `decodeControl` reads back each opcode (R97, R133). -/
theorem decodeControl_opc {p : DevParams} (h : p.ok = true) (op : DevOp) : decodeControl p (p.opc op) = .ok op := by
  obtain ⟨⟨h1, h2, h3⟩, -⟩ := DevParams.ok_facts h
  cases op <;> simp [decodeControl, DevParams.opc, h1.symm, h2.symm, h3.symm]

/-- AESU after `DevWriteBlock(DIN_OFF, b)` at draw `n`: DATA_IN is `b`, or AESU is wedged (R132, R138). -/
def aesuWriteBlock (a : Aesu) (n : Nat) (b : Block) : Aesu :=
  match a.phase with
  | .fresh | .ready => { a with din := b }
  | .busy _ => aesuWedge a n
  | .wedged => a

theorem aesuWrite_din {p : DevParams} (h : p.ok = true) (a : Aesu) (n : Nat) (w : Word) (j : Nat) (hj : j < 4) :
    aesuWrite p a n (p.dinOff + 4 * j) w = .ok (aesuWriteDin a n j w) := by
  obtain ⟨-, h1, -⟩ := DevParams.ok_facts h
  have hl : laneOf p.dinOff (p.dinOff + 4 * j) = some j := by interval_cases j <;> simp [laneOf]
  rw [aesuWrite, if_neg (by omega), hl]

theorem aesuWrite_ctrl (p : DevParams) (a : Aesu) (n : Nat) (w : Word) :
    aesuWrite p a n p.ctrlOff w = .ok (aesuWriteControl p a n w) := by simp [aesuWrite]

theorem aesuRead_stat (p : DevParams) (a : Aesu) (n : Nat) : aesuRead p a n p.statOff = .ok (aesuStatus a n) := by
  simp [aesuRead]

theorem aesuRead_dout {p : DevParams} (h : p.ok = true) (a : Aesu) (n j : Nat) (hj : j < 4) :
    aesuRead p a n (p.doutOff + 4 * j) = .ok (aesuDataOut a n j) := by
  obtain ⟨-, -, h1⟩ := DevParams.ok_facts h
  have hl : laneOf p.doutOff (p.doutOff + 4 * j) = some j := by interval_cases j <;> simp [laneOf]
  rw [aesuRead, if_neg (by omega), hl]

/-- Four lane writes of DATA_IN are one block write (R65, R70, R132). -/
theorem aesuWriteDin_all (a : Aesu) (n : Nat) (b : Block) :
    aesuWriteDin (aesuWriteDin (aesuWriteDin (aesuWriteDin a n 0 (blockWord b 0)) n 1 (blockWord b 1)) n 2 (blockWord b 2)) n 3
      (blockWord b 3) = aesuWriteBlock a n b := by
  obtain ⟨din, dout, key, phase⟩ := a
  cases phase <;> simp [aesuWriteDin, aesuWriteBlock, aesuWedge]

/-- The four accesses of WRDIN, newest first (R120, R121). -/
def wrdinEvents (p : DevParams) (b : Block) : List BusEvent :=
  [.devWrite (p.dinOff + 12) (blockWord b 3), .devWrite (p.dinOff + 8) (blockWord b 2),
    .devWrite (p.dinOff + 4) (blockWord b 1), .devWrite p.dinOff (blockWord b 0)]

theorem devWriteBlock_din {s : State} (h : s.dev.ok = true) (b : Block) :
    devWriteBlock s.dev.dinOff b s =
      .ok { s with aesu := aesuWriteBlock s.aesu s.draws b, bus := wrdinEvents s.dev b ++ s.bus } := by
  have e0 := fun a n w => aesuWrite_din h a n w 0 (by omega)
  have e1 := fun a n w => aesuWrite_din h a n w 1 (by omega)
  have e2 := fun a n w => aesuWrite_din h a n w 2 (by omega)
  have e3 := fun a n w => aesuWrite_din h a n w 3 (by omega)
  simp only [Nat.mul_zero, Nat.add_zero, Nat.mul_one, Nat.reduceMul] at e0 e1 e2 e3
  simp only [devWriteBlock, devWrite32, e0, e1, e2, e3, aesuWriteDin_all, wrdinEvents, List.cons_append, List.nil_append]

theorem devWrite32_ctrl (w : Word) (s : State) :
    devWrite32 s.dev.ctrlOff w s =
      .ok { s with aesu := aesuWriteControl s.dev s.aesu s.draws w, bus := .devWrite s.dev.ctrlOff w :: s.bus } := by
  simp [devWrite32, aesuWrite_ctrl]

theorem devRead32_stat (s : State) :
    devRead32 s.dev.statOff s =
      .ok (aesuStatus s.aesu s.draws, { s with bus := .devRead s.dev.statOff (aesuStatus s.aesu s.draws) :: s.bus }) := by
  simp [devRead32, aesuRead_stat]

/-- The block a DATA_OUT read at draw `n` returns (R124, R136). -/
def aesuOutBlock (a : Aesu) (n : Nat) : Block :=
  blockOfWords (aesuDataOut a n 0) (aesuDataOut a n 1) (aesuDataOut a n 2) (aesuDataOut a n 3)

/-- In phase Ready it is DATA_OUT (R136). -/
theorem aesuOutBlock_ready {a : Aesu} (h : a.phase = .ready) (n : Nat) : aesuOutBlock a n = a.dout := by
  simp [aesuOutBlock, aesuDataOut, h]

/-- The four accesses of RDOUT, newest first (R120, R124). -/
def rdoutEvents (p : DevParams) (a : Aesu) (n : Nat) : List BusEvent :=
  [.devRead (p.doutOff + 12) (aesuDataOut a n 3), .devRead (p.doutOff + 8) (aesuDataOut a n 2),
    .devRead (p.doutOff + 4) (aesuDataOut a n 1), .devRead p.doutOff (aesuDataOut a n 0)]

theorem devReadBlock_dout {s : State} (h : s.dev.ok = true) :
    devReadBlock s.dev.doutOff s =
      .ok (aesuOutBlock s.aesu s.draws, { s with bus := rdoutEvents s.dev s.aesu s.draws ++ s.bus }) := by
  have e0 := fun a n => aesuRead_dout h a n 0 (by omega)
  have e1 := fun a n => aesuRead_dout h a n 1 (by omega)
  have e2 := fun a n => aesuRead_dout h a n 2 (by omega)
  have e3 := fun a n => aesuRead_dout h a n 3 (by omega)
  simp only [Nat.mul_zero, Nat.add_zero, Nat.mul_one, Nat.reduceMul] at e0 e1 e2 e3
  simp only [devReadBlock, devRead32, e0, e1, e2, e3, aesuOutBlock, rdoutEvents, List.cons_append, List.nil_append]

/-- WRDIN always goes on to TRIG (R121, R199). -/
theorem wrdinStep_eq {s : State} (h : s.dev.ok = true) :
    wrdinStep s = .next { s with
      aesu := aesuWriteBlock s.aesu s.draws s.mc.xblk, bus := wrdinEvents s.dev s.mc.xblk ++ s.bus, mc := { s.mc with st := .trig } } := by
  simp [wrdinStep, devWriteBlock_din h, goto]

/-- AESU after its CONTROL is written with the opcode of `op` at draw `n` (R133, R138). -/
def aesuTrigger (a : Aesu) (n : Nat) (op : DevOp) : Aesu :=
  match a.phase with
  | .fresh | .ready => { a with phase := .busy op }
  | .busy _ => aesuWedge a n
  | .wedged => a

theorem aesuWriteControl_opc {p : DevParams} (h : p.ok = true) (a : Aesu) (n : Nat) (op : DevOp) :
    aesuWriteControl p a n (p.opc op) = aesuTrigger a n op := by
  obtain ⟨din, dout, key, phase⟩ := a
  cases phase <;> simp [aesuWriteControl, aesuTrigger, decodeControl_opc h]

/-- TRIG always goes on to POLL, for a command with a device operation (R122, R199). -/
theorem trigStep_eq {s : State} (h : s.dev.ok = true) {func : Func} {op : DevOp} (hop : devOpOf func = some op) :
    trigStep func s = .next { s with
      aesu := aesuTrigger s.aesu s.draws op, bus := .devWrite s.dev.ctrlOff (s.dev.opc op) :: s.bus
      mc := { s.mc with pcnt := 0, st := .poll } } := by
  simp [trigStep, hop, devWrite32_ctrl, aesuWriteControl_opc h]

/-- POLL takes one fresh STATUS read and acts on it (R123). -/
theorem pollStep_eq (func : Func) (s : State) :
    pollStep func s = .next (pollAnswer func (aesuStatus s.aesu s.draws)
      { s with bus := .devRead s.dev.statOff (aesuStatus s.aesu s.draws) :: s.bus }) := by
  simp [pollStep, devRead32_stat]

/-- RDOUT always goes on to WBACK (R124, R199). -/
theorem rdoutStep_eq {s : State} (h : s.dev.ok = true) :
    rdoutStep s = .next { s with
      bus := rdoutEvents s.dev s.aesu s.draws ++ s.bus
      mc := { s.mc with yblk := aesuOutBlock s.aesu s.draws, st := .wback } } := by
  simp [rdoutStep, devReadBlock_dout h]

theorem readyStatus_ne_zero (w : Word) : readyStatus w ≠ 0 := by
  unfold readyStatus
  split_ifs with h
  · decide
  · exact h

/-- In phase Ready STATUS is nonzero (R135). -/
theorem aesuStatus_ready {a : Aesu} (h : a.phase = .ready) (n : Nat) : aesuStatus a n ≠ 0 := by
  rw [aesuStatus, h]
  exact readyStatus_ne_zero _

/-- In phase Busy STATUS is 0 (R135). -/
theorem aesuStatus_busy {a : Aesu} {op : DevOp} (h : a.phase = .busy op) (n : Nat) : aesuStatus a n = 0 := by
  simp [aesuStatus, h]

end Sys2Proof.Machine
end

