-- ==== Sys2Proof/Laws/HostPort.lean ====
section
/-! SUPPORT. Small laws of the host port. -/

namespace Sys2Proof.Machine

/-- An offset lies beyond CREG from 0x40 on (R30). -/
theorem outsideCreg_iff (off : Nat) : outsideCreg off = true ↔ 0x40 ≤ off := decide_eq_true_iff

theorem outsideCreg_false {off : Nat} (h : off < 0x40) : outsideCreg off = false :=
  decide_eq_false (Nat.not_le.2 h)

/-- A host access to CREG that is an aligned word is accepted (R34). -/
@[simp] theorem cregAccepts_word {off : Nat} (h : off % 4 = 0) : cregAccepts off .word = true := by
  simp [cregAccepts, h]

/-- What a host step can do to AES-MC and BUF (R31 to R34, R63). -/
inductive HostMove (s t : State) : Prop where
  /-- A read, a check, a write CREG ignores, or no line at all. -/
  | quiet (creg : t.creg = s.creg) (mc : t.mc = s.mc) (buf : t.buf = s.buf) (race : t.hostRace = s.hostRace)
      (line : ∀ a b rest, s.host.prog ≠ .bufWrite a b :: rest)
  /-- A byte of BUF. -/
  | store (a : Word) (b : Byte) (rest : List HostLine) (line : s.host.prog = .bufWrite a b :: rest)
      (buf : t.buf = (hostStoreByte a b s).buf) (creg : t.creg = s.creg) (mc : t.mc = s.mc)
      (race : t.hostRace = (hostStoreByte a b s).hostRace)
  /-- A CREG write dropped because BUSY = 1 (R33). -/
  | dropped (busy : s.mc.st ≠ .idle) (creg : t.creg = { s.creg with ovr := true }) (mc : t.mc = s.mc) (buf : t.buf = s.buf)
      (race : t.hostRace = s.hostRace) (line : ∀ a b rest, s.host.prog ≠ .bufWrite a b :: rest)
  /-- A CREG write while BUSY = 0 (R32). -/
  | register (off : Nat) (w : Word) (rest : List HostLine) (line : s.host.prog = .cregWrite off .word w :: rest)
      (idle : s.mc.st = .idle) (creg : t.creg = cregStore off w s.creg) (mc : t.mc = s.mc) (buf : t.buf = s.buf)
      (race : t.hostRace = s.hostRace)
  /-- An acceptance (R181). -/
  | accepted (w : Word) (idle : s.mc.st = .idle)
      (creg : t.creg = { s.creg with done := false, err := .none, ovr := false, blkcnt := 0 })
      (mc : t.mc = { s.mc with cmd := w, st := .check }) (buf : t.buf = s.buf)

/-- A host step, when it answers a next state: AESU, the schedule, the draw counter and the bus log stay; the host's remaining lines are
among the ones it had; and one of the moves above took place. -/
theorem hostStep_move {s t : State} (h : hostStep s = .next t) :
    t.aesu = s.aesu ∧ t.bus = s.bus ∧ t.sched = s.sched ∧ t.draws = s.draws ∧ (∀ l ∈ t.host.prog, l ∈ s.host.prog) ∧
      HostMove s t := by
  unfold hostStep at h
  cases hp : s.host.prog with
  | nil =>
    simp only [hp, Host.Outcome.next.injEq] at h
    subst h
    exact ⟨rfl, rfl, rfl, rfl, by simp [hp], .quiet rfl rfl rfl rfl (by simp [hp])⟩
  | cons l rest =>
    simp only [hp] at h
    cases l with
    | cregWrite off width w =>
      simp only [hostLine] at h
      split_ifs at h
      cases h
      unfold cregWrite
      split_ifs with h1 h2 h3
      · exact ⟨rfl, rfl, rfl, rfl, by simp +contextual, .quiet rfl rfl rfl rfl (by simp [hp])⟩
      · exact ⟨rfl, rfl, rfl, rfl, by simp +contextual [setOvr],
          .dropped (by simpa [State.busy] using h2) rfl rfl rfl rfl (by simp [hp])⟩
      · exact ⟨rfl, rfl, rfl, rfl, by simp +contextual [accept], .accepted w (by simpa [State.busy] using h2) rfl rfl rfl⟩
      · have hw : width = .word := by
          simp only [cregAccepts, Bool.not_eq_true', Bool.not_eq_false, Bool.and_eq_true, beq_iff_eq] at h1
          exact h1.1
        subst hw
        exact ⟨rfl, rfl, rfl, rfl, by simp +contextual, .register off w rest hp (by simpa [State.busy] using h2) rfl rfl rfl rfl⟩
    | cregRead off width =>
      simp only [hostLine] at h
      split_ifs at h
      cases h
      exact ⟨rfl, rfl, rfl, rfl, by simp +contextual [cregRead], .quiet rfl rfl rfl rfl (by simp [hp])⟩
    | bufWrite a b =>
      cases h
      exact ⟨rfl, rfl, rfl, rfl, by simp +contextual [hostStoreByte], .store a b rest hp rfl rfl rfl rfl⟩
    | bufRead a =>
      cases h
      exact ⟨rfl, rfl, rfl, rfl, by simp +contextual, .quiet rfl rfl rfl rfl (by simp [hp])⟩
    | waitIdle =>
      cases h
      split_ifs
      · exact ⟨rfl, rfl, rfl, rfl, by simp [cregRead], .quiet rfl rfl rfl rfl (by simp [hp])⟩
      · exact ⟨rfl, rfl, rfl, rfl, by simp +contextual [cregRead], .quiet rfl rfl rfl rfl (by simp [hp])⟩
    | expect w =>
      cases h
      exact ⟨rfl, rfl, rfl, rfl, by simp +contextual, .quiet rfl rfl rfl rfl (by simp [hp])⟩

/-- A host step keeps the layout (R6). -/
theorem hostStep_dev {s t : State} (h : hostStep s = .next t) : t.dev = s.dev := by
  unfold hostStep at h
  cases hp : s.host.prog with
  | nil =>
    simp only [hp, Host.Outcome.next.injEq] at h
    rw [← h]
  | cons l rest =>
    simp only [hp] at h
    cases l <;> simp only [hostLine] at h <;> (try split_ifs at h) <;> (try cases h) <;> (try rfl)
    unfold cregWrite
    split_ifs <;> rfl

/-- A register write keeps every field of CREG that is not host-writable. -/
theorem cregStore_frame (off : Nat) (w : Word) (c : Creg) :
    (cregStore off w c).done = c.done ∧ (cregStore off w c).keyed = c.keyed ∧ (cregStore off w c).ovr = c.ovr ∧
    (cregStore off w c).err = c.err ∧ (cregStore off w c).blkcnt = c.blkcnt := by
  unfold cregStore
  split <;> simp

theorem timeoutStored_ne (w : Word) : timeoutStored w ≠ 0 := by
  unfold timeoutStored
  split_ifs with h
  · decide
  · exact h

/-- MC_TIMEOUT is never stored as 0 (R28). -/
theorem cregStore_timeout {c : Creg} (h : c.timeout ≠ 0) (off : Nat) (w : Word) : (cregStore off w c).timeout ≠ 0 := by
  unfold cregStore
  split <;> first | exact h | exact timeoutStored_ne w

end Sys2Proof.Machine
end

