-- ==== Sys2Proof/Laws/State.lean ====
section
/-! SUPPORT. One lemma per field of State per named update, each true by rfl. -/

namespace Sys2Proof.Machine

@[simp] theorem accept_dev (w : Word) (s : State) : (accept w s).dev = s.dev := rfl
@[simp] theorem accept_creg (w : Word) (s : State) : (accept w s).creg = { s.creg with done := false, err := .none, ovr := false, blkcnt := 0 } := rfl
@[simp] theorem accept_mc (w : Word) (s : State) : (accept w s).mc = { s.mc with cmd := w, st := .check } := rfl
@[simp] theorem accept_aesu (w : Word) (s : State) : (accept w s).aesu = s.aesu := rfl
@[simp] theorem accept_buf (w : Word) (s : State) : (accept w s).buf = s.buf := rfl
@[simp] theorem accept_host (w : Word) (s : State) : (accept w s).host = s.host := rfl
@[simp] theorem accept_sched (w : Word) (s : State) : (accept w s).sched = s.sched := rfl
@[simp] theorem accept_draws (w : Word) (s : State) : (accept w s).draws = s.draws := rfl
@[simp] theorem accept_bus (w : Word) (s : State) : (accept w s).bus = s.bus := rfl
@[simp] theorem accept_hostRace (w : Word) (s : State) : (accept w s).hostRace = [] := rfl
@[simp] theorem accept_mcRace (w : Word) (s : State) : (accept w s).mcRace = s.mcRace := rfl

@[simp] theorem finish_dev (e : Err) (s : State) : (finish e s).dev = s.dev := rfl
@[simp] theorem finish_creg (e : Err) (s : State) : (finish e s).creg = { s.creg with err := e, done := true } := rfl
@[simp] theorem finish_mc (e : Err) (s : State) : (finish e s).mc = { s.mc with st := .idle } := rfl
@[simp] theorem finish_aesu (e : Err) (s : State) : (finish e s).aesu = s.aesu := rfl
@[simp] theorem finish_buf (e : Err) (s : State) : (finish e s).buf = s.buf := rfl
@[simp] theorem finish_host (e : Err) (s : State) : (finish e s).host = s.host := rfl
@[simp] theorem finish_sched (e : Err) (s : State) : (finish e s).sched = s.sched := rfl
@[simp] theorem finish_draws (e : Err) (s : State) : (finish e s).draws = s.draws := rfl
@[simp] theorem finish_bus (e : Err) (s : State) : (finish e s).bus = s.bus := rfl
@[simp] theorem finish_hostRace (e : Err) (s : State) : (finish e s).hostRace = s.hostRace := rfl
@[simp] theorem finish_mcRace (e : Err) (s : State) : (finish e s).mcRace = s.mcRace := rfl

@[simp] theorem setKeyed_dev (b : Bool) (s : State) : (setKeyed b s).dev = s.dev := rfl
@[simp] theorem setKeyed_creg (b : Bool) (s : State) : (setKeyed b s).creg = { s.creg with keyed := b } := rfl
@[simp] theorem setKeyed_mc (b : Bool) (s : State) : (setKeyed b s).mc = s.mc := rfl
@[simp] theorem setKeyed_aesu (b : Bool) (s : State) : (setKeyed b s).aesu = s.aesu := rfl
@[simp] theorem setKeyed_buf (b : Bool) (s : State) : (setKeyed b s).buf = s.buf := rfl
@[simp] theorem setKeyed_host (b : Bool) (s : State) : (setKeyed b s).host = s.host := rfl
@[simp] theorem setKeyed_sched (b : Bool) (s : State) : (setKeyed b s).sched = s.sched := rfl
@[simp] theorem setKeyed_draws (b : Bool) (s : State) : (setKeyed b s).draws = s.draws := rfl
@[simp] theorem setKeyed_bus (b : Bool) (s : State) : (setKeyed b s).bus = s.bus := rfl
@[simp] theorem setKeyed_hostRace (b : Bool) (s : State) : (setKeyed b s).hostRace = s.hostRace := rfl
@[simp] theorem setKeyed_mcRace (b : Bool) (s : State) : (setKeyed b s).mcRace = s.mcRace := rfl

@[simp] theorem setOvr_dev (s : State) : (setOvr s).dev = s.dev := rfl
@[simp] theorem setOvr_creg (s : State) : (setOvr s).creg = { s.creg with ovr := true } := rfl
@[simp] theorem setOvr_mc (s : State) : (setOvr s).mc = s.mc := rfl
@[simp] theorem setOvr_aesu (s : State) : (setOvr s).aesu = s.aesu := rfl
@[simp] theorem setOvr_buf (s : State) : (setOvr s).buf = s.buf := rfl
@[simp] theorem setOvr_host (s : State) : (setOvr s).host = s.host := rfl
@[simp] theorem setOvr_sched (s : State) : (setOvr s).sched = s.sched := rfl
@[simp] theorem setOvr_draws (s : State) : (setOvr s).draws = s.draws := rfl
@[simp] theorem setOvr_bus (s : State) : (setOvr s).bus = s.bus := rfl
@[simp] theorem setOvr_hostRace (s : State) : (setOvr s).hostRace = s.hostRace := rfl
@[simp] theorem setOvr_mcRace (s : State) : (setOvr s).mcRace = s.mcRace := rfl

@[simp] theorem goto_dev (x : St) (s : State) : (goto x s).dev = s.dev := rfl
@[simp] theorem goto_creg (x : St) (s : State) : (goto x s).creg = s.creg := rfl
@[simp] theorem goto_mc (x : St) (s : State) : (goto x s).mc = { s.mc with st := x } := rfl
@[simp] theorem goto_aesu (x : St) (s : State) : (goto x s).aesu = s.aesu := rfl
@[simp] theorem goto_buf (x : St) (s : State) : (goto x s).buf = s.buf := rfl
@[simp] theorem goto_host (x : St) (s : State) : (goto x s).host = s.host := rfl
@[simp] theorem goto_sched (x : St) (s : State) : (goto x s).sched = s.sched := rfl
@[simp] theorem goto_draws (x : St) (s : State) : (goto x s).draws = s.draws := rfl
@[simp] theorem goto_bus (x : St) (s : State) : (goto x s).bus = s.bus := rfl
@[simp] theorem goto_hostRace (x : St) (s : State) : (goto x s).hostRace = s.hostRace := rfl
@[simp] theorem goto_mcRace (x : St) (s : State) : (goto x s).mcRace = s.mcRace := rfl

@[simp] theorem afterTurn_dev (s : State) : (s.afterTurn).dev = s.dev := rfl
@[simp] theorem afterTurn_creg (s : State) : (s.afterTurn).creg = s.creg := rfl
@[simp] theorem afterTurn_mc (s : State) : (s.afterTurn).mc = s.mc := rfl
@[simp] theorem afterTurn_aesu (s : State) : (s.afterTurn).aesu = s.aesu := rfl
@[simp] theorem afterTurn_buf (s : State) : (s.afterTurn).buf = s.buf := rfl
@[simp] theorem afterTurn_host (s : State) : (s.afterTurn).host = s.host := rfl
@[simp] theorem afterTurn_sched (s : State) : (s.afterTurn).sched = s.sched.tail := rfl
@[simp] theorem afterTurn_draws (s : State) : (s.afterTurn).draws = s.draws + 1 := rfl
@[simp] theorem afterTurn_bus (s : State) : (s.afterTurn).bus = s.bus := rfl
@[simp] theorem afterTurn_hostRace (s : State) : (s.afterTurn).hostRace = s.hostRace := rfl
@[simp] theorem afterTurn_mcRace (s : State) : (s.afterTurn).mcRace = s.mcRace := rfl

@[simp] theorem mcReset_dev (s : State) : (mcReset s).dev = s.dev := rfl
@[simp] theorem mcReset_creg (s : State) : (mcReset s).creg = Creg.reset := rfl
@[simp] theorem mcReset_mc (s : State) : (mcReset s).mc = Mc.reset := rfl
@[simp] theorem mcReset_aesu (s : State) : (mcReset s).aesu = s.aesu := rfl
@[simp] theorem mcReset_buf (s : State) : (mcReset s).buf = s.buf := rfl
@[simp] theorem mcReset_host (s : State) : (mcReset s).host = s.host := rfl
@[simp] theorem mcReset_sched (s : State) : (mcReset s).sched = s.sched := rfl
@[simp] theorem mcReset_draws (s : State) : (mcReset s).draws = s.draws := rfl
@[simp] theorem mcReset_bus (s : State) : (mcReset s).bus = s.bus := rfl
@[simp] theorem mcReset_hostRace (s : State) : (mcReset s).hostRace = [] := rfl
@[simp] theorem mcReset_mcRace (s : State) : (mcReset s).mcRace = [] := rfl

@[simp] theorem systemReset_dev (s : State) : (systemReset s).dev = s.dev := rfl
@[simp] theorem systemReset_creg (s : State) : (systemReset s).creg = Creg.reset := rfl
@[simp] theorem systemReset_mc (s : State) : (systemReset s).mc = Mc.reset := rfl
@[simp] theorem systemReset_aesu (s : State) : (systemReset s).aesu = Aesu.reset s.draws := rfl
@[simp] theorem systemReset_buf (s : State) : (systemReset s).buf = s.buf := rfl
@[simp] theorem systemReset_host (s : State) : (systemReset s).host = s.host := rfl
@[simp] theorem systemReset_sched (s : State) : (systemReset s).sched = s.sched := rfl
@[simp] theorem systemReset_draws (s : State) : (systemReset s).draws = s.draws := rfl
@[simp] theorem systemReset_bus (s : State) : (systemReset s).bus = s.bus := rfl
@[simp] theorem systemReset_hostRace (s : State) : (systemReset s).hostRace = [] := rfl
@[simp] theorem systemReset_mcRace (s : State) : (systemReset s).mcRace = [] := rfl

@[simp] theorem latchCrypt_dev (m : Mode) (s : State) : (latchCrypt m s).dev = s.dev := rfl
@[simp] theorem latchCrypt_creg (m : Mode) (s : State) : (latchCrypt m s).creg = s.creg := rfl
@[simp] theorem latchCrypt_mc (m : Mode) (s : State) : (latchCrypt m s).mc = { s.mc with nblk := lenBlocks s.creg, chain := if m = .cbc then ivBlock s.creg else s.mc.chain, idx := 0 } := rfl
@[simp] theorem latchCrypt_aesu (m : Mode) (s : State) : (latchCrypt m s).aesu = s.aesu := rfl
@[simp] theorem latchCrypt_buf (m : Mode) (s : State) : (latchCrypt m s).buf = s.buf := rfl
@[simp] theorem latchCrypt_host (m : Mode) (s : State) : (latchCrypt m s).host = s.host := rfl
@[simp] theorem latchCrypt_sched (m : Mode) (s : State) : (latchCrypt m s).sched = s.sched := rfl
@[simp] theorem latchCrypt_draws (m : Mode) (s : State) : (latchCrypt m s).draws = s.draws := rfl
@[simp] theorem latchCrypt_bus (m : Mode) (s : State) : (latchCrypt m s).bus = s.bus := rfl
@[simp] theorem latchCrypt_hostRace (m : Mode) (s : State) : (latchCrypt m s).hostRace = s.hostRace := rfl
@[simp] theorem latchCrypt_mcRace (m : Mode) (s : State) : (latchCrypt m s).mcRace = s.mcRace := rfl

@[simp] theorem checkLoadKey_dev (s : State) : (checkLoadKey s).dev = s.dev := rfl
@[simp] theorem checkLoadKey_creg (s : State) : (checkLoadKey s).creg = { s.creg with keyed := false } := rfl
@[simp] theorem checkLoadKey_mc (s : State) : (checkLoadKey s).mc = { s.mc with xblk := keyBlock s.creg, st := .wrdin } := rfl
@[simp] theorem checkLoadKey_aesu (s : State) : (checkLoadKey s).aesu = s.aesu := rfl
@[simp] theorem checkLoadKey_buf (s : State) : (checkLoadKey s).buf = s.buf := rfl
@[simp] theorem checkLoadKey_host (s : State) : (checkLoadKey s).host = s.host := rfl
@[simp] theorem checkLoadKey_sched (s : State) : (checkLoadKey s).sched = s.sched := rfl
@[simp] theorem checkLoadKey_draws (s : State) : (checkLoadKey s).draws = s.draws := rfl
@[simp] theorem checkLoadKey_bus (s : State) : (checkLoadKey s).bus = s.bus := rfl
@[simp] theorem checkLoadKey_hostRace (s : State) : (checkLoadKey s).hostRace = s.hostRace := rfl
@[simp] theorem checkLoadKey_mcRace (s : State) : (checkLoadKey s).mcRace = s.mcRace := rfl

end Sys2Proof.Machine
end

