-- ==== Sys2Proof/Laws/Steps.lean ====
section
/-! SUPPORT. What each kind of step can do, said once: WBACK, the commands as one shared step, and the agents' turns. -/

namespace Sys2Proof.Machine

open Sys2Proof.Safety

/-- The address of block `i` (R101, R162). -/
theorem blockAddress_eq (base : Word) (i : BitVec 28) : blockAddress base i = blockAt base i.toNat := by
  unfold blockAddress blockAt
  congr 1
  apply BitVec.eq_of_toNat_eq
  simp [BitVec.toNat_shiftLeft, Nat.shiftLeft_eq]
  have := i.isLt
  omega

/-- The length check in arithmetic (R160). -/
theorem lenAligned_iff (c : Creg) : lenAligned c = true ↔ c.len.toNat % 16 = 0 := by
  simp [lenAligned, ← BitVec.toNat_inj, BitVec.extractLsb'_toNat]

/-- The chaining value after WBACK (R186). -/
def wbackChain (func : Func) (mode : Mode) (s : State) : Block := chainNext func mode s.mc.chain s.mc.sblk s.mc.yblk

/-- The state right after WBACK's BUF write (R188). -/
def wbackStored (func : Func) (mode : Mode) (s : State) : State :=
  mcStoreBlock (dstAddress s) (post func mode s.mc.chain s.mc.yblk) s

@[simp] theorem wbackStored_creg (func : Func) (mode : Mode) (s : State) : (wbackStored func mode s).creg = s.creg := by
  rw [wbackStored, mcStoreBlock_creg]
@[simp] theorem wbackStored_mc (func : Func) (mode : Mode) (s : State) : (wbackStored func mode s).mc = s.mc := by
  rw [wbackStored, mcStoreBlock_mc]
@[simp] theorem wbackStored_aesu (func : Func) (mode : Mode) (s : State) : (wbackStored func mode s).aesu = s.aesu := by
  rw [wbackStored, mcStoreBlock_aesu]
@[simp] theorem wbackStored_host (func : Func) (mode : Mode) (s : State) : (wbackStored func mode s).host = s.host := by
  rw [wbackStored, mcStoreBlock_host]
@[simp] theorem wbackStored_sched (func : Func) (mode : Mode) (s : State) : (wbackStored func mode s).sched = s.sched := by
  rw [wbackStored, mcStoreBlock_sched]
@[simp] theorem wbackStored_draws (func : Func) (mode : Mode) (s : State) : (wbackStored func mode s).draws = s.draws := by
  rw [wbackStored, mcStoreBlock_draws]
@[simp] theorem wbackStored_dev (func : Func) (mode : Mode) (s : State) : (wbackStored func mode s).dev = s.dev := by
  rw [wbackStored, mcStoreBlock_dev]
@[simp] theorem wbackStored_bus (func : Func) (mode : Mode) (s : State) :
    (wbackStored func mode s).bus = .bufWrite (dstAddress s) (post func mode s.mc.chain s.mc.yblk) :: s.bus := by
  rw [wbackStored, mcStoreBlock_bus]

/-- WBACK's BUF write keeps the canonical form. -/
theorem wbackStored_wf (func : Func) (mode : Mode) {s : State} (h : Mem.wf s.buf = true) : Mem.wf (wbackStored func mode s).buf = true :=
  mcStoreBlock_wf _ _ h

/-- WBACK of the last block finishes, and only then, in CBC, writes MC_IV (R188, R189). -/
theorem wbackStep_last {func : Func} {mode : Mode} {s : State} (h : s.mc.idx.toNat + 1 = s.mc.nblk.toNat) :
    wbackStep func mode s = { wbackStored func mode s with
      creg := { (if mode = .cbc then setIv (wbackChain func mode s) s.creg else s.creg) with
        blkcnt := s.mc.idx.setWidth 32 + 1, err := .none, done := true }
      mc := { s.mc with chain := wbackChain func mode s, st := .idle } } := by
  by_cases hm : mode = .cbc <;>
    simp [wbackStep, wbackNext, h, hm, finish, wbackStored, wbackChain, setIv]

/-- WBACK of any other block goes on to the next block (R188). -/
theorem wbackStep_more {func : Func} {mode : Mode} {s : State} (h : s.mc.idx.toNat + 1 ≠ s.mc.nblk.toNat) :
    wbackStep func mode s = { wbackStored func mode s with
      creg := { s.creg with blkcnt := s.mc.idx.setWidth 32 + 1 }
      mc := { s.mc with chain := wbackChain func mode s, idx := s.mc.idx + 1, st := .fetch } } := by
  simp [wbackStep, wbackNext, h, wbackStored, wbackChain]

/-- Every command's meaning is one shared step, with the FUNC and MODE of its word and a CHECK of its own class (R38, R180). -/
theorem exec_command {i : Instr} {f : Func} {m : Mode} (hf : i.func = some f) (hm : i.mode = some m) :
    ∃ check, (∀ s, exec i s = commandStep (encode i) f m check s) ∧
      (check = checkIllegal ∨ (check = checkLoadKey ∧ i = .loadKey) ∨
        (check = checkCrypt m ∧ ∃ op, (i, f, m, op) ∈ cryptCommands)) := by
  cases i <;> simp only [Instr.func, Instr.mode, Option.some.injEq, reduceCtorEq] at hf hm <;> subst hf <;> subst hm <;>
    refine ⟨_, fun _ => rfl, ?_⟩ <;> simp [cryptCommands]

/-- MC's step outside IDLE is the shared step of the latched word's fields. -/
theorem mcStep_command {s : State} (h : s.mc.st ≠ .idle) :
    ∃ check, mcStep s = commandStep (encode (decodeCmd s.mc.cmd)) (funcOf s) (modeOf s) check s ∧
      (check = checkIllegal ∨ (check = checkLoadKey ∧ decodeCmd s.mc.cmd = .loadKey) ∨
        (check = checkCrypt (modeOf s) ∧ ∃ op, (decodeCmd s.mc.cmd, funcOf s, modeOf s, op) ∈ cryptCommands)) := by
  obtain ⟨hf, hm⟩ := decodeCmd_fields s.mc.cmd
  obtain ⟨check, he, hc⟩ := exec_command hf hm
  exact ⟨check, by rw [mcStep, if_neg h, he]; rfl, hc⟩

/-- AESU's step is the completion of the operation it is busy with (R134), or nothing. -/
theorem aesuStep_eq (s : State) :
    aesuStep s = .next (match s.aesu.phase with
      | .busy op => { s with aesu := aesuComplete op s.aesu s.draws }
      | _ => s) := by
  cases hp : s.aesu.phase with
  | busy op =>
    cases op <;> simp [aesuStep, hp, devInstr, exec, execEncrypt, execDecrypt, execSetKey, deviceStep]
  | _ => simp [aesuStep, hp]

end Sys2Proof.Machine
end

