-- ==== Sys2Proof/Laws/Moves.lean ====
section
/-! SUPPORT. Everything a step can do, said once: the inversion of MC's step by FSM state, and of the system's step by turn. -/

namespace Sys2Proof.Machine

open Sys2Proof.Safety

/-- Everything MC's CHECK can do, by the class of the latched word (R183). -/
inductive CheckMove (s t : State) : Prop where
  | illegal (word : legalWord s.mc.cmd = false) (eq : t = checkIllegal s)
  | loadKey (word : decodeCmd s.mc.cmd = .loadKey) (func : funcOf s = .setKey) (mode : modeOf s = .ecb) (eq : t = checkLoadKey s)
  | crypt (word : legalWord s.mc.cmd = true) (op : DevOp) (func : funcOf s ≠ .setKey) (opc : devOpOf (funcOf s) = some op)
      (eq : t = checkCrypt (modeOf s) s)

/-- Everything MC's step can do outside IDLE, by FSM state (R38, R199). -/
inductive McMove (s t : State) : Prop where
  | check (st : s.mc.st = .check) (move : CheckMove s t)
  | fetch (st : s.mc.st = .fetch) (eq : t = fetchStep (funcOf s) (modeOf s) s)
  | wrdin (st : s.mc.st = .wrdin) (eq : t = { s with
      aesu := aesuWriteBlock s.aesu s.draws s.mc.xblk, bus := wrdinEvents s.dev s.mc.xblk ++ s.bus
      mc := { s.mc with st := .trig } })
  | trig (st : s.mc.st = .trig) (op : DevOp) (opc : devOpOf (funcOf s) = some op) (eq : t = { s with
      aesu := aesuTrigger s.aesu s.draws op, bus := .devWrite s.dev.ctrlOff (s.dev.opc op) :: s.bus
      mc := { s.mc with pcnt := 0, st := .poll } })
  | poll (st : s.mc.st = .poll) (eq : t = pollAnswer (funcOf s) (aesuStatus s.aesu s.draws)
      { s with bus := .devRead s.dev.statOff (aesuStatus s.aesu s.draws) :: s.bus })
  | rdout (st : s.mc.st = .rdout) (eq : t = { s with
      bus := rdoutEvents s.dev s.aesu s.draws ++ s.bus
      mc := { s.mc with yblk := aesuOutBlock s.aesu s.draws, st := .wback } })
  | wback (st : s.mc.st = .wback) (eq : t = wbackStep (funcOf s) (modeOf s) s)

/-- A STATUS read counted (R123). -/
def pollCounted (s : State) : State := { s with mc := { s.mc with pcnt := s.mc.pcnt + 1 } }

/-- Everything POLL can do with the value it read: LOAD_KEY ends with KEYED = 1, another command goes on to RDOUT, the last read of a
transaction times out, any other polls again (R123). -/
theorem pollAnswer_cases (func : Func) (v : Word) (s : State) :
    (v ≠ 0 ∧ func = .setKey ∧ pollAnswer func v s = finish .none (setKeyed true (pollCounted s))) ∨
    (v ≠ 0 ∧ func ≠ .setKey ∧ pollAnswer func v s = goto .rdout (pollCounted s)) ∨
    (v = 0 ∧ s.creg.timeout ≤ s.mc.pcnt + 1 ∧ pollAnswer func v s = finish .deviceTimeout (setKeyed false (pollCounted s))) ∨
    (v = 0 ∧ ¬ s.creg.timeout ≤ s.mc.pcnt + 1 ∧ pollAnswer func v s = goto .poll (pollCounted s)) := by
  unfold pollAnswer
  dsimp only
  split_ifs with hv hf ht
  · exact .inl ⟨hv, hf, rfl⟩
  · exact .inr (.inl ⟨hv, hf, rfl⟩)
  · exact .inr (.inr (.inl ⟨not_not.1 hv, ht, rfl⟩))
  · exact .inr (.inr (.inr ⟨not_not.1 hv, ht, rfl⟩))

/-- CHECK of the latched word is one of the three. -/
theorem mcStep_check {s : State} (h : s.mc.st = .check) : ∃ t, mcStep s = .next t ∧ CheckMove s t := by
  obtain ⟨hf, hm⟩ := decodeCmd_fields s.mc.cmd
  have hc : ∀ i, decodeCmd s.mc.cmd = i → i.func = some (funcOf s) ∧ i.mode = some (modeOf s) := by
    rintro i rfl
    exact ⟨hf, hm⟩
  rw [mcStep, if_neg (by simp [h])]
  cases hi : decodeCmd s.mc.cmd with
  | illegalFunc3 m r =>
    exact ⟨_, by simp [exec, execIllegalFunc3, commandStep, h], .illegal (by simp [legalWord, hi]) rfl⟩
  | illegalSetKeyMode1 r =>
    exact ⟨_, by simp [exec, execIllegalSetKeyMode1, commandStep, h], .illegal (by simp [legalWord, hi]) rfl⟩
  | illegalRsvd f m r =>
    exact ⟨_, by simp [exec, execIllegalRsvd, commandStep, h], .illegal (by simp [legalWord, hi]) rfl⟩
  | loadKey =>
    obtain ⟨h1, h2⟩ := hc _ hi
    simp only [Instr.func, Instr.mode, Option.some.injEq] at h1 h2
    exact ⟨_, by simp [exec, execLoadKey, commandStep, h], .loadKey hi h1.symm h2.symm rfl⟩
  | ecbEnc =>
    obtain ⟨h1, h2⟩ := hc _ hi
    simp only [Instr.func, Instr.mode, Option.some.injEq] at h1 h2
    exact ⟨_, by simp [exec, execEcbEnc, commandStep, h]; rfl,
      .crypt (by simp [legalWord, hi]) .enc (by simp [← h1]) (by rw [← h1]; rfl) (by rw [← h2])⟩
  | ecbDec =>
    obtain ⟨h1, h2⟩ := hc _ hi
    simp only [Instr.func, Instr.mode, Option.some.injEq] at h1 h2
    exact ⟨_, by simp [exec, execEcbDec, commandStep, h]; rfl,
      .crypt (by simp [legalWord, hi]) .dec (by simp [← h1]) (by rw [← h1]; rfl) (by rw [← h2])⟩
  | cbcEnc =>
    obtain ⟨h1, h2⟩ := hc _ hi
    simp only [Instr.func, Instr.mode, Option.some.injEq] at h1 h2
    exact ⟨_, by simp [exec, execCbcEnc, commandStep, h]; rfl,
      .crypt (by simp [legalWord, hi]) .enc (by simp [← h1]) (by rw [← h1]; rfl) (by rw [← h2])⟩
  | cbcDec =>
    obtain ⟨h1, h2⟩ := hc _ hi
    simp only [Instr.func, Instr.mode, Option.some.injEq] at h1 h2
    exact ⟨_, by simp [exec, execCbcDec, commandStep, h]; rfl,
      .crypt (by simp [legalWord, hi]) .dec (by simp [← h1]) (by rw [← h1]; rfl) (by rw [← h2])⟩
  | encrypt => simp [hi, Instr.func] at hf
  | decrypt => simp [hi, Instr.func] at hf
  | setKey => simp [hi, Instr.func] at hf

/-- MC's step outside IDLE, when it answers a next state, is one of the seven moves. -/
theorem mcStep_move {s t : State} (hd : s.dev.ok = true) (hst : s.mc.st ≠ .idle) (h : mcStep s = .next t) : McMove s t := by
  obtain ⟨c, he, -⟩ := mcStep_command hst
  cases hs : s.mc.st with
  | idle => exact absurd hs hst
  | check =>
    obtain ⟨u, hu, hm⟩ := mcStep_check hs
    rw [hu] at h
    cases h
    exact .check hs hm
  | fetch =>
    rw [he] at h
    simp only [commandStep, hs, Host.Outcome.next.injEq] at h
    exact .fetch hs h.symm
  | wrdin =>
    rw [he] at h
    simp only [commandStep, hs, wrdinStep_eq hd, Host.Outcome.next.injEq] at h
    exact .wrdin hs h.symm
  | trig =>
    rw [he] at h
    simp only [commandStep, hs] at h
    cases hop : devOpOf (funcOf s) with
    | none => simp [trigStep, hop] at h
    | some op =>
      simp only [trigStep_eq hd hop, Host.Outcome.next.injEq] at h
      exact .trig hs op hop h.symm
  | poll =>
    rw [he] at h
    simp only [commandStep, hs, pollStep_eq, Host.Outcome.next.injEq] at h
    exact .poll hs h.symm
  | rdout =>
    rw [he] at h
    simp only [commandStep, hs, rdoutStep_eq hd, Host.Outcome.next.injEq] at h
    exact .rdout hs h.symm
  | wback =>
    rw [he] at h
    simp only [commandStep, hs, Host.Outcome.next.injEq] at h
    exact .wback hs h.symm

/-- MC's step answers a next state unless it is TRIG of a word without a device operation (R99). -/
theorem mcStep_next {s : State} (hd : s.dev.ok = true) (h : s.mc.st = .trig → ∃ op, devOpOf (funcOf s) = some op) : ∃ t, mcStep s = .next t := by
  by_cases hst : s.mc.st = .idle
  · exact ⟨s, by simp [mcStep, hst]⟩
  obtain ⟨c, he, -⟩ := mcStep_command hst
  rw [he]
  cases hs : s.mc.st with
  | idle => exact absurd hs hst
  | trig =>
    obtain ⟨op, hop⟩ := h hs
    exact ⟨_, by simp [commandStep, hs, trigStep_eq hd hop]; rfl⟩
  | wrdin => exact ⟨_, by simp [commandStep, hs, wrdinStep_eq hd]; rfl⟩
  | poll => exact ⟨_, by simp [commandStep, hs, pollStep_eq]; rfl⟩
  | rdout => exact ⟨_, by simp [commandStep, hs, rdoutStep_eq hd]; rfl⟩
  | check => exact ⟨_, by simp [commandStep, hs]; rfl⟩
  | fetch => exact ⟨_, by simp [commandStep, hs]; rfl⟩
  | wback => exact ⟨_, by simp [commandStep, hs]; rfl⟩

/-- Everything a step of the system can do, by turn (R3): an agent's step, or a reset. -/
inductive StepMove (s t : State) : Prop where
  | host (turn : s.turn = .host) (eq : hostStep s.afterTurn = .next t)
  | mcIdle (turn : s.turn = .mc) (st : s.mc.st = .idle) (eq : t = s.afterTurn)
  | mc (turn : s.turn = .mc) (st : s.mc.st ≠ .idle) (move : McMove s.afterTurn t)
  | complete (turn : s.turn = .aesu) (op : DevOp) (phase : s.aesu.phase = .busy op)
      (eq : t = { s.afterTurn with aesu := aesuComplete op s.aesu (s.draws + 1) })
  | aesuIdle (turn : s.turn = .aesu) (phase : ∀ op, s.aesu.phase ≠ .busy op) (eq : t = s.afterTurn)
  | mcReset (turn : s.turn = .mcReset) (eq : t = mcReset s.afterTurn)
  | systemReset (turn : s.turn = .systemReset) (eq : t = systemReset s.afterTurn)

theorem step_move {s t : State} (hd : s.dev.ok = true) (h : step s = .next t) : StepMove s t := by
  unfold step at h
  cases ht : s.turn with
  | host =>
    rw [ht] at h
    exact .host ht h
  | mc =>
    rw [ht] at h
    by_cases hs : s.mc.st = .idle
    · simp only [agentStep, mcStep, State.afterTurn, hs, if_true, Host.Outcome.next.injEq] at h
      exact .mcIdle ht hs h.symm
    · exact .mc ht hs (mcStep_move hd hs h)
  | aesu =>
    rw [ht, agentStep, aesuStep_eq, Host.Outcome.next.injEq] at h
    cases hp : s.aesu.phase with
    | busy op =>
      simp only [State.afterTurn, hp] at h
      exact .complete ht op hp h.symm
    | fresh =>
      simp only [State.afterTurn, hp] at h
      exact .aesuIdle ht (by simp [hp]) h.symm
    | ready =>
      simp only [State.afterTurn, hp] at h
      exact .aesuIdle ht (by simp [hp]) h.symm
    | wedged =>
      simp only [State.afterTurn, hp] at h
      exact .aesuIdle ht (by simp [hp]) h.symm
  | mcReset =>
    rw [ht] at h
    cases h
    exact .mcReset ht rfl
  | systemReset =>
    rw [ht] at h
    cases h
    exact .systemReset ht rfl

end Sys2Proof.Machine
end

