-- ==== Sys2Proof/Laws/PerInstr.lean ====
section
/-! SUPPORT. The per-instruction family EncodeFields: what the fields of an instruction's word are. -/

/-- The word of a well-formed command has the FUNC and MODE of the instruction in its fields (R91); the word of a device opcode is read back by
CONTROL, at every layout (R97). -/
def Sys2Proof.Laws.EncodeFields.Statement (i : Sys2Proof.Instr) : Prop :=
  i.wf = true →
    (i.format = .cmd → i.func = some (Sys2Proof.cmdFunc (Sys2Proof.encode i)) ∧ i.mode = some (Sys2Proof.cmdMode (Sys2Proof.encode i))) ∧
    (i.format = .devControl → ∃ op, Sys2Proof.devInstr op = i ∧
      ∀ p : Sys2Proof.DevParams, p.ok = true → Sys2Proof.decodeControl p (Sys2Proof.encodeFor p i) = .ok op)

namespace Sys2Proof.Laws.EncodeFields

theorem ecbEnc : Statement .ecbEnc := fun _ => ⟨fun _ => by decide, fun h => by cases h⟩
theorem ecbDec : Statement .ecbDec := fun _ => ⟨fun _ => by decide, fun h => by cases h⟩
theorem loadKey : Statement .loadKey := fun _ => ⟨fun _ => by decide, fun h => by cases h⟩
theorem cbcEnc : Statement .cbcEnc := fun _ => ⟨fun _ => by decide, fun h => by cases h⟩
theorem cbcDec : Statement .cbcDec := fun _ => ⟨fun _ => by decide, fun h => by cases h⟩
theorem illegalFunc3 (mode : Mode) (rsvd : BitVec 29) : Statement (.illegalFunc3 mode rsvd) := fun _ =>
  ⟨fun _ => by simp [encode, encodeFor, Instr.func, Instr.mode], fun h => by cases h⟩
theorem illegalSetKeyMode1 (rsvd : BitVec 29) : Statement (.illegalSetKeyMode1 rsvd) := fun _ =>
  ⟨fun _ => by simp [encode, encodeFor, Instr.func, Instr.mode], fun h => by cases h⟩
theorem illegalRsvd (func : Func) (mode : Mode) (rsvd : BitVec 29) : Statement (.illegalRsvd func mode rsvd) := fun _ =>
  ⟨fun _ => by simp [encode, encodeFor, Instr.func, Instr.mode], fun h => by cases h⟩
theorem encrypt : Statement .encrypt := fun _ => ⟨fun h => (by cases h), fun _ => ⟨.enc, rfl, fun _ h => Sys2Proof.Machine.decodeControl_opc h .enc⟩⟩
theorem decrypt : Statement .decrypt := fun _ => ⟨fun h => (by cases h), fun _ => ⟨.dec, rfl, fun _ h => Sys2Proof.Machine.decodeControl_opc h .dec⟩⟩
theorem setKey : Statement .setKey := fun _ => ⟨fun h => (by cases h), fun _ => ⟨.setKey, rfl, fun _ h => Sys2Proof.Machine.decodeControl_opc h .setKey⟩⟩

end Sys2Proof.Laws.EncodeFields
end

