-- ==== Sys2Proof/Laws/Walk.lean ====
section
/-! SUPPORT. Where the blocks of a walk lie, what a block write leaves of another block, and the commands as one shared step. -/

namespace Sys2Proof.Machine

open Sys2Proof.Safety

theorem byteAddress_eq (a : Word) (i : Nat) : byteAddress a i = (a.toNat + i) % 2 ^ 32 := by
  simp only [byteAddress, BitVec.toNat_add, BitVec.toNat_ofNat]
  omega

/-- The sixteen addresses of a block are the ones its bytes are at (R64). -/
theorem inBlock_iff (a : Word) (c : Nat) : inBlock a c ↔ ∃ i < 16, c = byteAddress a i := by
  simp only [inBlock, byteAddress_eq]

/-- Two blocks of one range have no byte in common (R162, R83): a range of 2^28 blocks fills the address space once. -/
theorem inBlock_other {a : Word} {i j c : Nat} (hi : i < 2 ^ 28) (hj : j < 2 ^ 28) (hij : i ≠ j)
    (h : inBlock (blockAt a i) c) : ¬ inBlock (blockAt a j) c := by
  obtain ⟨x, hx, rfl⟩ := h
  rintro ⟨y, hy, h⟩
  simp only [blockAt, BitVec.toNat_add, BitVec.toNat_ofNat] at h
  have := a.isLt
  omega

/-- A block write leaves a block alone that has no byte in common with it. -/
theorem memReadBlock_writeBlock_other {m : Mem} (hm : Mem.wf m = true) {a b : Word} (x : Block)
    (h : ∀ c, inBlock a c → ¬ inBlock b c) : memReadBlock (memWriteBlock m b x) a = memReadBlock m a := by
  apply block_ext
  intro i hi
  rw [blockByte_readBlock _ _ hi, blockByte_readBlock _ _ hi]
  refine memRead_writeBlock_outside hm b x _ fun j hj he => ?_
  exact h _ ((inBlock_iff a _).2 ⟨i, hi, rfl⟩) ((inBlock_iff b _).2 ⟨j, hj, he⟩)

/-- A byte written outside a block and the block written commute. -/
theorem memWriteBlock_write {m : Mem} (hm : Mem.wf m = true) {a : Word} (b : Block) {x : Nat} (hx : x < 2 ^ 32) (v : Byte)
    (h : ¬ inBlock a x) : memWriteBlock (memWrite m x v) a b = memWrite (memWriteBlock m a b) x v := by
  have h1 := memWrite_wf v hm hx
  have h2 := memWriteBlock_wf a b hm
  refine mem_ext (memWriteBlock_wf a b h1) (memWrite_wf v h2 hx) fun y => ?_
  rw [memRead_write h2]
  by_cases hy : inBlock a y
  · obtain ⟨i, hi, rfl⟩ := (inBlock_iff a y).1 hy
    rw [memRead_writeBlock_inside h1 a b hi, memRead_writeBlock_inside hm a b hi, if_neg]
    rintro rfl
    exact h hy
  · have hy' : ∀ i < 16, y ≠ byteAddress a i := fun i hi he => hy ((inBlock_iff a y).2 ⟨i, hi, he⟩)
    rw [memRead_writeBlock_outside h1 a b y hy', memRead_writeBlock_outside hm a b y hy', memRead_write hm]

/-- Every write of the list is at an address of BUF. -/
def InBuf (writes : List Host.Cell) : Prop := ∀ c ∈ writes, c.1 < 2 ^ 32

theorem withWrites_wf {m : Mem} (hm : Mem.wf m = true) {writes : List Host.Cell} (h : InBuf writes) :
    Mem.wf (withWrites m writes) = true := by
  induction writes with
  | nil => exact hm
  | cons c rest ih => exact memWrite_wf _ (ih fun d hd => h d (by simp [hd])) (h c (by simp))

/-- Writes outside a block do not change what is read of it. -/
theorem memReadBlock_withWrites {m : Mem} (hm : Mem.wf m = true) {a : Word} {writes : List Host.Cell} (h : InBuf writes)
    (ho : ∀ c ∈ writes, ¬ inBlock a c.1) : memReadBlock (withWrites m writes) a = memReadBlock m a := by
  induction writes with
  | nil => rfl
  | cons c rest ih =>
    have hr : InBuf rest := fun d hd => h d (by simp [hd])
    rw [← ih hr fun d hd => ho d (by simp [hd])]
    apply block_ext
    intro i hi
    rw [blockByte_readBlock _ _ hi, blockByte_readBlock _ _ hi]
    change memRead (memWrite (withWrites m rest) c.1 c.2) _ = _
    rw [memRead_write (withWrites_wf hm hr), if_neg]
    intro he
    exact ho c (by simp) ((inBlock_iff a c.1).2 ⟨i, hi, he.symm⟩)

/-- Writes outside a block and the block written commute. -/
theorem memWriteBlock_withWrites {m : Mem} (hm : Mem.wf m = true) {a : Word} (b : Block) {writes : List Host.Cell} (h : InBuf writes)
    (ho : ∀ c ∈ writes, ¬ inBlock a c.1) : memWriteBlock (withWrites m writes) a b = withWrites (memWriteBlock m a b) writes := by
  induction writes with
  | nil => rfl
  | cons c rest ih =>
    have hr : InBuf rest := fun d hd => h d (by simp [hd])
    change memWriteBlock (memWrite (withWrites m rest) c.1 c.2) a b = memWrite (withWrites (memWriteBlock m a b) rest) c.1 c.2
    rw [← ih hr fun d hd => ho d (by simp [hd])]
    exact memWriteBlock_write (withWrites_wf hm hr) b (h c (by simp)) _ (ho c (by simp))

/-- `nblk` in arithmetic (R161). -/
theorem lenBlocks_toNat (c : Creg) : (lenBlocks c).toNat = c.len.toNat / 16 := by
  have := c.len.isLt
  simp [lenBlocks, BitVec.extractLsb'_toNat, Nat.shiftRight_eq_div_pow]
  omega

/-- A byte outside the range of `MC_LEN` bytes from `base` is in none of its blocks (R75, R162). -/
theorem not_inBlock_of_not_inRange {c : Creg} {base a : Word} (h : inRange base c.len a = false) {i : Nat}
    (hi : i < (lenBlocks c).toNat) : ¬ inBlock (blockAt base i) a.toNat := by
  rintro ⟨x, hx, he⟩
  rw [lenBlocks_toNat] at hi
  simp only [inRange, decide_eq_false_iff_not, BitVec.not_lt, BitVec.le_def, BitVec.toNat_sub] at h
  simp only [blockAt, BitVec.toNat_add, BitVec.toNat_ofNat] at he
  have := a.isLt
  have := base.isLt
  have := c.len.isLt
  omega

theorem blockAddress_ofNat (a : Word) {k : Nat} (h : k < 2 ^ 28) : blockAddress a (BitVec.ofNat 28 k) = blockAt a k := by
  rw [blockAddress_eq, BitVec.toNat_ofNat, Nat.mod_eq_of_lt h]

/-- ECB's operand does not depend on the chain (R184). -/
theorem pre_congr {f : Func} {m : Mode} {c c' b : Block} (h : m = .cbc → c = c') : pre f m c b = pre f m c' b := by
  unfold pre
  split_ifs with h1
  · rw [h h1.1]
  · rfl

/-- ECB's output does not depend on the chain (R185). -/
theorem post_congr {f : Func} {m : Mode} {c c' b : Block} (h : m = .cbc → c = c') : post f m c b = post f m c' b := by
  unfold post
  split_ifs with h1
  · rw [h h1.1]
  · rfl

/-- Only FUNC = 2 has the device operation SET_KEY (R99). -/
theorem devOpOf_setKey_iff {f : Func} {op : DevOp} (h : devOpOf f = some op) : op = .setKey ↔ f = .setKey := by
  cases f <;> simp [devOpOf] at h <;> subst h <;> simp

/-- The four encrypt and decrypt commands are one shared step. -/
theorem exec_crypt {i : Instr} {f : Func} {m : Mode} {op : DevOp} (h : (i, f, m, op) ∈ cryptCommands) (s : State) :
    exec i s = commandStep (encode i) f m (checkCrypt m) s ∧ devOpOf f = some op ∧ f ≠ .setKey := by
  simp only [cryptCommands, List.mem_cons, List.not_mem_nil, or_false, Prod.mk.injEq] at h
  rcases h with ⟨rfl, rfl, rfl, rfl⟩ | ⟨rfl, rfl, rfl, rfl⟩ | ⟨rfl, rfl, rfl, rfl⟩ | ⟨rfl, rfl, rfl, rfl⟩ <;>
    exact ⟨rfl, rfl, by decide⟩

/-- The five legal commands are one shared step. -/
theorem exec_legal {i : Instr} {op : DevOp} (h : (i, op) ∈ legalCommands) (s : State) :
    ∃ f m c, exec i s = commandStep (encode i) f m c s ∧ devOpOf f = some op ∧ (f = .setKey ↔ i = .loadKey) := by
  simp only [legalCommands, List.mem_cons, List.not_mem_nil, or_false, Prod.mk.injEq] at h
  rcases h with ⟨rfl, rfl⟩ | ⟨rfl, rfl⟩ | ⟨rfl, rfl⟩ | ⟨rfl, rfl⟩ | ⟨rfl, rfl⟩ <;> exact ⟨_, _, _, rfl, rfl, by decide⟩

/-- A host step leaves MC alone, unless it is an acceptance. -/
theorem HostMove.mc_cases {s t : State} (h : HostMove s t) : t.mc = s.mc ∨ (s.mc.st = .idle ∧ t.mc.st = .check ∧ t.buf = s.buf) := by
  cases h with
  | quiet _ h => exact .inl h
  | store _ _ _ _ _ _ h => exact .inl h
  | dropped _ _ h => exact .inl h
  | register _ _ _ _ _ _ h => exact .inl h
  | accepted w h1 h2 h3 h4 => exact .inr ⟨h1, by simp [h3], h4⟩

/-- MC is busy, and past CHECK, in the six states of a block or a key load. -/
theorem pastCheck_of {s : State} {x : St} (h : s.mc.st = x) (h1 : x ≠ .idle) (h2 : x ≠ .check) :
    pastCheck s = true ∧ s.busy = true := by
  simp [pastCheck, State.busy, h, h1, h2]

/-- A block store does not look at MC's registers. -/
theorem mcStoreBlock_mc_update (a : Word) (b : Block) (s : State) (m : Mc) :
    mcStoreBlock a b { s with mc := m } = { mcStoreBlock a b s with mc := m } := by
  have key : ∀ k, mcStoreBytes a b k { s with mc := m } = { mcStoreBytes a b k s with mc := m } := by
    intro k
    induction k with
    | zero => rfl
    | succ k ih =>
      simp only [mcStoreBytes, ih]
      rfl
  simp only [mcStoreBlock, key]

end Sys2Proof.Machine
end

