-- ==== Sys2Proof/Tests/Slice0.lean ====
section
/-! SUPPORT. Tests of the model on the worked examples and vectors of 95_test_vectors.md and on the words of 30_encoding.md (every expected
value is the spec's), and one witness for each statement with hypotheses. -/

namespace Sys2Proof.Tests

open Sys2Proof.Machine Sys2Proof.Safety

/-- P1 of 95_test_vectors.md, byte 0 in the low bits. -/
def p1 : Block := 0x0f0e0d0c0b0a09080706050403020100

/-- P2. -/
def p2 : Block := 0x1f1e1d1c1b1a19181716151413121110

/-- C1. -/
def c1 : Block := 0x82a2e6166646979f7cecd6bcd90fca7a

/-- X2. -/
def x2 : Block := 0x9dbcfb0a7d5c8e876bfac3a8ca1ddb6a

/-- C2. -/
def c2 : Block := 0x2c898ac0f1fca7e0306b4edb0fb0c9ec

/-- A state for one step of a two-block command: MC in `st` with word `cmd`, KEYED as given, AESU ready with the zero key. -/
def demo (st : St) (cmd : Word) (keyed : Bool) : State :=
  { State.reset with
    creg := { Creg.reset with len := 0x20, src := 0x1000, dst := 0x2000, keyed := keyed }
    mc := { Mc.reset with st := st, cmd := cmd, nblk := 2 }
    aesu := { din := 0, dout := 0, key := some 0, phase := .ready } }

/-- The layout with bit-encoded opcodes of 90_conflicts.md C4. -/
def bitEncoded : DevParams := { Config.dev with opcEncrypt := 1, opcDecrypt := 2, opcSetKey := 4 }

/-- `s` with MC_LEN = `len`. -/
def withLen (len : Word) (s : State) : State := { s with creg := { s.creg with len := len } }

/-- The outcome is a next state with the property `p`. -/
def nextHas (p : State → Bool) : Result → Bool
  | .next s => p s
  | .fault _ | .refused _ => false

/-! ### Well-formedness: what the check refuses -/

theorem test_wf_refuses_rsvd_zero : (Instr.illegalRsvd .enc .ecb 0).wf = false := by decide
theorem test_wf_refuses_func3_as_rsvd : (Instr.illegalRsvd .reserved .cbc 1).wf = false := by decide
theorem test_wf_refuses_setkey_mode1_as_rsvd : (Instr.illegalRsvd .setKey .cbc 1).wf = false := by decide
theorem test_wf_accepts_setkey_mode0_rsvd : (Instr.illegalRsvd .setKey .ecb 1).wf = true := by decide

/-! ### Decoding: words written out from R91, R95 to R97 (V-DEC-1 to V-DEC-13) -/

theorem test_decode_ecb_enc : decodeCmd 0b00000000000000000000000000000000 = .ecbEnc := by decide
theorem test_decode_ecb_dec : decodeCmd 0b00000000000000000000000000000001 = .ecbDec := by decide
theorem test_decode_load_key : decodeCmd 0b00000000000000000000000000000010 = .loadKey := by decide
theorem test_decode_cbc_enc : decodeCmd 0b00000000000000000000000000000100 = .cbcEnc := by decide
theorem test_decode_cbc_dec : decodeCmd 0b00000000000000000000000000000101 = .cbcDec := by decide
theorem test_decode_func3 : decodeCmd 0b00000000000000000000000000000011 = .illegalFunc3 .ecb 0 := by decide
theorem test_decode_func3_all_ones : decodeCmd 0xFFFFFFFF = .illegalFunc3 .cbc 0x1FFFFFFF := by decide
theorem test_decode_setkey_mode1 : decodeCmd 0b00000000000000000000000000000110 = .illegalSetKeyMode1 0 := by decide
theorem test_decode_rsvd : decodeCmd 0b00000000000000000000000000010000 = .illegalRsvd .enc .ecb 2 := by decide
theorem test_decode_rsvd_cbc : decodeCmd 0b00000000000000000000000000001100 = .illegalRsvd .enc .cbc 1 := by decide
theorem test_decode_encrypt : decodeAs Config.dev .devControl 0b00000000000000000000000000000000 = some .encrypt := by decide
theorem test_decode_decrypt : decodeAs Config.dev .devControl 0b00000000000000000000000000000001 = some .decrypt := by decide
theorem test_decode_set_key : decodeAs Config.dev .devControl 0b00000000000000000000000000000010 = some .setKey := by decide
theorem test_decode_no_opcode : decodeControl Config.dev 3 = .error (.notAnOpcode 3) := by decide
theorem test_decode_table_word : decodeTableWord 32 5 = some .cbcDec ∧ decodeTableWord 32 (2 ^ 32) = none := by decide

/-! ### Byte order and the XOR (V-BO-1, V-BO-3, V-BO-6, X2) -/

theorem test_p1_words : (blockWord p1 0, blockWord p1 1, blockWord p1 2, blockWord p1 3) =
    (0x03020100, 0x07060504, 0x0B0A0908, 0x0F0E0D0C) := by decide
theorem test_c2_words : (blockWord c2 0, blockWord c2 1, blockWord c2 2, blockWord c2 3) =
    (0x0FB0C9EC, 0x306B4EDB, 0xF1FCA7E0, 0x2C898AC0) := by decide
theorem test_c1_bytes : (blockByte c1 0, blockByte c1 1, blockByte c1 15) = (0x7a, 0xca, 0x82) := by decide
theorem test_xor : xorBlocks p2 c1 = x2 := by decide

/-! ### BUF: a block across the top of the address space (V-ECB-10) -/

theorem test_buf_wraps : memRead (memWriteBlock [] 0xFFFFFFF8 p1) 0xFFFFFFFF = 0x07 ∧
    memRead (memWriteBlock [] 0xFFFFFFF8 p1) 0 = 0x08 ∧ memReadBlock (memWriteBlock [] 0xFFFFFFF8 p1) 0xFFFFFFF8 = p1 := by
  decide +kernel

/-! ### CHECK (V-CHK-1 to V-CHK-10) -/

theorem test_check_key_not_set : nextHas (fun t => statusWord t == 0x202) (exec .ecbEnc (demo .check 0 false)) = true := by decide
theorem test_check_alignment_first :
    nextHas (fun t => statusWord t == 0x102) (exec .ecbEnc (withLen 0x11 (demo .check 0 false))) = true := by decide
theorem test_check_alignment_cbc :
    nextHas (fun t => statusWord t == 0x106) (exec .cbcEnc (withLen 0x21 (demo .check 4 true))) = true := by decide
theorem test_check_zero_length :
    nextHas (fun t => statusWord t == 0x006 && t.bus == []) (exec .cbcDec (withLen 0 (demo .check 5 true))) = true := by decide
theorem test_check_longest :
    nextHas (fun t => t.mc.st == .fetch && t.mc.nblk == 0x0FFFFFFF) (exec .ecbDec (withLen 0xFFFFFFF0 (demo .check 1 true))) = true := by
  decide
theorem test_check_load_key_ignores_len :
    nextHas (fun t => t.mc.st == .wrdin && statusWord t == 0x001) (exec .loadKey (withLen 0x11 (demo .check 2 true))) = true := by
  decide
theorem test_check_illegal_first :
    nextHas (fun t => statusWord t == 0x402) (exec (.illegalFunc3 .cbc 0) (withLen 0x11 (demo .check 7 false))) = true := by decide
theorem test_check_illegal_set_key_mode1 :
    nextHas (fun t => statusWord t == 0x406) (exec (.illegalSetKeyMode1 0) (demo .check 6 true)) = true := by decide
theorem test_check_illegal_rsvd :
    nextHas (fun t => statusWord t == 0x406) (exec (.illegalRsvd .enc .ecb 0x10000000) (demo .check 0x80000000 true)) = true := by decide

/-! ### The block steps -/

/-- V-CBC-1, block 1: the operand is X2 = P2 XOR C1. -/
theorem test_fetch_cbc_enc :
    nextHas (fun t => t.mc.xblk == x2 && t.mc.sblk == p2)
      (exec .cbcEnc { demo .fetch 4 true with
        buf := memWriteBlock [] 0x1010 p2, mc := { (demo .fetch 4 true).mc with idx := 1, chain := c1 } }) = true := by
  decide +kernel

/-- V-BO-1: the DATA_IN writes of P1. -/
theorem test_wrdin_ecb_enc :
    nextHas (fun t => t.bus == [.devWrite 0x0C 0x0F0E0D0C, .devWrite 0x08 0x0B0A0908, .devWrite 0x04 0x07060504, .devWrite 0x00 0x03020100])
      (exec .ecbEnc { demo .wrdin 0 true with mc := { (demo .wrdin 0 true).mc with xblk := p1 } }) = true := by decide +kernel

/-- R122's example: TRIG of CBC_DEC writes (0x20, 1). -/
theorem test_trig_cbc_dec : nextHas (fun t => t.bus == [.devWrite 0x20 1] && t.mc.st == .poll) (exec .cbcDec (demo .trig 5 true)) = true := by
  decide

/-- R6, C4: with the bit-encoded opcodes the same step writes (0x20, 2). -/
theorem test_trig_cbc_dec_bit_encoded :
    nextHas (fun t => t.bus == [.devWrite 0x20 2] && t.aesu.phase == .busy .dec && t.dev == bitEncoded)
      (exec .cbcDec { demo .trig 5 true with dev := bitEncoded }) = true := by decide

/-- V-POLL-1 and V-LK-4: the last zero read of LOAD_KEY times out. -/
theorem test_poll_timeout :
    nextHas (fun t => statusWord t == 0x302 && t.bus == [.devRead 0x24 0])
      (exec .loadKey { demo .poll 2 false with
        creg := { (demo .poll 2 false).creg with timeout := 1 }
        aesu := { din := 0, dout := 0, key := none, phase := .busy .setKey } }) = true := by decide

/-- V-BO-2: the DATA_OUT words of C1 make C1. -/
theorem test_rdout_ecb_dec :
    nextHas (fun t => t.mc.yblk == c1 && t.bus == [.devRead 0x1C 0x82A2E616, .devRead 0x18 0x6646979F, .devRead 0x14 0x7CECD6BC, .devRead 0x10 0xD90FCA7A])
      (exec .ecbDec { demo .rdout 1 true with aesu := { din := 0, dout := c1, key := some 0, phase := .ready } }) = true := by decide +kernel

/-- V-CBC-2, block 1: P2 is written, and MC_IV is the last ciphertext block C2. -/
theorem test_wback_cbc_dec :
    nextHas (fun t => memReadBlock t.buf 0x2010 == p2 && t.creg.iv0 == 0x0FB0C9EC && t.creg.iv3 == 0x2C898AC0
        && statusWord t == 0x006 && t.creg.blkcnt == 2)
      (exec .cbcDec { demo .wback 5 true with
        mc := { (demo .wback 5 true).mc with idx := 1, chain := c1, sblk := c2, yblk := x2 } }) = true := by decide +kernel

/-! ### The device opcodes (V-AESU-1, V-AESU-6) and completion (R130) -/

theorem test_encrypt_starts : nextHas (fun t => t.aesu.phase == .busy .enc) (exec .encrypt (demo .idle 0 true)) = true := by decide
theorem test_encrypt_wedges_busy :
    nextHas (fun t => t.aesu.phase == .wedged)
      (exec .encrypt { demo .idle 0 true with aesu := { din := 0, dout := 0, key := none, phase := .busy .setKey } }) = true := by decide
theorem test_decrypt_starts : nextHas (fun t => t.aesu.phase == .busy .dec) (exec .decrypt (demo .idle 0 true)) = true := by decide
theorem test_set_key_completes :
    nextHas (fun t => t.aesu.key == some p1 && t.aesu.dout == c1 && t.aesu.phase == .ready)
      (exec .setKey { demo .idle 0 true with aesu := { din := p1, dout := c1, key := none, phase := .busy .setKey } }) = true := by decide

/-! ### The host port (V-CREG-1, V-CREG-2, V-CREG-8, V-CREG-10) and the next instruction -/

theorem test_reset_reads : cregValue State.reset 0x34 = 0x00100000 ∧ cregValue State.reset 0x30 = 0 ∧ cregValue State.reset 0x3C = 0 := by
  decide
theorem test_timeout_zero_stores_one :
    nextHas (fun t => cregValue t 0x34 == 1) (hostLine (lineW 0x34 0) (demo .idle 0 true)) = true := by decide
theorem test_write_while_busy_sets_ovr :
    nextHas (fun t => statusWord t == 0x00D && t.creg.len == 0x20) (hostLine (lineW 0x04 0x40) (demo .check 0 true)) = true := by decide
theorem test_byte_write_ignored :
    nextHas (fun t => statusWord t == 0x005 && t.creg.len == 0x20) (hostLine (.cregWrite 0x04 .byte 0x40) (demo .check 0 true)) = true := by
  decide
theorem test_expect_checks_the_last_read :
    nextHas (fun t => t.host.checks == [true])
      (hostLine (.expect 6) { demo .idle 0 true with host := { prog := [], reads := [6, 1], bytes := [], checks := [] } }) = true := by decide

/-- R75: MC's write of a byte the host wrote during the command leaves one other value open to MC's later reads, not the byte from before. -/
theorem test_raced_store_stays_open :
    (mcStoreByte 0x2000 p1 0 { demo .wback 0 true with hostRace := [(0x2000, 5)] }).hostRace.length = 1 ∧
    raced (mcStoreByte 0x2000 p1 0 { demo .wback 0 true with hostRace := [(0x2000, 5)] }).hostRace 0x2000 = true := by decide

/-- R74, R75: a host write outside both ranges while BUSY = 1 is a plain write, also at a byte an earlier command wrote. -/
theorem test_write_outside_the_ranges_is_plain :
    let t := hostStoreByte 0x3000 9 { demo .fetch 0 true with mcRace := [(0x3000, 5)] }
    memRead t.buf 0x3000 = 9 ∧ t.hostRace = [] ∧ t.mcRace = [] := by decide

/-- The first step of ECB_ENC after reset reports KEY_NOT_SET (W5, program PC). -/
theorem test_first_step_after_reset : nextHas (fun t => statusWord t == 0x202) (step (State.reset.withFetchWord 32 0)) = true := by decide

/-! ### Witnesses: for every statement with hypotheses, a concrete state and operands that meet all of them -/

/-- `s` with `t` to move next. -/
def onTurn (t : Turn) (s : State) : State := { s with sched := [t] }

/-- `s` on the host's turn, with the lines `prog`. -/
def hostTurn (prog : List HostLine) (s : State) : State :=
  { s with sched := [.host], host := { prog := prog, reads := [], bytes := [], checks := [] } }

/-- `s` with AESU in `phase`. -/
def withPhase (phase : Phase) (s : State) : State := { s with aesu := { s.aesu with phase := phase } }

theorem witness_XorBlocksIsBytewise : 15 < 16 ∧ blockByte (xorBlocks p2 c1) 15 = 0x9d := by decide
theorem witness_WordsPackBlocksLittleEndian : 3 < 4 ∧ blockWord p1 3 = 0x0F0E0D0C := by decide
theorem witness_BlockBytesLieAtRisingAddresses :
    Mem.wf [(0xFFFFFFFF, 1)] = true ∧ 15 < 16 ∧ ¬ inBlock 0xFFFFFFF8 8 ∧ inBlock 0xFFFFFFF8 7 := by
  refine ⟨by decide, by decide, ?_, 15, by decide, by decide⟩
  rintro ⟨i, hi, h⟩
  have : (0xFFFFFFF8 : Word).toNat = 0xFFFFFFF8 := by decide
  omega
theorem witness_ExactlyFiveWordsAreLegal : (8 : Word) ≠ 0 ∧ (8 : Word) ≠ 1 ∧ (8 : Word) ≠ 2 ∧ (8 : Word) ≠ 4 ∧ (8 : Word) ≠ 5 := by decide
theorem witness_DecodeAfterEncode :
    bitEncoded.ok = true ∧ (Instr.illegalRsvd .dec .cbc 0x1FFFFFFF).wf = true ∧ (Instr.illegalFunc3 .cbc 0).wf = true ∧ Instr.setKey.wf = true := by decide
theorem witness_OpcodesDecodeForEveryLayout :
    bitEncoded.ok = true ∧ (3 : Word) ≠ bitEncoded.opcEncrypt ∧ (3 : Word) ≠ bitEncoded.opcDecrypt ∧ (3 : Word) ≠ bitEncoded.opcSetKey := by
  decide
theorem witness_StepRunsTheDecodedInstruction :
    ((onTurn .mc (demo .check 0 true)).turn = .mc ∧ (onTurn .mc (demo .check 0 true)).mc.st ≠ .idle) ∧
    ((onTurn .mc (demo .idle 0 true)).turn = .mc ∧ (onTurn .mc (demo .idle 0 true)).mc.st = .idle) ∧
    ((onTurn .aesu (withPhase (.busy .dec) (demo .poll 1 true))).turn = .aesu ∧
      (onTurn .aesu (withPhase (.busy .dec) (demo .poll 1 true))).aesu.phase = .busy .dec) ∧
    ((onTurn .aesu (demo .poll 1 true)).turn = .aesu ∧ ∀ op, (onTurn .aesu (demo .poll 1 true)).aesu.phase ≠ .busy op) ∧
    ((hostTurn [] (demo .idle 0 true)).turn = .host ∧ (hostTurn [] (demo .idle 0 true)).host.prog = []) := by
  refine ⟨by decide, by decide, by decide, ⟨by decide, ?_⟩, by decide⟩
  intro op h
  cases h

theorem witness_HostReadReturnsTheRegister :
    let s := fun off => hostTurn [lineR off] (demo .poll 0 true)
    let registers := fun (s : State) => [(0x00, 0), (0x04, s.creg.len), (0x08, s.creg.src), (0x0C, s.creg.dst),
      (0x10, s.creg.iv0), (0x14, s.creg.iv1), (0x18, s.creg.iv2), (0x1C, s.creg.iv3),
      (0x20, 0), (0x24, 0), (0x28, 0), (0x2C, 0),
      (0x30, statusWord s), (0x34, s.creg.timeout), (0x38, s.creg.blkcnt), (0x3C, (0 : Word))]
    (∀ off ∈ [0x00, 0x04, 0x3C], (s off).turn = .host ∧ (s off).host.prog = .cregRead off .word :: []) ∧
    ((0x00, 0) : Nat × Word) ∈ registers (s 0x00) ∧ ((0x04, 0x20) : Nat × Word) ∈ registers (s 0x04) ∧
    ((0x3C, 0) : Nat × Word) ∈ registers (s 0x3C) := by decide
theorem witness_HostWriteWhileIdle :
    let s := hostTurn [lineW 0x34 0] (demo .idle 0 true)
    s.turn = .host ∧ s.host.prog = .cregWrite 0x34 .word 0 :: [] ∧ s.mc.st = .idle ∧
    ((0x34, { s.creg with timeout := 1 }) : Nat × Creg) ∈ [(0x04, { s.creg with len := 0 }),
      (0x34, { s.creg with timeout := if (0 : Word) = 0 then 1 else 0 }), (0x38, s.creg), (0x3C, s.creg)] := by decide
theorem witness_AcceptanceLatchesTheWord :
    (hostTurn [lineW 0x00 0x80000000] (demo .idle 0 true)).turn = .host ∧
    (hostTurn [lineW 0x00 0x80000000] (demo .idle 0 true)).host.prog = .cregWrite 0x00 .word 0x80000000 :: [] ∧
    (hostTurn [lineW 0x00 0x80000000] (demo .idle 0 true)).mc.st = .idle := by decide
theorem witness_HostWriteWhileBusyIsDropped :
    (hostTurn [lineW 0x3C 5] (demo .check 0 true)).turn = .host ∧
    (hostTurn [lineW 0x3C 5] (demo .check 0 true)).host.prog = .cregWrite 0x3C .word 5 :: [] ∧ 0x3C < 0x40 ∧ 0x3C % 4 = 0 ∧
    (hostTurn [lineW 0x3C 5] (demo .check 0 true)).mc.st ≠ .idle := by decide
theorem witness_NarrowOrUnalignedAccessesDoNothing :
    (hostTurn [.cregWrite 0x04 .byte 5] (demo .check 0 true)).turn = .host ∧
    (hostTurn [.cregWrite 0x04 .byte 5] (demo .check 0 true)).host.prog = .cregWrite 0x04 .byte 5 :: [] ∧ Width.byte ≠ .word ∧
    (hostTurn [.cregRead 0x3F .word] (demo .idle 0 true)).host.prog = .cregRead 0x3F .word :: [] ∧ 0x3F < 0x40 ∧ 0x3F % 4 ≠ 0 := by decide
theorem witness_WaitIdleLoopsWhileBusy :
    (hostTurn [.waitIdle] (demo .poll 0 true)).turn = .host ∧ (hostTurn [.waitIdle] (demo .poll 0 true)).host.prog = .waitIdle :: [] := by
  decide
/-- The second block of a command is running: block 0, at 0x2000 to 0x200F, is written. -/
def secondBlock (prog : List HostLine) : State :=
  let s := hostTurn prog (demo .fetch 0 true)
  { s with creg := { s.creg with blkcnt := 1 }, mc := { s.mc with idx := 1 } }

/-- The ranges are 0x1000 to 0x101F and 0x2000 to 0x201F: addresses on both sides of each boundary. -/
theorem witness_HostBufAccesses_busy :
    let s := secondBlock [.bufWrite 0x200F 1]
    s.turn = .host ∧ s.host.prog = .bufWrite 0x200F 1 :: [] ∧ s.mc.st ≠ .idle ∧ Mem.wf s.buf = true ∧
    (let inRanges := fun a : Word => (a - s.creg.src).toNat < s.creg.len.toNat ∨ (a - s.creg.dst).toNat < s.creg.len.toNat
     let written := fun a : Word => (a - s.creg.dst).toNat < 16 * s.creg.blkcnt.toNat
     inRanges 0x200F ∧ written 0x200F ∧ inRanges 0x2010 ∧ ¬ written 0x2010 ∧ inRanges 0x1000 ∧ ¬ written 0x1000 ∧
      ¬ inRanges 0x2020 ∧ ¬ inRanges 0x0FFF) := by decide
theorem witness_HostBufAccesses :
    (hostTurn [.bufWrite 0xFFFFFFFF 1] (demo .idle 0 true)).turn = .host ∧
    (hostTurn [.bufWrite 0xFFFFFFFF 1] (demo .idle 0 true)).host.prog = .bufWrite 0xFFFFFFFF 1 :: [] ∧
    (hostTurn [.bufWrite 0xFFFFFFFF 1] (demo .idle 0 true)).mc.st = .idle ∧
    (hostTurn [.bufRead 0] (demo .wback 0 true)).turn = .host ∧
    (hostTurn [.bufRead 0] (demo .wback 0 true)).host.prog = .bufRead 0 :: [] := by decide

/-- A command has ended, and the host has not read DONE = 1 yet: byte 0x2000 may still be seen as 5. -/
def afterCommand : State :=
  { demo .idle 0 true with
    creg := { (demo .idle 0 true).creg with done := true }
    sched := [.host, .host]
    host := { prog := [.cregRead 0x30 .word, .bufRead 0x2000], reads := [], bytes := [], checks := [] }
    mcRace := [(0x2000, 5)] }

theorem witness_BufIsVisibleAfterDone :
    afterCommand.turn = .host ∧ afterCommand.host.prog = .cregRead 0x30 .word :: .bufRead 0x2000 :: [] ∧ afterCommand.creg.done = true ∧
    ∃ t u, step afterCommand = .next t ∧ t.turn = .host ∧ step t = .next u := ⟨by decide, by decide, by decide, _, _, rfl, rfl, rfl⟩

theorem witness_DataInWrites :
    bitEncoded.ok = true ∧ 3 < 4 ∧ 15 < 16 ∧ (demo .wrdin 0 true).aesu.phase = .ready ∧ (withPhase (.busy .enc) (demo .wrdin 0 true)).aesu.phase = .busy .enc ∧
    (withPhase .wedged (demo .wrdin 0 true)).aesu.phase = .wedged := by decide
theorem witness_ControlWrites :
    bitEncoded.ok = true ∧ (withPhase .fresh (demo .trig 2 false)).aesu.phase = .fresh ∧
    (3 : Word) ≠ bitEncoded.opcEncrypt ∧ (3 : Word) ≠ bitEncoded.opcDecrypt ∧ (3 : Word) ≠ bitEncoded.opcSetKey ∧
    (withPhase (.busy .setKey) (demo .trig 2 false)).aesu.phase = .busy .setKey ∧
    (withPhase .wedged (demo .trig 2 false)).aesu.phase = .wedged := by decide
theorem witness_StatusAndDataOutReads :
    bitEncoded.ok = true ∧ (withPhase (.busy .enc) (demo .poll 0 true)).aesu.phase = .busy .enc ∧
    (demo .rdout 0 true).aesu.phase = .ready ∧ (withPhase .fresh (demo .rdout 0 true)).aesu.phase = .fresh ∧
    (withPhase .fresh (demo .rdout 0 true)).aesu.phase ≠ .ready ∧ (0xFFFFFFFF : Word) ≠ 0 ∧ 3 < 4 := by decide
theorem witness_AccessesWithNoMeaningAreRefused :
    (hostTurn [lineW 0x40 5] (demo .idle 0 true)).turn = .host ∧ 0x40 ≤ 0x40 ∧
    (hostTurn [lineW 0x40 5] (demo .idle 0 true)).host.prog = .cregWrite 0x40 .word 5 :: [] ∧
    (hostTurn [lineR 0x40] (demo .idle 0 true)).host.prog = .cregRead 0x40 .word :: [] ∧
    (let p := Config.dev
     (0x24 ≠ p.dinOff ∧ 0x24 ≠ p.dinOff + 4 ∧ 0x24 ≠ p.dinOff + 8 ∧ 0x24 ≠ p.dinOff + 12 ∧ 0x24 ≠ p.ctrlOff) ∧
     (0x20 ≠ p.doutOff ∧ 0x20 ≠ p.doutOff + 4 ∧ 0x20 ≠ p.doutOff + 8 ∧ 0x20 ≠ p.doutOff + 12 ∧ 0x20 ≠ p.statOff)) := by decide
theorem witness_DeviceOpcodesStart :
    (Instr.setKey, DevOp.setKey) ∈ deviceOpcodes ∧ (demo .trig 2 false).dev.ok = true ∧ (withPhase .fresh (demo .trig 2 false)).aesu.phase = .fresh ∧
    (withPhase (.busy .enc) (demo .trig 2 false)).aesu.phase = .busy .enc ∧ DevOp.enc ≠ .setKey ∧
    (withPhase .wedged (demo .trig 2 false)).aesu.phase = .wedged := by decide
theorem witness_DeviceOpcodesComplete :
    (withPhase (.busy .enc) (demo .poll 0 true)).aesu.phase = .busy .enc ∧ (withPhase (.busy .enc) (demo .poll 0 true)).aesu.key = some 0 ∧
    (withPhase (.busy .dec) (demo .poll 1 true)).aesu.phase = .busy .dec ∧
    (withPhase (.busy .setKey) (demo .poll 2 false)).aesu.phase = .busy .setKey := by decide
theorem witness_WedgedUntilSystemReset :
    (demo .poll 0 true).dev.ok = true ∧ ∃ t, step (onTurn .mcReset (withPhase .wedged (demo .poll 0 true))) = .next t ∧
      (onTurn .mcReset (withPhase .wedged (demo .poll 0 true))).aesu.phase = .wedged ∧
      (onTurn .mcReset (withPhase .wedged (demo .poll 0 true))).turn ≠ .systemReset := ⟨by decide, _, rfl, rfl, by decide⟩

/-- The state each FSM step's statement starts from. -/
theorem witness_CheckFollowsItsPseudocode : (demo .check 0x80000000 true).mc.st = .check := rfl
theorem witness_IllegalCommandsEndAtCheck :
    (demo .check 7 true).mc.st = .check ∧ (∃ m r, Instr.illegalFunc3 .cbc 0 = .illegalFunc3 m r) ∧
    (∃ r, Instr.illegalSetKeyMode1 0 = .illegalSetKeyMode1 r) ∧ (∃ f m r, Instr.illegalRsvd .dec .ecb 1 = .illegalRsvd f m r) :=
  ⟨rfl, ⟨_, _, rfl⟩, ⟨_, rfl⟩, ⟨_, _, _, rfl⟩⟩
theorem witness_EncryptAndDecryptErrorsAtCheck :
    (Instr.cbcDec, Func.dec, Mode.cbc, DevOp.dec) ∈ cryptCommands ∧ (demo .check 5 false).mc.st = .check ∧
    (withLen 0x0F (demo .check 5 false)).creg.len.toNat % 16 ≠ 0 ∧ (demo .check 5 false).creg.len.toNat % 16 = 0 ∧
    (demo .check 5 false).creg.keyed = false := by decide
theorem witness_FetchReadsOneBlock :
    (Instr.cbcEnc, Func.enc, Mode.cbc, DevOp.enc) ∈ cryptCommands ∧ (demo .fetch 4 true).mc.st = .fetch ∧ (demo .fetch 4 true).hostRace = [] := by
  decide
theorem witness_WrdinWritesTheOperand :
    (Instr.loadKey, DevOp.setKey) ∈ legalCommands ∧ (demo .wrdin 2 false).dev.ok = true ∧ (withPhase .fresh (demo .wrdin 2 false)).mc.st = .wrdin ∧
    (withPhase .fresh (demo .wrdin 2 false)).aesu.phase = .fresh ∧ (withPhase (.busy .dec) (demo .wrdin 2 false)).aesu.phase = .busy .dec ∧
    (withPhase .wedged (demo .wrdin 2 false)).aesu.phase = .wedged := by decide
theorem witness_TrigStartsTheOperation :
    (Instr.ecbDec, DevOp.dec) ∈ legalCommands ∧ (demo .trig 1 true).dev.ok = true ∧ (demo .trig 1 true).mc.st = .trig ∧ (demo .trig 1 true).aesu.phase = .ready ∧
    (withPhase (.busy .dec) (demo .trig 1 true)).aesu.phase = .busy .dec ∧ (withPhase .wedged (demo .trig 1 true)).aesu.phase = .wedged := by
  decide
theorem witness_PollFollowsItsPseudocode :
    (Instr.ecbEnc, DevOp.enc) ∈ legalCommands ∧ (withPhase (.busy .enc) (demo .poll 0 true)).mc.st = .poll ∧
    aesuRead (demo .poll 0 true).dev (withPhase (.busy .enc) (demo .poll 0 true)).aesu (demo .poll 0 true).draws (demo .poll 0 true).dev.statOff = .ok 0 ∧
    (demo .poll 0 true).mc.st = .poll ∧
    ∃ v, v ≠ 0 ∧ aesuRead (demo .poll 0 true).dev (demo .poll 0 true).aesu (demo .poll 0 true).draws (demo .poll 0 true).dev.statOff = .ok v :=
  ⟨by decide, rfl, rfl, rfl, _, aesuStatus_ready rfl 0, rfl⟩
theorem witness_RdoutReadsTheResult :
    (Instr.ecbEnc, Func.enc, Mode.ecb, DevOp.enc) ∈ cryptCommands ∧ (demo .rdout 0 true).dev.ok = true ∧ (demo .rdout 0 true).mc.st = .rdout ∧
    (demo .rdout 0 true).aesu.phase = .ready := by decide
theorem witness_WbackWritesOneBlock :
    (Instr.cbcDec, Func.dec, Mode.cbc, DevOp.dec) ∈ cryptCommands ∧ (demo .wback 5 true).mc.st = .wback ∧
    Mem.wf (demo .wback 5 true).buf = true ∧ (demo .wback 5 true).mc.idx.toNat < (demo .wback 5 true).mc.nblk.toNat ∧
    (demo .wback 5 true).hostRace = [] ∧ raceValues [(0x2000, 5)] 0x2000 ≠ [] ∧ raceValues [(0x2000, 5)] 0x2001 = [] ∧ ¬ inBlock (blockAt (demo .wback 5 true).creg.dst (demo .wback 5 true).mc.idx.toNat) 0x2010 := by
  refine ⟨by decide, rfl, by decide, by decide, rfl, by decide, by decide, ?_⟩
  rintro ⟨i, hi, h⟩
  have : (blockAt (demo .wback 5 true).creg.dst (demo .wback 5 true).mc.idx.toNat).toNat = 0x2000 := by decide
  omega
theorem witness_CommandsAreAcceptedFromIdle :
    (Instr.illegalRsvd .enc .ecb 1).format = .cmd ∧ Instr.loadKey.format = .cmd ∧ (demo .idle 0 true).mc.st = .idle := by decide
theorem witness_TrigOfFunc3HasNoOpcode : (demo .trig 3 true).mc.st = .trig := rfl
theorem witness_CommandFrame :
    Instr.cbcEnc.format = .cmd ∧ (∃ t, exec .cbcEnc (demo .wback 4 true) = .next t) ∧ (∃ t, exec .cbcEnc (demo .idle 4 true) = .next t) ∧
    (∃ t, exec .cbcEnc (demo .check 4 true) = .next t) ∧ (∃ t, exec .cbcEnc (demo .fetch 4 true) = .next t) ∧
    Mem.wf (demo .wback 4 true).buf = true ∧ (demo .wback 4 true).dev.ok = true :=
  ⟨rfl, ⟨_, rfl⟩, ⟨_, rfl⟩, ⟨_, rfl⟩, ⟨_, rfl⟩, by decide, by decide⟩
theorem witness_LoadKeyLoadsTheKey :
    (demo .check 2 false).dev.ok = true ∧ (withPhase .fresh (demo .check 2 false)).mc.st = .check ∧ (withPhase .fresh (demo .check 2 false)).aesu.phase = .fresh := by decide
theorem witness_OneBlockIsTransformed :
    (Instr.cbcDec, Func.dec, Mode.cbc, DevOp.dec) ∈ cryptCommands ∧ (demo .fetch 5 true).dev.ok = true ∧ (demo .fetch 5 true).mc.st = .fetch ∧
    (demo .fetch 5 true).aesu.phase = .ready ∧ (demo .fetch 5 true).aesu.key = some 0 ∧ (demo .fetch 5 true).hostRace = [] ∧
    (demo .fetch 5 true).mc.idx.toNat < (demo .fetch 5 true).mc.nblk.toNat := by decide

/-- CBC_DEC of one block at CHECK, with a schedule in which the host writes a byte of BUF outside both ranges meanwhile, and AESU completes
before the first poll. -/
def oneBlock : State :=
  { withLen 0x10 (demo .check 5 true) with
    sched := [.mc, .host, .mc, .mc, .mc, .aesu, .mc, .mc, .mc]
    host := { prog := [.bufWrite 0x2010 7], reads := [], bytes := [], checks := [] } }

theorem oneBlock_ready : ReadyToRun oneBlock 0 := by
  constructor <;> decide

/-- A poll of CBC_DEC with AESU ready goes on to RDOUT, whatever nonzero word STATUS reads. -/
theorem step_poll_ready {t : State} (turn : t.turn = .mc) (st : t.mc.st = .poll) (cmd : decodeCmd t.mc.cmd = .cbcDec)
    (phase : t.aesu.phase = .ready) :
    step t = .next (goto .rdout (pollCounted { t.afterTurn with
      bus := .devRead t.dev.statOff (aesuStatus t.aesu (t.draws + 1)) :: t.bus })) := by
  have e : step t = pollStep .dec t.afterTurn := by
    simp [step, turn, agentStep, mcStep, st, cmd, exec, execCbcDec, commandStep]
  have hv : aesuStatus t.afterTurn.aesu t.afterTurn.draws ≠ 0 := aesuStatus_ready phase _
  rw [e, pollStep_eq]
  unfold pollAnswer
  rw [if_pos hv, if_neg (by decide)]
  rfl

/-- Two ranges with the second above the first, both below 2^32, have no byte in common. -/
theorem ranges_apart {a b : Word} {n : Nat} (h : a.toNat + 16 * n ≤ b.toNat) (hb : b.toNat + 16 * n ≤ 2 ^ 32) :
    rangesDisjoint a b n := by
  rintro i hi j hj c ⟨x, hx, rfl⟩ ⟨y, hy, h'⟩
  simp only [blockAt, BitVec.toNat_add, BitVec.toNat_ofNat] at h'
  omega

/-- The run of `oneBlock` to its end. -/
theorem oneBlock_run : ∃ u, BusyRun oneBlock [(0x2010, 7)] u ∧ u.busy = false ∧ u.creg.err = .none := by
  have h1 := BusyRun.tail (u := _) (.refl (s := oneBlock)) rfl rfl rfl
  have h2 := h1.tail (u := _) rfl rfl rfl
  have h3 := h2.tail (u := _) rfl rfl rfl
  have h4 := h3.tail (u := _) rfl rfl rfl
  have h5 := h4.tail (u := _) rfl rfl rfl
  have h6 := h5.tail (u := _) rfl rfl rfl
  have h7 := h6.tail (u := _) rfl rfl (step_poll_ready rfl rfl rfl rfl)
  have h8 := h7.tail (u := _) rfl rfl rfl
  exact ⟨_, h8.tail (u := _) rfl rfl rfl, rfl, rfl⟩

theorem witness_CommandsRefineTheSpecLoops :
    ReadyToRun oneBlock 0 ∧ devOpOf (funcOf oneBlock) = some .dec ∧ (∃ u, BusyRun oneBlock [(0x2010, 7)] u ∧ u.busy = false) ∧
    ∃ u, BusyRun oneBlock [] u ∧ u.busy = true ∧ u.mc.st ≠ .check :=
  ⟨oneBlock_ready, by decide, oneBlock_run.imp fun _ h => ⟨h.1, h.2.1⟩,
    _, BusyRun.tail (u := _) (.refl (s := oneBlock)) rfl rfl rfl, rfl, by decide⟩

theorem witness_CompletedCommandLeavesTheModeFunction :
    ReadyToRun oneBlock 0 ∧ (∃ u, BusyRun oneBlock [(0x2010, 7)] u ∧ u.busy = false ∧ u.creg.err = .none) ∧
    rangesDisjoint oneBlock.creg.src oneBlock.creg.dst (lenBlocks oneBlock.creg).toNat :=
  ⟨oneBlock_ready, oneBlock_run, ranges_apart (by decide) (by decide)⟩

theorem witness_DecryptInvertsEncrypt :
    Mem.wf [] = true ∧ 2 < 2 ^ 28 ∧ rangesDisjoint 0x1000 0x2000 2 ∧ rangesDisjoint 0x2000 0x3000 2 :=
  ⟨by decide, by decide, ranges_apart (by decide) (by decide), ranges_apart (by decide) (by decide)⟩

/-- CBC_DEC at the last WBACK of its two blocks, with AESU ready. -/
def lastBlock : State :=
  { demo .wback 5 true with
    creg := { (demo .wback 5 true).creg with blkcnt := 1 }
    mc := { (demo .wback 5 true).mc with idx := 1, chain := c1, sblk := c2, yblk := aesD 0 x2, xblk := x2 }
    sched := [.mc] }

/-- LOAD_KEY at its only poll, with AESU still busy. -/
def lastPoll : State :=
  { demo .poll 2 false with
    creg := { (demo .poll 2 false).creg with timeout := 1 }
    aesu := { din := 0, dout := 0, key := none, phase := .busy .setKey }
    sched := [.mc] }

/-- LOAD_KEY at CHECK, with KEYED = 1 before, a bound of one poll, and MC alone scheduled. -/
def rekey : State :=
  { demo .check 2 true with
    creg := { (demo .check 2 true).creg with timeout := 1 }
    sched := [.mc, .mc, .mc, .mc] }

/-- CBC_DEC at a poll, with AESU ready. -/
def readyPoll : State :=
  { demo .poll 5 true with aesu := { din := 0, dout := aesD 0 0, key := some 0, phase := .ready }, sched := [.mc] }

/-- CBC_DEC at TRIG. -/
def atTrig : State := { demo .trig 5 true with sched := [.mc] }

theorem lastBlock_inv : Inv lastBlock where
  buf_wf := by decide
  timeout_ne := by decide
  running := by decide
  check_blkcnt := by decide
  legal := by decide
  load_key_states := by decide
  keyed_running := by decide
  load_key_blkcnt := by decide
  counts := by decide
  polls := by decide
  trig_phase := by decide
  poll_phase h := by cases h
  keyed_phase := by decide
  keyed_key := by decide
  operand h := by cases h <;> contradiction
  loaded := by decide
  result h := by cases h <;> contradiction
  read_result _ _ op k ho hk := by
    cases ho; cases hk
    rfl
  dev_ok := by decide

theorem lastPoll_inv : Inv lastPoll where
  buf_wf := by decide
  timeout_ne := by decide
  running := by decide
  check_blkcnt := by decide
  legal := by decide
  load_key_states := by decide
  keyed_running := by decide
  load_key_blkcnt := by decide
  counts := by decide
  polls := by decide
  trig_phase := by decide
  poll_phase _ := .inl ⟨.setKey, by decide, by decide⟩
  keyed_phase := by decide
  keyed_key := by decide
  operand := by decide
  loaded := by decide
  result _ h := by cases h
  read_result h := by cases h
  dev_ok := by decide

theorem rekey_inv : Inv rekey where
  buf_wf := by decide
  timeout_ne := by decide
  running := by decide
  check_blkcnt := by decide
  legal := by decide
  load_key_states := by decide
  keyed_running := by decide
  load_key_blkcnt := by decide
  counts := by decide
  polls := by decide
  trig_phase := by decide
  poll_phase h := by cases h
  keyed_phase := by decide
  keyed_key := by decide
  operand := by decide
  loaded := by decide
  result h := by cases h <;> contradiction
  read_result h := by cases h
  dev_ok := by decide

theorem readyPoll_inv : Inv readyPoll where
  buf_wf := by decide
  timeout_ne := by decide
  running := by decide
  check_blkcnt := by decide
  legal := by decide
  load_key_states := by decide
  keyed_running := by decide
  load_key_blkcnt := by decide
  counts := by decide
  polls := by decide
  trig_phase := by decide
  poll_phase _ := .inr (.inl rfl)
  keyed_phase := by decide
  keyed_key := by decide
  operand := by decide
  loaded := by decide
  result _ _ op k ho _ hk := by
    cases ho; cases hk
    rfl
  read_result h := by cases h
  dev_ok := by decide

theorem atTrig_inv : Inv atTrig where
  buf_wf := by decide
  timeout_ne := by decide
  running := by decide
  check_blkcnt := by decide
  legal := by decide
  load_key_states := by decide
  keyed_running := by decide
  load_key_blkcnt := by decide
  counts := by decide
  polls := by decide
  trig_phase := by decide
  poll_phase h := by cases h
  keyed_phase := by decide
  keyed_key := by decide
  operand := by decide
  loaded := by decide
  result h := by cases h <;> contradiction
  read_result h := by cases h
  dev_ok := by decide

/-- The invariant says nothing of the host's lines and the schedule. -/
theorem hostTurn_inv {s : State} (prog : List HostLine) (h : Inv s) : Inv (hostTurn prog s) :=
  ⟨h.1, h.2, h.3, h.4, h.5, h.6, h.7, h.8, h.9, h.10, h.11, h.12, h.13, h.14, h.15, h.16, h.17, h.18, h.19⟩

theorem witness_StatusWhileBusy : Inv lastPoll ∧ lastPoll.busy = true := ⟨lastPoll_inv, by decide⟩
theorem witness_StepsKeepTheInvariant : Inv lastBlock ∧ ∃ t, step lastBlock = .next t := ⟨lastBlock_inv, _, rfl⟩
theorem witness_EveryStepCompletes :
    Inv (hostTurn [lineW 0x3C 5] readyPoll) ∧ HostInRange (hostTurn [lineW 0x3C 5] readyPoll) := by
  refine ⟨hostTurn_inv _ readyPoll_inv, ?_⟩
  simp [HostInRange, hostTurn, lineW, lineInRange, outsideCreg, Config.cregBytes]
theorem witness_RdoutOnlyAfterNonzeroStatus :
    readyPoll.dev.ok = true ∧ ∃ t, step readyPoll = .next t ∧ t.mc.st = .rdout ∧ readyPoll.mc.st ≠ .rdout :=
  ⟨by decide, _, step_poll_ready rfl rfl rfl rfl, rfl, by decide⟩
theorem witness_OnlyTheseActionsWriteKeyed :
    Inv rekey ∧ ∃ t, step rekey = .next t ∧ t.creg.keyed ≠ rekey.creg.keyed := ⟨rekey_inv, _, rfl, by decide⟩
theorem witness_OnlyTheseActionsWriteIv :
    Inv lastBlock ∧ ∃ t, step lastBlock = .next t ∧ ivBlock t.creg ≠ ivBlock lastBlock.creg := by
  refine ⟨lastBlock_inv, _, rfl, ?_⟩
  decide +kernel
theorem witness_OnlyHostAndWbackWriteBuf :
    Inv (hostTurn [.bufWrite 0 1] lastPoll) ∧
    ∃ t, step (hostTurn [.bufWrite 0 1] lastPoll) = .next t ∧ t.buf ≠ (hostTurn [.bufWrite 0 1] lastPoll).buf :=
  ⟨hostTurn_inv _ lastPoll_inv, _, rfl, by decide⟩
theorem witness_EncryptAndDecryptOnlyWithAKey :
    Inv atTrig ∧ (∃ t, step atTrig = .next t ∧ t.aesu.phase = .busy .dec) ∧ atTrig.aesu.phase ≠ .busy .dec ∧ DevOp.dec ≠ .setKey :=
  ⟨atTrig_inv, ⟨_, rfl, rfl⟩, by decide, by decide⟩
theorem witness_NoStepChangesTheLayout :
    (State.resetFor bitEncoded).dev.ok = true ∧ ∃ t, step (hostTurn [] (State.resetFor bitEncoded)) = .next t := ⟨by decide, _, rfl⟩
theorem witness_ResetMeetsTheInvariant : bitEncoded.ok = true := by decide
theorem witness_DeadRegistersAreNeverRead : (demo .wback 5 true).dev.ok = true := by decide
theorem witness_TimeoutLeavesTheBlockUnwritten :
    Inv lastPoll ∧ lastPoll.turn = .mc ∧ lastPoll.mc.st = .poll ∧
    ∃ t, step lastPoll = .next t ∧ t.mc.st = .idle ∧ t.creg.err = .deviceTimeout :=
  ⟨lastPoll_inv, rfl, rfl, _, rfl, rfl, rfl⟩
theorem witness_ResetPutsTheStatedValues : ∃ s, mcReset lastBlock = mcReset s := ⟨_, rfl⟩
theorem witness_ResetsAbandonTheCommand :
    (onTurn .mcReset lastBlock).turn = .mcReset ∧ (onTurn .systemReset lastBlock).turn = .systemReset := by decide
theorem witness_EveryMcStepCountsDown :
    rekey.mc.st = .check ∧ decodeCmd rekey.mc.cmd = .loadKey ∧ (demo .check 5 true).mc.st = .check ∧ funcOf (demo .check 5 true) ≠ .setKey ∧
    Inv lastPoll ∧ lastPoll.mc.st ≠ .idle ∧ lastPoll.turn = .mc ∧ ∃ t, step lastPoll = .next t :=
  ⟨rfl, by decide, rfl, by decide, lastPoll_inv, by decide, rfl, _, rfl⟩
theorem witness_EveryCommandEnds :
    Inv rekey ∧ HostInRange rekey ∧ rekey.mc.st ≠ .idle ∧ (∀ x ∈ rekey.sched, x ≠ .mcReset ∧ x ≠ .systemReset) ∧
    stepsLeft rekey ≤ rekey.sched.count .mc := by
  refine ⟨rekey_inv, ?_, by decide, by decide, by decide⟩
  intro l hl
  cases hl

end Sys2Proof.Tests
end

section
/-! PROOFS. The decoder on the words the encoder makes, and the opcodes of CONTROL (R91 to R97). -/

namespace Sys2Proof.Machine

/-- A word with FUNC = 3 is of that class, whatever its other fields (R96). -/
@[simp] theorem decodeCmd_cmdWord_reserved (m : Mode) (r : BitVec 29) :
    decodeCmd (cmdWord .reserved m r) = .illegalFunc3 m r := by
  simp [decodeCmd]

/-- A word with FUNC = 2 and MODE = 1 is of that class, whatever its RSVD bits (R96). -/
@[simp] theorem decodeCmd_cmdWord_setKey_cbc (r : BitVec 29) :
    decodeCmd (cmdWord .setKey .cbc r) = .illegalSetKeyMode1 r := by
  simp [decodeCmd]

/-- The fields of a well-formed `illegalRsvd` are a legal FUNC and MODE with a bit of RSVD set (R94). -/
theorem wf_illegalRsvd_iff (f : Func) (m : Mode) (r : BitVec 29) :
    (Instr.illegalRsvd f m r).wf = true ↔ r ≠ 0 ∧ f ≠ .reserved ∧ ¬ (f = .setKey ∧ m = .cbc) := by
  simp [Instr.wf, and_assoc, imp_iff_not_or]

/-- A word with a bit of RSVD set that is in neither other illegal class is of the third (R96). -/
theorem decodeCmd_cmdWord_rsvd {f : Func} {m : Mode} {r : BitVec 29} (hr : r ≠ 0) (hf : f ≠ .reserved)
    (hk : ¬ (f = .setKey ∧ m = .cbc)) : decodeCmd (cmdWord f m r) = .illegalRsvd f m r := by
  cases f with
  | reserved => exact absurd rfl hf
  | setKey =>
    cases m with
    | cbc => exact absurd ⟨rfl, rfl⟩ hk
    | ecb => simpa [decodeCmd] using hr
  | enc => cases m <;> simpa [decodeCmd] using hr
  | dec => cases m <;> simpa [decodeCmd] using hr

/-- The opcode of a device operation is read back from CONTROL as its instruction (R97). -/
theorem decodeAs_opc {p : DevParams} (h : p.ok = true) (op : DevOp) :
    decodeAs p .devControl (p.opc op) = some (devInstr op) := by
  simp [decodeAs, decodeControl_opc h]

/-- A CONTROL word that is none of the three opcodes is rejected by name (R98). -/
theorem decodeControl_other {p : DevParams} {w : Word} (he : w ≠ p.opcEncrypt) (hd : w ≠ p.opcDecrypt) (hk : w ≠ p.opcSetKey) :
    decodeControl p w = .error (.notAnOpcode w) := by
  simp [decodeControl, he, hd, hk]

/-- Settles O7, by cases on the instruction: the legal words are literals, an illegal word is read field by field, and a device opcode is
found by CONTROL because R6 keeps the opcodes apart. -/
theorem decodeAfterEncode : Obligations.DecodeAfterEncode := by
  intro p i hp hwf
  cases i with
  | ecbEnc => exact congrArg some (by decide : decodeCmd 0x00000000 = .ecbEnc)
  | ecbDec => exact congrArg some (by decide : decodeCmd 0x00000001 = .ecbDec)
  | loadKey => exact congrArg some (by decide : decodeCmd 0x00000002 = .loadKey)
  | cbcEnc => exact congrArg some (by decide : decodeCmd 0x00000004 = .cbcEnc)
  | cbcDec => exact congrArg some (by decide : decodeCmd 0x00000005 = .cbcDec)
  | illegalFunc3 m r => exact congrArg some (decodeCmd_cmdWord_reserved m r)
  | illegalSetKeyMode1 r => exact congrArg some (decodeCmd_cmdWord_setKey_cbc r)
  | illegalRsvd f m r =>
    obtain ⟨hr, hf, hk⟩ := (wf_illegalRsvd_iff f m r).1 hwf
    exact congrArg some (decodeCmd_cmdWord_rsvd hr hf hk)
  | encrypt => exact decodeAs_opc hp .enc
  | decrypt => exact decodeAs_opc hp .dec
  | setKey => exact decodeAs_opc hp .setKey

/-- Settles O9: each opcode is read back, and any other word falls through all three comparisons. -/
theorem opcodesDecodeForEveryLayout : Obligations.OpcodesDecodeForEveryLayout :=
  ⟨configDev_ok, fun _ hp => ⟨decodeControl_opc hp, fun _ => decodeControl_other⟩⟩

end Sys2Proof.Machine
end

section
/-! PROOFS. What `k` rounds of the loops of R192 to R195 leave, in the terms of R197, and the decryption loop after the encryption loop. -/

namespace Sys2Proof.Machine

open Sys2Proof.Safety

/-- One more round of the loop: a block read, transformed and written (R163, R164). -/
theorem blockLoop_succ (func : Func) (mode : Mode) (op : DevOp) (key : Block) (src dst : Word) (buf : Mem) (iv : Block) {k : Nat}
    (hk : k < 2 ^ 28) :
    blockLoop func mode op key src dst buf iv (k + 1) =
      let r := blockLoop func mode op key src dst buf iv k
      let x := memReadBlock r.1 (blockAt src k)
      let y := transform op key (pre func mode r.2 x)
      (memWriteBlock r.1 (blockAt dst k) (post func mode r.2 y), chainNext func mode r.2 x y) := by
  rw [← blockAddress_ofNat src hk, ← blockAddress_ofNat dst hk]
  rfl

/-- The chaining value after `k` blocks of input `inp`: R197's in CBC, and the IV in ECB, which keeps it (R186). -/
def chainAfter (func : Func) (mode : Mode) (key iv : Block) (inp : Nat → Block) (k : Nat) : Block :=
  match mode with
  | .ecb => iv
  | .cbc => expectedIv func key iv inp k

@[simp] theorem chainAfter_zero (func : Func) (mode : Mode) (key iv : Block) (inp : Nat → Block) :
    chainAfter func mode key iv inp 0 = iv := by
  cases mode <;> rfl

/-- In encryption R197's chaining value is `c[k-1]`, with `c[-1]` = IV. -/
@[simp] theorem expectedIv_enc (key iv : Block) (inp : Nat → Block) (k : Nat) : expectedIv .enc key iv inp k = cbcChain key iv inp k := by
  cases k <;> rfl

/-- One round of the datapath writes the block R197 gives (R184, R185). -/
theorem post_transform_eq_expectedBlock {func : Func} {op : DevOp} (hop : devOpOf func = some op) (hf : func ≠ .setKey) (mode : Mode)
    (key iv : Block) (inp : Nat → Block) (k : Nat) :
    let c := chainAfter func mode key iv inp k
    post func mode c (transform op key (pre func mode c (inp k))) = expectedBlock func mode key iv inp k := by
  cases func with
  | enc =>
    cases hop
    cases mode <;> simp [chainAfter, post, pre, transform, expectedBlock, cbcChain]
  | dec =>
    cases hop
    cases mode <;> simp [chainAfter, post, pre, transform, expectedBlock, expectedIv]
  | setKey => exact absurd rfl hf
  | reserved => cases hop

/-- One round of the datapath leaves the chaining value R197 gives (R186). -/
theorem chainNext_eq_chainAfter {func : Func} {op : DevOp} (hop : devOpOf func = some op) (hf : func ≠ .setKey) (mode : Mode)
    (key iv : Block) (inp : Nat → Block) (k : Nat) :
    let c := chainAfter func mode key iv inp k
    chainNext func mode c (inp k) (transform op key (pre func mode c (inp k))) = chainAfter func mode key iv inp (k + 1) := by
  cases func with
  | enc =>
    cases hop
    cases mode <;> simp [chainAfter, chainNext, pre, transform, cbcChain]
  | dec =>
    cases hop
    cases mode <;> simp [chainAfter, chainNext, expectedIv]
  | setKey => exact absurd rfl hf
  | reserved => cases hop

/-- The blocks of the source range in `buf`. -/
def inputBlocks (buf : Mem) (src : Word) (i : Nat) : Block := memReadBlock buf (blockAt src i)

/-- Where the loop on `buf` stands after `k` of `n` rounds, with BUF `m` and chaining value `c`: the source blocks still to be read are the
original ones, the first `k` destination blocks are R197's, and so is the chaining value. -/
structure LoopAt (func : Func) (mode : Mode) (key iv : Block) (src dst : Word) (buf : Mem) (n k : Nat) (m : Mem) (c : Block) :
    Prop where
  wf : Mem.wf m = true
  unread : ∀ i, k ≤ i → i < n → memReadBlock m (blockAt src i) = inputBlocks buf src i
  written : ∀ i < k, memReadBlock m (blockAt dst i) = expectedBlock func mode key iv (inputBlocks buf src) i
  chain : c = chainAfter func mode key iv (inputBlocks buf src) k

/-- Destination block `k` has no byte in common with a source block of a later round, for ranges disjoint or the same (R197). -/
theorem later_source_apart {src dst : Word} {n : Nat} (hn : n < 2 ^ 28) (hr : rangesDisjoint src dst n ∨ dst = src) {i k : Nat}
    (hki : k < i) (hi : i < n) {c : Nat} (hc : inBlock (blockAt src i) c) : ¬ inBlock (blockAt dst k) c := by
  obtain hd | rfl := hr
  · exact hd i hi k (hki.trans hi) c hc
  · exact inBlock_other (hi.trans hn) (by omega) hki.ne' hc

section
variable {func : Func} {op : DevOp} (hop : devOpOf func = some op) (hf : func ≠ .setKey) {mode : Mode} {key iv : Block}
  {src dst : Word} {buf : Mem} {n k : Nat} (hn : n < 2 ^ 28) (hr : rangesDisjoint src dst n ∨ dst = src)
include hop hf hn hr

/-- One more round keeps to R197. -/
theorem LoopAt.next {m : Mem} {c : Block} (hk : k < n) (h : LoopAt func mode key iv src dst buf n k m c) :
    let x := memReadBlock m (blockAt src k)
    let y := transform op key (pre func mode c x)
    LoopAt func mode key iv src dst buf n (k + 1) (memWriteBlock m (blockAt dst k) (post func mode c y)) (chainNext func mode c x y) := by
  obtain ⟨hwf, hunread, hwritten, rfl⟩ := h
  dsimp only
  rw [hunread k le_rfl hk, post_transform_eq_expectedBlock hop hf, chainNext_eq_chainAfter hop hf]
  refine ⟨memWriteBlock_wf _ _ hwf, fun i hki hi => ?_, fun i hi => ?_, rfl⟩
  · rw [memReadBlock_writeBlock_other hwf _ fun c => later_source_apart hn hr hki hi]
    exact hunread i (by omega) hi
  · obtain rfl | hlt := Nat.eq_or_lt_of_le (Nat.le_of_lt_succ hi)
    · exact memReadBlock_writeBlock hwf _ _
    · rw [memReadBlock_writeBlock_other hwf _ fun c => inBlock_other (by omega) (by omega) hlt.ne]
      exact hwritten i hlt

/-- R197 for the loop: for ranges disjoint or the same, any number of its rounds leaves what R197 says. -/
theorem blockLoop_at (hw : Mem.wf buf = true) (hk : k ≤ n) :
    LoopAt func mode key iv src dst buf n k (blockLoop func mode op key src dst buf iv k).1
      (blockLoop func mode op key src dst buf iv k).2 := by
  induction k with
  | zero => exact ⟨hw, fun _ _ _ => rfl, fun i hi => absurd hi i.not_lt_zero, (chainAfter_zero ..).symm⟩
  | succ k ih =>
    rw [blockLoop_succ _ _ _ _ _ _ _ _ (by omega)]
    dsimp only
    exact LoopAt.next hop hf hn hr hk (ih (Nat.le_of_succ_le hk))

end

@[simp] theorem aesD_aesE (k x : Block) : aesD k (aesE k x) = x := (Config.aes k).symm_apply_apply x

@[simp] theorem aesE_aesD (k x : Block) : aesE k (aesD k x) = x := (Config.aes k).apply_symm_apply x

/-- R200, block by block: R197's decryption of the first `n` blocks of R197's encryption gives the input back. -/
theorem expectedBlock_dec_enc (mode : Mode) (key iv : Block) {inp mid : Nat → Block} {n : Nat}
    (hmid : ∀ i < n, mid i = expectedBlock .enc mode key iv inp i) {i : Nat} (hi : i < n) :
    expectedBlock .dec mode key iv mid i = inp i := by
  cases mode with
  | ecb => simp [expectedBlock, hmid i hi]
  | cbc =>
    have hprev : (if i = 0 then iv else mid (i - 1)) = cbcChain key iv inp i := by
      cases i with
      | zero => rfl
      | succ j => simp [hmid j (by omega), expectedBlock]
    simp only [expectedBlock] at hmid ⊢
    rw [hprev, hmid i hi, cbcChain, aesD_aesE, xorBlocks_cancel]

/-- R200 in CBC: decryption of the ciphertext ends with the chaining value encryption ended with. -/
theorem expectedIv_dec_enc (key iv : Block) {inp mid : Nat → Block} {n : Nat}
    (hmid : ∀ i < n, mid i = expectedBlock .enc .cbc key iv inp i) : expectedIv .dec key iv mid n = expectedIv .enc key iv inp n := by
  cases n with
  | zero => rfl
  | succ k => simp [expectedIv, hmid k (by omega), expectedBlock]

/-- Settles O45: both loops leave what R197 says (`blockLoop_at`), and R197's decryption undoes R197's encryption block by block. -/
theorem decryptInvertsEncrypt : Obligations.DecryptInvertsEncrypt := by
  intro mode key iv src mid dst buf n hw hn hsm hmd
  dsimp only
  have henc := blockLoop_at (func := .enc) (mode := mode) (key := key) (iv := iv) rfl (by decide) hn hsm hw le_rfl
  have hdec := blockLoop_at (func := .dec) (mode := mode) (key := key) (iv := iv) rfl (by decide) hn hmd henc.wf le_rfl
  refine ⟨fun i hi => ?_, ?_⟩
  · rw [hdec.written i hi]
    exact expectedBlock_dec_enc mode key iv henc.written hi
  · rintro rfl
    rw [hdec.chain, henc.chain]
    exact expectedIv_dec_enc key iv henc.written

end Sys2Proof.Machine
end

section
/-! PROOFS. Blocks, the AES functions, the layout and the state after reset (R6, R8, R10, R11, R20, R250). -/

namespace Sys2Proof.Machine

open Sys2Proof.Safety

/-- CHECK keeps the layout (R6). -/
theorem CheckMove.dev_eq {s t : State} (h : CheckMove s t) : t.dev = s.dev := by
  cases h with
  | illegal _ eq => rw [eq, checkIllegal, finish_dev]
  | loadKey _ _ _ eq => rw [eq, checkLoadKey_dev]
  | crypt _ _ _ _ eq =>
    subst eq
    unfold checkCrypt
    split_ifs <;> rfl

/-- POLL keeps the layout, whatever it read (R6). -/
theorem pollAnswer_dev (func : Func) (v : Word) (s : State) : (pollAnswer func v s).dev = s.dev := by
  obtain ⟨_, _, h⟩ | ⟨_, _, h⟩ | ⟨_, _, h⟩ | ⟨_, _, h⟩ := pollAnswer_cases func v s <;> rw [h] <;> rfl

/-- WBACK keeps the layout, of the last block and of any other (R6). -/
theorem wbackStep_dev (func : Func) (mode : Mode) (s : State) : (wbackStep func mode s).dev = s.dev := by
  by_cases h : s.mc.idx.toNat + 1 = s.mc.nblk.toNat
  · rw [wbackStep_last h, wbackStored_dev]
  · rw [wbackStep_more h, wbackStored_dev]

/-- Every step of MC keeps the layout (R6). -/
theorem McMove.dev_eq {s t : State} (h : McMove s t) : t.dev = s.dev := by
  cases h with
  | check _ move => exact move.dev_eq
  | fetch _ eq => rw [eq]; rfl
  | wrdin _ eq => rw [eq]
  | trig _ _ _ eq => rw [eq]
  | poll _ eq => rw [eq, pollAnswer_dev]
  | rdout _ eq => rw [eq]
  | wback _ eq => rw [eq, wbackStep_dev]

/-- Every step of the system keeps the layout (R6). -/
theorem StepMove.dev_eq {s t : State} (h : StepMove s t) : t.dev = s.dev := by
  cases h with
  | host _ eq => exact (hostStep_dev eq).trans (afterTurn_dev s)
  | mcIdle _ _ eq => rw [eq, afterTurn_dev]
  | mc _ _ move => exact move.dev_eq
  | complete _ _ _ eq => rw [eq, afterTurn_dev]
  | aesuIdle _ _ eq => rw [eq, afterTurn_dev]
  | mcReset _ eq => rw [eq, mcReset_dev, afterTurn_dev]
  | systemReset _ eq => rw [eq, systemReset_dev, afterTurn_dev]

/-- Settles O48, by the moves a step can make. -/
theorem noStepChangesTheLayout : Obligations.NoStepChangesTheLayout := fun _ _ hd h => (step_move hd h).dev_eq

/-- Settles O1. -/
theorem xorBlocksIsBytewise : Obligations.XorBlocksIsBytewise := fun a b i _ => blockByte_xor a b i

/-- Word `j` of a block is made of its bytes `4j` to `4j+3`, the lowest in the low bits (R8). -/
theorem blockWord_eq_wordOfBytes (b : Block) (j : Nat) :
    blockWord b j = wordOfBytes (blockByte b (4 * j)) (blockByte b (4 * j + 1)) (blockByte b (4 * j + 2)) (blockByte b (4 * j + 3)) := by
  apply BitVec.eq_of_getLsbD_eq
  intro i hi
  simp only [getLsbD_wordOfBytes, blockWord, blockByte, BitVec.getLsbD_extractLsb', hi, decide_true, Bool.true_and]
  split_ifs with h0 h1 h2
  · simp only [h0, decide_true, Bool.true_and]
    exact congrArg _ (by omega)
  · simp only [h1, decide_true, Bool.true_and]
    exact congrArg _ (by omega)
  · simp only [h2, decide_true, Bool.true_and]
    exact congrArg _ (by omega)
  · simp only [show i - 8 - 8 - 8 < 8 by omega, decide_true, Bool.true_and]
    exact congrArg _ (by omega)

/-- Settles O2. -/
theorem wordsPackBlocksLittleEndian : Obligations.WordsPackBlocksLittleEndian :=
  ⟨fun b j _ => blockWord_eq_wordOfBytes b j, blockOfWords_words, fun _ _ _ _ =>
    ⟨blockWord_ofWords_0 .., blockWord_ofWords_1 .., blockWord_ofWords_2 .., blockWord_ofWords_3 ..⟩⟩

/-- Settles O3: AES_D is the inverse of the bijection AES_E (R11). -/
theorem aesFunctionsAreInverse : Obligations.AesFunctionsAreInverse := fun k x => ⟨aesD_aesE k x, aesE_aesD k x⟩

/-- The state after a system reset has the invariant, at every layout that meets R6: MC is in IDLE, so only the clauses about BUF,
MC_TIMEOUT, KEYED and the layout have anything to say. -/
theorem resetFor_inv {p : DevParams} (h : p.ok = true) : Inv (State.resetFor p) where
  buf_wf := rfl
  timeout_ne := (by decide : Config.timeoutReset ≠ 0)
  running h := by cases h
  check_blkcnt _ := rfl
  legal h := by cases h
  load_key_states h := by rcases h with h | h | h <;> cases h
  keyed_running h := by cases h
  load_key_blkcnt _ _ := rfl
  counts h := by cases h
  polls h := by cases h
  trig_phase _ := .inl rfl
  poll_phase h := by cases h
  keyed_phase h := by cases h
  keyed_key h := by cases h
  operand h := by rcases h with h | h <;> cases h
  loaded h := by cases h
  result h := by rcases h with h | h <;> cases h
  read_result h := by cases h
  dev_ok := h

/-- Settles O46; the default layout of `State.reset` meets R6. -/
theorem resetMeetsTheInvariant : Obligations.ResetMeetsTheInvariant :=
  ⟨resetFor_inv configDev_ok, fun _ => resetFor_inv⟩

end Sys2Proof.Machine
end

section
/-! PROOFS. Every step keeps the invariant (R28, R31, R35, R36, R39, R120, R127, R137, R196). -/

namespace Sys2Proof.Safety

open Sys2Proof.Machine

/-! The clauses of the invariant in groups: about the key, about the command's operands and counts, about AESU. -/

/-- With KEYED = 1 AESU has completed its last operation and holds a key, unless it is wedged (R137): the invariant's two clauses about
KEYED, for a state in which MC does not poll. -/
def KeyReady (s : State) : Prop :=
  s.creg.keyed = true → (s.aesu.phase = .ready ∨ s.aesu.phase = .wedged) ∧ (s.aesu.phase ≠ .wedged → s.aesu.key ≠ none)

theorem Inv.keyReady {s : State} (h : Inv s) (hst : s.mc.st ≠ .poll) : KeyReady s :=
  fun hk => ⟨h.keyed_phase hk hst, h.keyed_key hk⟩

theorem KeyReady.congr {s t : State} (h : KeyReady s) (hk : t.creg.keyed = s.creg.keyed) (ha : t.aesu = s.aesu) : KeyReady t := by
  rw [KeyReady, hk, ha]
  exact h

/-- With KEYED = 0 nothing is asked of AESU's key. -/
theorem keyReady_of_not_keyed {s : State} (h : s.creg.keyed = false) : KeyReady s := fun hk => by simp [h] at hk

/-- What the invariant says of CREG and the latched operands of a command past CHECK. -/
structure InCommand (s : State) : Prop where
  timeout_ne : s.creg.timeout ≠ 0
  not_done : s.creg.done = false ∧ s.creg.err = .none
  legal : legalWord s.mc.cmd = true
  keyed : s.creg.keyed = (funcOf s != .setKey)
  load_key_blkcnt : funcOf s = .setKey → s.creg.blkcnt = 0
  counts : funcOf s ≠ .setKey → s.mc.idx.toNat < s.mc.nblk.toNat ∧ s.mc.nblk = lenBlocks s.creg ∧ lenAligned s.creg = true ∧
    s.creg.blkcnt = s.mc.idx.setWidth 32

theorem Inv.inCommand {s : State} (h : Inv s) {x : St} (hst : s.mc.st = x) (hi : x ≠ .idle) (hc : x ≠ .check) : InCommand s := by
  obtain ⟨hp, hb⟩ := pastCheck_of hst hi hc
  exact ⟨h.timeout_ne, h.running hb, h.legal hp, h.keyed_running hp, h.load_key_blkcnt hp, h.counts hp⟩

/-- The invariant's clauses about AESU, as it stands towards MC's transaction (R120, R127 to R130, R137). -/
structure AesuFacts (s : State) : Prop where
  trig_phase : s.mc.st = .trig → s.aesu.phase = .fresh ∨ s.aesu.phase = .ready ∨ s.aesu.phase = .wedged
  poll_phase : s.mc.st = .poll →
    (∃ op, devOpOf (funcOf s) = some op ∧ s.aesu.phase = .busy op) ∨ s.aesu.phase = .ready ∨ s.aesu.phase = .wedged
  keyed_phase : s.creg.keyed = true → s.mc.st ≠ .poll → s.aesu.phase = .ready ∨ s.aesu.phase = .wedged
  keyed_key : s.creg.keyed = true → s.aesu.phase ≠ .wedged → s.aesu.key ≠ none
  operand : s.mc.st = .trig ∨ s.mc.st = .poll → s.aesu.phase ≠ .wedged → s.aesu.din = s.mc.xblk
  loaded : s.mc.st = .poll → funcOf s = .setKey → s.aesu.phase = .ready → s.aesu.key = some s.mc.xblk
  result : s.mc.st = .poll ∨ s.mc.st = .rdout → s.aesu.phase = .ready → ∀ op k, devOpOf (funcOf s) = some op → op ≠ .setKey →
    s.aesu.key = some k → s.aesu.dout = transform op k s.mc.xblk
  read_result : s.mc.st = .wback → s.aesu.phase = .ready → ∀ op k, devOpOf (funcOf s) = some op →
    s.aesu.key = some k → s.mc.yblk = transform op k s.mc.xblk

/-- Where no operand is on its way to AESU and no result on its way back, only the key matters. -/
theorem KeyReady.aesuFacts {s t : State} (h : KeyReady s) (hkeyed : t.creg.keyed = s.creg.keyed) (ha : t.aesu = s.aesu)
    (ht : t.mc.st ≠ .trig) (hp : t.mc.st ≠ .poll) (hr : t.mc.st ≠ .rdout) (hw : t.mc.st ≠ .wback) : AesuFacts t where
  trig_phase e := absurd e ht
  poll_phase e := absurd e hp
  keyed_phase hk _ := (h.congr hkeyed ha hk).1
  keyed_key hk := (h.congr hkeyed ha hk).2
  operand e := (e.elim ht hp).elim
  loaded e := absurd e hp
  result e := (e.elim hp hr).elim
  read_result e := absurd e hw

/-- Of a wedged AESU nothing is asked (R139). -/
theorem aesuFacts_of_wedged {s : State} (h : s.aesu.phase = .wedged) : AesuFacts s where
  trig_phase _ := .inr (.inr h)
  poll_phase _ := .inr (.inr h)
  keyed_phase _ _ := .inr h
  keyed_key _ hn := absurd h hn
  operand _ hn := absurd h hn
  loaded _ _ hr := by simp [h] at hr
  result _ hr := by simp [h] at hr
  read_result _ hr := by simp [h] at hr

/-- The invariant in IDLE and at CHECK: past CHECK nothing is asked, and AESU is between transactions. -/
theorem inv_of_outside {s : State} (hst : s.mc.st = .idle ∨ s.mc.st = .check) (hwf : Mem.wf s.buf = true) (hd : s.dev.ok = true)
    (ht : s.creg.timeout ≠ 0) (hk : KeyReady s)
    (hc : s.mc.st = .check → s.creg.done = false ∧ s.creg.err = .none ∧ s.creg.blkcnt = 0) : Inv s := by
  have hpast : pastCheck s ≠ true := by rcases hst with e | e <;> simp [pastCheck, e]
  have ha : AesuFacts s := by rcases hst with e | e <;> exact hk.aesuFacts rfl rfl (by simp [e]) (by simp [e]) (by simp [e]) (by simp [e])
  exact { ha with
    buf_wf := hwf
    timeout_ne := ht
    running := fun hb => by
      obtain ⟨h1, h2, -⟩ := hc (hst.resolve_left (by simpa [State.busy] using hb))
      exact ⟨h1, h2⟩
    check_blkcnt := fun e => (hc e).2.2
    legal := fun e => absurd e hpast
    load_key_states := fun e => by rcases hst with e' | e' <;> simp [e'] at e
    keyed_running := fun e => absurd e hpast
    load_key_blkcnt := fun e => absurd e hpast
    counts := fun e => absurd e hpast
    polls := fun e => by rcases hst with e' | e' <;> simp [e'] at e
    dev_ok := hd }

/-- The invariant past CHECK, from its groups. -/
theorem inv_of_inCommand {s : State} (hst : s.mc.st ≠ .check) (hwf : Mem.wf s.buf = true) (hd : s.dev.ok = true) (hc : InCommand s)
    (ha : AesuFacts s) (hl : s.mc.st = .fetch ∨ s.mc.st = .rdout ∨ s.mc.st = .wback → funcOf s ≠ .setKey)
    (hp : s.mc.st = .poll → s.mc.pcnt < s.creg.timeout) : Inv s :=
  { ha with
    buf_wf := hwf
    timeout_ne := hc.timeout_ne
    running := fun _ => hc.not_done
    check_blkcnt := fun e => absurd e hst
    legal := fun _ => hc.legal
    load_key_states := hl
    keyed_running := fun _ => hc.keyed
    load_key_blkcnt := fun _ => hc.load_key_blkcnt
    counts := fun _ => hc.counts
    polls := hp
    dev_ok := hd }

/-- The invariant does not look at the schedule, the draw counter, the host, the bus log or the races. -/
theorem Inv.congr {s t : State} (h : Inv s) (hd : t.dev = s.dev) (hc : t.creg = s.creg) (hm : t.mc = s.mc) (ha : t.aesu = s.aesu)
    (hwf : Mem.wf t.buf = true) : Inv t := by
  obtain ⟨dev, creg, mc, aesu, buf⟩ := t
  dsimp only at hd hc hm ha
  subst hd hc hm ha
  exact { h with buf_wf := hwf }

theorem Inv.afterTurn {s : State} (h : Inv s) : Inv s.afterTurn := h.congr rfl rfl rfl rfl h.buf_wf

/-- While MC polls, a busy AESU runs the operation of the command (R127). -/
theorem Inv.busy_op {s : State} (h : Inv s) (hst : s.mc.st = .poll) {op op' : DevOp} (hp : s.aesu.phase = .busy op)
    (hop : devOpOf (funcOf s) = some op') : op' = op := by
  obtain ⟨o, ho, hb⟩ | hr | hw := h.poll_phase hst
  · cases hp.symm.trans hb
    exact Option.some.inj (hop.symm.trans ho)
  · cases hp.symm.trans hr
  · cases hp.symm.trans hw

/-- After a block's polling AESU is not busy (R127). -/
theorem Inv.not_busy_in_block {s : State} (h : Inv s) (hst : s.mc.st = .rdout ∨ s.mc.st = .wback) (op : DevOp) :
    s.aesu.phase ≠ .busy op := by
  have hpast : pastCheck s = true := by rcases hst with e | e <;> simp [pastCheck, e]
  have hkeyed : s.creg.keyed = true := (h.keyed_running hpast).trans (bne_iff_ne.2 (h.load_key_states (.inr hst)))
  rcases h.keyed_phase hkeyed (by rcases hst with e | e <;> simp [e]) with e | e <;> simp [e]

end Sys2Proof.Safety

namespace Sys2Proof.Machine

open Sys2Proof.Safety

/-! The moves of MC. -/

section
variable {s t : State}

/-- A command ends with an outcome, and MC is in IDLE (R182). -/
theorem inv_finish (e : Err) (hwf : Mem.wf s.buf = true) (hd : s.dev.ok = true) (ht : s.creg.timeout ≠ 0) (hk : KeyReady s) :
    Inv (finish e s) :=
  inv_of_outside (.inl rfl) hwf hd ht hk nofun

/-- CHECK of an encrypt or decrypt command keeps the invariant: a command that passes it has an aligned length, KEYED = 1 and a block to
do (R183). -/
theorem inv_checkCrypt (h : Inv s) (hst : s.mc.st = .check) (hw : legalWord s.mc.cmd = true) (hf : funcOf s ≠ .setKey) (m : Mode) :
    Inv (checkCrypt m s) := by
  have hk : KeyReady s := h.keyReady (by simp [hst])
  unfold checkCrypt
  split_ifs with hlen hkeyed hblocks
  · exact inv_finish _ h.buf_wf h.dev_ok h.timeout_ne hk
  · exact inv_finish _ h.buf_wf h.dev_ok h.timeout_ne hk
  · exact inv_finish _ h.buf_wf h.dev_ok h.timeout_ne hk
  · have hkeyed : s.creg.keyed = true := by simpa using hkeyed
    have hpos : 0 < (lenBlocks s.creg).toNat := Nat.pos_of_ne_zero fun e => hblocks (BitVec.eq_of_toNat_eq e)
    have hc : InCommand (goto .fetch (latchCrypt m s)) :=
      { timeout_ne := h.timeout_ne
        not_done := h.running (by simp [State.busy, hst])
        legal := hw
        keyed := hkeyed.trans (bne_iff_ne.2 hf).symm
        load_key_blkcnt := fun e => absurd e hf
        counts := fun _ => ⟨hpos, rfl, by simpa using hlen, h.check_blkcnt hst⟩ }
    exact inv_of_inCommand nofun h.buf_wf h.dev_ok hc (hk.aesuFacts rfl rfl nofun nofun nofun nofun) (fun _ => hf) nofun

theorem inv_checkLoadKey (h : Inv s) (hst : s.mc.st = .check) (hw : decodeCmd s.mc.cmd = .loadKey) (hf : funcOf s = .setKey) :
    Inv (checkLoadKey s) := by
  have hc : InCommand (checkLoadKey s) :=
    { timeout_ne := h.timeout_ne
      not_done := h.running (by simp [State.busy, hst])
      legal := by simp [legalWord, hw]
      keyed := (bne_eq_false_iff_eq.2 hf).symm
      load_key_blkcnt := fun _ => h.check_blkcnt hst
      counts := fun e => absurd hf e }
  have hk : KeyReady (checkLoadKey s) := keyReady_of_not_keyed rfl
  exact inv_of_inCommand nofun h.buf_wf h.dev_ok hc (hk.aesuFacts rfl rfl nofun nofun nofun nofun) nofun nofun

theorem CheckMove.inv (h : Inv s) (hst : s.mc.st = .check) (move : CheckMove s t) : Inv t := by
  cases move with
  | illegal _ eq => exact eq ▸ inv_finish _ h.buf_wf h.dev_ok h.timeout_ne (h.keyReady (by simp [hst]))
  | loadKey word func _ eq => exact eq ▸ inv_checkLoadKey h hst word func
  | crypt word op func _ eq => exact eq ▸ inv_checkCrypt h hst word func _

theorem inv_fetchStep (h : Inv s) (hst : s.mc.st = .fetch) (f : Func) (m : Mode) : Inv (fetchStep f m s) := by
  have hc := h.inCommand hst nofun nofun
  have hk : KeyReady s := h.keyReady (by simp [hst])
  exact inv_of_inCommand nofun h.buf_wf h.dev_ok { hc with } (hk.aesuFacts rfl rfl nofun nofun nofun nofun) nofun nofun

/-- WRDIN leaves AESU Fresh or Ready with MC's block in DATA_IN, or wedged (R132, R138). -/
theorem aesuWriteBlock_cases (a : Aesu) (n : Nat) (b : Block) :
    ((a.phase = .fresh ∨ a.phase = .ready) ∧ aesuWriteBlock a n b = { a with din := b }) ∨
      (aesuWriteBlock a n b).phase = .wedged := by
  unfold aesuWriteBlock
  split <;> simp_all [aesuWedge]

/-- TRIG starts the operation on a Fresh or Ready AESU, or AESU is wedged after it (R133, R138). -/
theorem aesuTrigger_cases (a : Aesu) (n : Nat) (op : DevOp) :
    ((a.phase = .fresh ∨ a.phase = .ready) ∧ aesuTrigger a n op = { a with phase := .busy op }) ∨
      (aesuTrigger a n op).phase = .wedged := by
  unfold aesuTrigger
  split <;> simp_all [aesuWedge]

/-- WRDIN keeps the invariant: AESU is Fresh or Ready with MC's operand in DATA_IN, or wedged (R120, R127, R132). -/
theorem inv_wrdin (h : Inv s) (hst : s.mc.st = .wrdin) (n : Nat) (bus : List BusEvent) :
    Inv { s with aesu := aesuWriteBlock s.aesu n s.mc.xblk, bus := bus, mc := { s.mc with st := .trig } } := by
  have hk := h.keyReady (by simp [hst])
  refine inv_of_inCommand nofun h.buf_wf h.dev_ok { h.inCommand hst nofun nofun with } ?_ nofun nofun
  obtain ⟨hp, e⟩ | hw := aesuWriteBlock_cases s.aesu n s.mc.xblk
  · rw [e]
    exact {
      trig_phase := fun _ => hp.imp_right .inl
      poll_phase := nofun
      keyed_phase := fun hkeyed _ => (hk hkeyed).1
      keyed_key := fun hkeyed => (hk hkeyed).2
      operand := fun _ _ => rfl
      loaded := nofun
      result := nofun
      read_result := nofun }
  · exact aesuFacts_of_wedged hw

/-- TRIG keeps the invariant: AESU is busy with the command's operation, or wedged (R122, R133). -/
theorem inv_trig (h : Inv s) (hst : s.mc.st = .trig) {op : DevOp} (hop : devOpOf (funcOf s) = some op) (n : Nat) (bus : List BusEvent) :
    Inv { s with aesu := aesuTrigger s.aesu n op, bus := bus, mc := { s.mc with pcnt := 0, st := .poll } } := by
  have hpos : (0 : Word) < s.creg.timeout := (BitVec.pos_iff_ne_zero _).2 h.timeout_ne
  refine inv_of_inCommand nofun h.buf_wf h.dev_ok { h.inCommand hst nofun nofun with } ?_ nofun fun _ => hpos
  obtain ⟨hp, e⟩ | hw := aesuTrigger_cases s.aesu n op
  · have hnw : s.aesu.phase ≠ .wedged := by rcases hp with e | e <;> simp [e]
    rw [e]
    exact {
      trig_phase := nofun
      poll_phase := fun _ => .inl ⟨op, hop, rfl⟩
      keyed_phase := fun _ hn => absurd rfl hn
      keyed_key := fun hkeyed _ => h.keyed_key hkeyed hnw
      operand := fun _ _ => h.operand (.inl hst) hnw
      loaded := nofun
      result := nofun
      read_result := nofun }
  · exact aesuFacts_of_wedged hw

/-- POLL keeps the invariant: a nonzero STATUS means that AESU is not busy, so it has completed or is wedged (R123, R135). -/
theorem inv_pollAnswer (h : Inv s) (hst : s.mc.st = .poll) (n : Nat) (bus : List BusEvent) :
    Inv (pollAnswer (funcOf s) (aesuStatus s.aesu n) { s with bus := bus }) := by
  have hc := h.inCommand hst nofun nofun
  have hdone : aesuStatus s.aesu n ≠ 0 → s.aesu.phase = .ready ∨ s.aesu.phase = .wedged := fun hv =>
    (h.poll_phase hst).resolve_left fun ⟨_, _, hp⟩ => hv (aesuStatus_busy hp n)
  obtain ⟨hv, hf, e⟩ | ⟨hv, hf, e⟩ | ⟨-, -, e⟩ | ⟨-, ht, e⟩ :=
    pollAnswer_cases (funcOf s) (aesuStatus s.aesu n) { s with bus := bus }
  · rw [e]
    refine inv_finish _ h.buf_wf h.dev_ok h.timeout_ne fun _ => ⟨hdone hv, fun hnw => ?_⟩
    exact (h.loaded hst hf ((hdone hv).resolve_right hnw)).trans_ne (Option.some_ne_none _)
  · rw [e]
    exact inv_of_inCommand nofun h.buf_wf h.dev_ok { hc with } {
      trig_phase := nofun
      poll_phase := nofun
      keyed_phase := fun _ _ => hdone hv
      keyed_key := h.keyed_key
      operand := nofun
      loaded := nofun
      result := fun _ => h.result (.inl hst)
      read_result := nofun } (fun _ => hf) nofun
  · rw [e]
    exact inv_finish _ h.buf_wf h.dev_ok h.timeout_ne (keyReady_of_not_keyed rfl)
  · rw [e]
    exact inv_of_inCommand nofun h.buf_wf h.dev_ok { hc with } {
      trig_phase := nofun
      poll_phase := fun _ => h.poll_phase hst
      keyed_phase := fun _ hn => absurd rfl hn
      keyed_key := h.keyed_key
      operand := fun _ => h.operand (.inr hst)
      loaded := fun _ => h.loaded hst
      result := fun _ => h.result (.inl hst)
      read_result := nofun } nofun fun _ => BitVec.not_le.1 ht

/-- RDOUT keeps the invariant: from a Ready AESU it reads DATA_OUT, which holds the transform (R124, R136). -/
theorem inv_rdout (h : Inv s) (hst : s.mc.st = .rdout) (n : Nat) (bus : List BusEvent) :
    Inv { s with bus := bus, mc := { s.mc with yblk := aesuOutBlock s.aesu n, st := .wback } } := by
  have hk := h.keyReady (by simp [hst])
  have hf := h.load_key_states (.inr (.inl hst))
  refine inv_of_inCommand nofun h.buf_wf h.dev_ok { h.inCommand hst nofun nofun with } ?_ (fun _ => hf) nofun
  exact {
    trig_phase := nofun
    poll_phase := nofun
    keyed_phase := fun hkeyed _ => (hk hkeyed).1
    keyed_key := fun hkeyed => (hk hkeyed).2
    operand := nofun
    loaded := nofun
    result := nofun
    read_result := fun _ hr op k hop hkey =>
      (aesuOutBlock_ready hr n).trans (h.result (.inr hst) hr op k hop (fun e => hf ((devOpOf_setKey_iff hop).1 e)) hkey) }

/-- WBACK keeps the invariant: there is one more block written, and the index stays below the count (R39, R188). -/
theorem inv_wbackStep (h : Inv s) (hst : s.mc.st = .wback) (m : Mode) : Inv (wbackStep (funcOf s) m s) := by
  have hc := h.inCommand hst nofun nofun
  have hk : KeyReady s := h.keyReady (by simp [hst])
  have hf := h.load_key_states (.inr (.inr hst))
  have hwf := wbackStored_wf (funcOf s) m h.buf_wf
  have hd : (wbackStored (funcOf s) m s).dev.ok = true := by simpa using h.dev_ok
  have ha := wbackStored_aesu (funcOf s) m s
  obtain ⟨hlt, hn, hal, -⟩ := hc.counts hf
  by_cases hlast : s.mc.idx.toNat + 1 = s.mc.nblk.toNat
  · rw [wbackStep_last hlast]
    generalize wbackStored (funcOf s) m s = u at hwf hd ha ⊢
    refine inv_of_outside (.inl rfl) hwf hd ?_ (hk.congr ?_ ha) nofun
    · dsimp only
      split_ifs <;> exact h.timeout_ne
    · dsimp only
      split_ifs <;> rfl
  · rw [wbackStep_more hlast]
    generalize wbackStored (funcOf s) m s = u at hwf hd ha ⊢
    have hidx : (s.mc.idx + 1).toNat = s.mc.idx.toNat + 1 := by
      have := s.mc.nblk.isLt
      simp
      omega
    have hcount : s.mc.idx.setWidth 32 + 1 = (s.mc.idx + 1).setWidth 32 := by
      have := s.mc.nblk.isLt
      apply BitVec.eq_of_toNat_eq
      simp
      omega
    refine inv_of_inCommand nofun hwf hd { hc with
      load_key_blkcnt := fun e => absurd e hf
      counts := fun _ => ⟨by dsimp only; omega, hn, hal, hcount⟩ } (hk.aesuFacts rfl ha nofun nofun nofun nofun)
      (fun _ => hf) nofun

/-- Every step of MC keeps the invariant. -/
theorem McMove.inv (h : Inv s) (move : McMove s t) : Inv t := by
  cases move with
  | check st move => exact move.inv h st
  | fetch st eq => exact eq ▸ inv_fetchStep h st _ _
  | wrdin st eq => exact eq ▸ inv_wrdin h st _ _
  | trig st op opc eq => exact eq ▸ inv_trig h st opc _ _
  | poll st eq => exact eq ▸ inv_pollAnswer h st _ _
  | rdout st eq => exact eq ▸ inv_rdout h st _ _
  | wback st eq => exact eq ▸ inv_wbackStep h st _

/-! The moves of the other agents. -/

/-- A completion ends in phase Ready (R134). -/
@[simp] theorem aesuComplete_phase (op : DevOp) (a : Aesu) (n : Nat) : (aesuComplete op a n).phase = .ready := by cases op <;> rfl

/-- A completion keeps DATA_IN (R143). -/
@[simp] theorem aesuComplete_din (op : DevOp) (a : Aesu) (n : Nat) : (aesuComplete op a n).din = a.din := by cases op <;> rfl

/-- A completion takes no key away (R130). -/
theorem aesuComplete_key_ne_none {a : Aesu} (h : a.key ≠ none) (op : DevOp) (n : Nat) : (aesuComplete op a n).key ≠ none := by
  cases op with
  | setKey => exact Option.some_ne_none _
  | enc => exact h
  | dec => exact h

/-- A completed ENCRYPT or DECRYPT leaves the transform of DATA_IN under the loaded key (R128, R129). -/
theorem aesuComplete_dout {op : DevOp} (hop : op ≠ .setKey) {a : Aesu} {n : Nat} {k : Block} (hk : (aesuComplete op a n).key = some k) :
    (aesuComplete op a n).dout = transform op k a.din := by
  cases op with
  | setKey => exact absurd rfl hop
  | enc =>
    have hk : a.key = some k := hk
    simp [aesuComplete, transformResult, hk]
  | dec =>
    have hk : a.key = some k := hk
    simp [aesuComplete, transformResult, hk]

/-- AESU's completion keeps the invariant: it is busy only while MC polls, or with KEYED = 0 (R127), with the operation of the command on
the operand MC wrote (R120), so it leaves the result or the key the command is to get (R128 to R130). -/
theorem inv_aesuComplete (h : Inv s) {op : DevOp} (hp : s.aesu.phase = .busy op) (n : Nat) :
    Inv { s with aesu := aesuComplete op s.aesu n } := by
  have hnw : s.aesu.phase ≠ .wedged := by simp [hp]
  exact { h with
    trig_phase := fun _ => .inr (.inl (aesuComplete_phase op s.aesu n))
    poll_phase := fun _ => .inr (.inl (aesuComplete_phase op s.aesu n))
    keyed_phase := fun _ _ => .inl (aesuComplete_phase op s.aesu n)
    keyed_key := fun hk _ => aesuComplete_key_ne_none (h.keyed_key hk hnw) op n
    operand := fun hst _ => (aesuComplete_din op s.aesu n).trans (h.operand hst hnw)
    loaded := fun hst hf _ => by
      obtain rfl := h.busy_op hst hp (congrArg devOpOf hf)
      exact congrArg some (h.operand (.inr hst) hnw)
    result := fun hst _ op' k hop hne hkey => by
      have hst := hst.resolve_right fun e => h.not_busy_in_block (.inl e) op hp
      obtain rfl := h.busy_op hst hp hop
      rw [← h.operand (.inr hst) hnw]
      exact aesuComplete_dout hne hkey
    read_result := fun hst => (h.not_busy_in_block (.inr hst) op hp).elim }

theorem hostStep_inv (h : Inv s) (hs : hostStep s = .next t) : Inv t := by
  obtain ⟨ha, -, -, -, -, move⟩ := hostStep_move hs
  have hd := hostStep_dev hs
  cases move with
  | quiet creg mc buf _ _ => exact h.congr hd creg mc ha (buf ▸ h.buf_wf)
  | store a b _ _ buf creg mc _ => exact h.congr hd creg mc ha (buf ▸ hostStoreByte_wf a b h.buf_wf)
  | dropped _ creg mc buf _ _ =>
    have h' : Inv (setOvr s) := { h with }
    exact h'.congr hd creg mc ha (buf ▸ h.buf_wf)
  | register off w _ _ idle creg mc buf _ =>
    have hk : KeyReady t := (h.keyReady (by simp [idle])).congr (by rw [creg]; exact (cregStore_frame off w s.creg).2.1) ha
    exact inv_of_outside (.inl (mc ▸ idle)) (buf ▸ h.buf_wf) (hd ▸ h.dev_ok) (creg ▸ cregStore_timeout h.timeout_ne off w) hk
      (by simp [mc, idle])
  | accepted w idle creg mc buf =>
    have hk : KeyReady t := (h.keyReady (by simp [idle])).congr (by rw [creg]) ha
    exact inv_of_outside (.inr (by rw [mc])) (buf ▸ h.buf_wf) (hd ▸ h.dev_ok) (by rw [creg]; exact h.timeout_ne) hk
      (by simp [creg])

theorem inv_mcReset (h : Inv s) : Inv (mcReset s) :=
  inv_of_outside (.inl rfl) h.buf_wf h.dev_ok (by decide : Config.timeoutReset ≠ 0) (keyReady_of_not_keyed rfl) nofun

theorem inv_systemReset (h : Inv s) : Inv (systemReset s) :=
  inv_of_outside (.inl rfl) h.buf_wf h.dev_ok (by decide : Config.timeoutReset ≠ 0) (keyReady_of_not_keyed rfl) nofun

/-- Every step of the system keeps the invariant. -/
theorem StepMove.inv (h : Inv s) (move : StepMove s t) : Inv t := by
  have h' := h.afterTurn
  cases move with
  | host _ eq => exact hostStep_inv h' eq
  | mcIdle _ _ eq => exact eq ▸ h'
  | mc _ _ move => exact move.inv h'
  | complete _ op phase eq => exact eq ▸ inv_aesuComplete h' phase _
  | aesuIdle _ _ eq => exact eq ▸ h'
  | mcReset _ eq => exact eq ▸ inv_mcReset h'
  | systemReset _ eq => exact eq ▸ inv_systemReset h'

end

/-- Settles O47, by the moves a step can make. -/
theorem stepsKeepTheInvariant : Obligations.StepsKeepTheInvariant := fun _ _ h hs => (step_move h.dev_ok hs).inv h

end Sys2Proof.Machine
end

section
/-! PROOFS. What the invariant gives: no step stops (R98, R141, R199), MC_STATUS while BUSY = 1 (R31), and the only writers of KEYED and
MC_IV (R36, R189, R190). -/

namespace Sys2Proof.Machine

open Sys2Proof.Safety

/-! No fault and no refusal. -/

/-- The device operation of a legal command word (R99). -/
theorem legalWord_devOp {w : Word} (h : legalWord w = true) : ∃ op, devOpOf (cmdFunc w) = some op := by
  have hf := (decodeCmd_fields w).1
  rcases legalWord_cases h with e | e | e | e | e <;> rw [e] at hf <;> rw [← Option.some.inj hf] <;> exact ⟨_, rfl⟩

/-- A host line with its offset in the CREG window has a meaning (R30, R103). -/
theorem hostLine_next {l : HostLine} (h : lineInRange l = true) (s : State) : ∃ t, hostLine l s = .next t := by
  cases l with
  | cregWrite off width w => exact ⟨_, by rw [hostLine, if_neg (by simpa [lineInRange] using h)]⟩
  | cregRead off width => exact ⟨_, by rw [hostLine, if_neg (by simpa [lineInRange] using h)]⟩
  | bufWrite a b => exact ⟨_, rfl⟩
  | bufRead a => exact ⟨_, rfl⟩
  | waitIdle => exact ⟨_, rfl⟩
  | expect w => exact ⟨_, rfl⟩

theorem hostStep_next {s : State} (h : HostInRange s) : ∃ t, hostStep s = .next t := by
  unfold hostStep
  cases hp : s.host.prog with
  | nil => exact ⟨s, rfl⟩
  | cons l rest => exact hostLine_next (h l (by simp [hp])) _

/-- From every state with the invariant MC's step answers a next state: only a legal command stands at TRIG (R196, R199). -/
theorem mcStep_next_of_inv {s : State} (h : Inv s) : ∃ t, mcStep s = .next t :=
  mcStep_next h.dev_ok fun hst => legalWord_devOp (h.legal (pastCheck_of hst nofun nofun).1)

/-- The agent whose turn it is completes its step. -/
theorem agentStep_next {s : State} (h : Inv s) (hr : HostInRange s) (turn : Turn) : ∃ t, agentStep turn s = .next t := by
  cases turn with
  | host => exact hostStep_next hr
  | mc => exact mcStep_next_of_inv h
  | aesu => exact ⟨_, aesuStep_eq s⟩
  | mcReset => exact ⟨_, rfl⟩
  | systemReset => exact ⟨_, rfl⟩

theorem CheckMove.host_eq {s t : State} (h : CheckMove s t) : t.host = s.host := by
  cases h with
  | illegal _ eq => rw [eq, checkIllegal, finish_host]
  | loadKey _ _ _ eq => rw [eq, checkLoadKey_host]
  | crypt _ _ _ _ eq =>
    subst eq
    unfold checkCrypt
    split_ifs <;> rfl

theorem pollAnswer_host (f : Func) (v : Word) (s : State) : (pollAnswer f v s).host = s.host := by
  obtain ⟨_, _, e⟩ | ⟨_, _, e⟩ | ⟨_, _, e⟩ | ⟨_, _, e⟩ := pollAnswer_cases f v s <;> rw [e] <;> rfl

theorem wbackStep_host (f : Func) (m : Mode) (s : State) : (wbackStep f m s).host = s.host := by
  by_cases hl : s.mc.idx.toNat + 1 = s.mc.nblk.toNat
  · rw [wbackStep_last hl, wbackStored_host]
  · rw [wbackStep_more hl, wbackStored_host]

/-- No step of MC touches the host. -/
theorem McMove.host_eq {s t : State} (h : McMove s t) : t.host = s.host := by
  cases h with
  | check _ move => exact move.host_eq
  | fetch _ eq => rw [eq]; rfl
  | wrdin _ eq => rw [eq]
  | trig _ _ _ eq => rw [eq]
  | poll _ eq => rw [eq, pollAnswer_host]
  | rdout _ eq => rw [eq]
  | wback _ eq => rw [eq, wbackStep_host]

/-- No step adds to the host's pending accesses. -/
theorem StepMove.prog_subset {s t : State} (h : StepMove s t) : ∀ l ∈ t.host.prog, l ∈ s.host.prog := by
  cases h with
  | host _ eq =>
    obtain ⟨-, -, -, -, hsub, -⟩ := hostStep_move eq
    exact hsub
  | mcIdle _ _ eq => simp [eq]
  | mc _ _ move => simp [move.host_eq]
  | complete _ _ _ eq => simp [eq]
  | aesuIdle _ _ eq => simp [eq]
  | mcReset _ eq => simp [eq]
  | systemReset _ eq => simp [eq]

/-- Settles O49: the agent's step completes, and the host's accesses still to come are among the ones it had. -/
theorem everyStepCompletes : Obligations.EveryStepCompletes := by
  intro s h hr
  obtain ⟨t, ht⟩ := agentStep_next (s := s.afterTurn) h.afterTurn hr s.turn
  exact ⟨t, ht, fun l hl => hr l ((step_move h.dev_ok ht).prog_subset l hl)⟩

/-! MC_STATUS. -/

/-- Settles O14: DONE and ERR are 0 by the invariant, so KEYED and OVR are the only fields still open. -/
theorem statusWhileBusy : Obligations.StatusWhileBusy := by
  intro s h hb
  obtain ⟨hdone, herr⟩ := h.running hb
  rw [statusWord, hb, hdone, herr]
  cases s.creg.keyed <;> cases s.creg.ovr <;> decide

/-! The writers of KEYED. -/

section
variable {s t : State}

/-- A legal word with FUNC = 2 is LOAD_KEY (R95). -/
theorem decodeCmd_eq_loadKey {w : Word} (h : legalWord w = true) (hf : cmdFunc w = .setKey) : decodeCmd w = .loadKey := by
  have hd := (decodeCmd_fields w).1
  rw [hf] at hd
  rcases legalWord_cases h with e | e | e | e | e <;> rw [e] at hd <;> cases hd
  exact e

/-- The host never writes KEYED (R27). -/
theorem HostMove.keyed_eq (h : HostMove s t) : t.creg.keyed = s.creg.keyed := by
  cases h with
  | quiet creg => rw [creg]
  | store _ _ _ _ _ creg => rw [creg]
  | dropped _ creg => rw [creg]
  | register off w _ _ _ creg => rw [creg, (cregStore_frame off w s.creg).2.1]
  | accepted _ _ creg => rw [creg]

/-- CHECK of an encrypt or decrypt command only reads KEYED (R183). -/
@[simp] theorem checkCrypt_keyed (m : Mode) (s : State) : (checkCrypt m s).creg.keyed = s.creg.keyed := by
  unfold checkCrypt
  split_ifs <;> rfl

theorem wbackStep_keyed (f : Func) (m : Mode) (s : State) : (wbackStep f m s).creg.keyed = s.creg.keyed := by
  by_cases hl : s.mc.idx.toNat + 1 = s.mc.nblk.toNat
  · rw [wbackStep_last hl]
    dsimp only
    split_ifs <;> rfl
  · rw [wbackStep_more hl]

/-- A poll that changes KEYED is LOAD_KEY's nonzero one, which ends with NONE, or one that times out (R123). -/
theorem pollAnswer_keyed_cases {f : Func} {v : Word} (hne : (pollAnswer f v s).creg.keyed ≠ s.creg.keyed) :
    (f = .setKey ∧ (pollAnswer f v s).creg.keyed = true ∧ (pollAnswer f v s).creg.err = .none) ∨
    ((pollAnswer f v s).creg.keyed = false ∧ (pollAnswer f v s).creg.err = .deviceTimeout) := by
  obtain ⟨-, hf, e⟩ | ⟨-, -, e⟩ | ⟨-, -, e⟩ | ⟨-, -, e⟩ := pollAnswer_cases f v s <;> rw [e] at hne ⊢
  · exact .inl ⟨hf, rfl, rfl⟩
  · exact absurd rfl hne
  · exact .inr ⟨rfl, rfl⟩
  · exact absurd rfl hne

/-- A step of MC that changes KEYED is LOAD_KEY's CHECK, its nonzero poll or a poll that times out (R190). -/
theorem McMove.keyed_cases (h : Inv s) (move : McMove s t) (hne : t.creg.keyed ≠ s.creg.keyed) :
    (s.mc.st = .check ∧ decodeCmd s.mc.cmd = .loadKey ∧ t.creg.keyed = false) ∨
    (s.mc.st = .poll ∧ decodeCmd s.mc.cmd = .loadKey ∧ t.creg.keyed = true ∧ t.creg.err = .none) ∨
    (s.mc.st = .poll ∧ t.creg.keyed = false ∧ t.creg.err = .deviceTimeout) := by
  cases move with
  | check st move =>
    cases move with
    | illegal _ eq => exact absurd (by rw [eq]; rfl) hne
    | loadKey word _ _ eq => exact .inl ⟨st, word, by rw [eq]; rfl⟩
    | crypt _ _ _ _ eq => exact absurd (by rw [eq, checkCrypt_keyed]) hne
  | poll st eq =>
    subst eq
    obtain ⟨hf, h1⟩ | h2 := pollAnswer_keyed_cases hne
    · exact .inr (.inl ⟨st, decodeCmd_eq_loadKey (h.legal (pastCheck_of st nofun nofun).1) hf, h1⟩)
    · exact .inr (.inr ⟨st, h2⟩)
  | fetch _ eq => exact absurd (by rw [eq]; rfl) hne
  | wrdin _ eq => exact absurd (by rw [eq]) hne
  | trig _ _ _ eq => exact absurd (by rw [eq]) hne
  | rdout _ eq => exact absurd (by rw [eq]) hne
  | wback _ eq => exact absurd (by rw [eq, wbackStep_keyed]) hne

end

/-- Settles O51, by the moves a step can make. -/
theorem onlyTheseActionsWriteKeyed : Obligations.OnlyTheseActionsWriteKeyed := by
  intro s t h hs hne
  cases step_move h.dev_ok hs with
  | host _ eq =>
    obtain ⟨-, -, -, -, -, move⟩ := hostStep_move eq
    exact absurd move.keyed_eq hne
  | mc turn _ move =>
    obtain ⟨st, h1⟩ | ⟨st, h2⟩ | ⟨st, h3⟩ := move.keyed_cases h.afterTurn hne
    · exact .inl ⟨turn, st, h1⟩
    · exact .inr (.inl ⟨turn, st, h2⟩)
    · exact .inr (.inr (.inl ⟨turn, st, h3⟩))
  | mcReset turn eq => exact .inr (.inr (.inr ⟨.inl turn, by rw [eq]; rfl⟩))
  | systemReset turn eq => exact .inr (.inr (.inr ⟨.inr turn, by rw [eq]; rfl⟩))
  | mcIdle _ _ eq => exact absurd (by rw [eq]; rfl) hne
  | complete _ _ _ eq => exact absurd (by rw [eq]; rfl) hne
  | aesuIdle _ _ eq => exact absurd (by rw [eq]; rfl) hne

/-! The writers of MC_IV. -/

section
variable {s t : State}

@[simp] theorem ivBlock_setIv (b : Block) (c : Creg) : ivBlock (setIv b c) = b := blockOfWords_words b

/-- A host write outside 0x10 to 0x1C leaves MC_IV alone (R25, R32). -/
theorem cregStore_ivBlock {off : Nat} (h : ¬ (0x10 ≤ off ∧ off ≤ 0x1C)) (w : Word) (c : Creg) :
    ivBlock (cregStore off w c) = ivBlock c := by
  unfold cregStore
  split <;> first | omega | rfl

/-- A host step that changes MC_IV is a write at 0x10 to 0x1C while BUSY = 0 (R25, R32). -/
theorem HostMove.iv_cases (move : HostMove s t) (hne : ivBlock t.creg ≠ ivBlock s.creg) :
    s.mc.st = .idle ∧ ∃ off w rest, s.host.prog = .cregWrite off .word w :: rest ∧ 0x10 ≤ off ∧ off ≤ 0x1C := by
  cases move with
  | quiet creg => exact absurd (by rw [creg]) hne
  | store _ _ _ _ _ creg => exact absurd (by rw [creg]) hne
  | dropped _ creg => exact absurd (by rw [creg]; rfl) hne
  | register off w rest line idle creg =>
    have hoff : 0x10 ≤ off ∧ off ≤ 0x1C := by
      by_contra hn
      exact hne (by rw [creg, cregStore_ivBlock hn])
    exact ⟨idle, off, w, rest, line, hoff⟩
  | accepted _ _ creg => exact absurd (by rw [creg]; rfl) hne

@[simp] theorem checkCrypt_ivBlock (m : Mode) (s : State) : ivBlock (checkCrypt m s).creg = ivBlock s.creg := by
  unfold checkCrypt
  split_ifs <;> rfl

@[simp] theorem pollAnswer_ivBlock (f : Func) (v : Word) (s : State) : ivBlock (pollAnswer f v s).creg = ivBlock s.creg := by
  obtain ⟨_, _, e⟩ | ⟨_, _, e⟩ | ⟨_, _, e⟩ | ⟨_, _, e⟩ := pollAnswer_cases f v s <;> rw [e] <;> rfl

/-- WBACK that changes MC_IV is a CBC command's last one, which leaves the chain there and ends with NONE (R188, R189). -/
theorem wbackStep_iv_cases {f : Func} {m : Mode} (hne : ivBlock (wbackStep f m s).creg ≠ ivBlock s.creg) :
    m = .cbc ∧ (wbackStep f m s).mc.st = .idle ∧ (wbackStep f m s).creg.err = .none ∧
      ivBlock (wbackStep f m s).creg = (wbackStep f m s).mc.chain := by
  by_cases hl : s.mc.idx.toNat + 1 = s.mc.nblk.toNat
  · rw [wbackStep_last hl] at hne ⊢
    cases m with
    | ecb => exact absurd rfl hne
    | cbc => exact ⟨rfl, rfl, rfl, ivBlock_setIv (wbackChain f .cbc s) s.creg⟩
  · rw [wbackStep_more hl] at hne
    exact absurd rfl hne

/-- A step of MC that changes MC_IV is WBACK. -/
theorem McMove.wback_of_iv (move : McMove s t) (hne : ivBlock t.creg ≠ ivBlock s.creg) :
    s.mc.st = .wback ∧ t = wbackStep (funcOf s) (modeOf s) s := by
  cases move with
  | check _ move =>
    cases move with
    | illegal _ eq => exact absurd (by rw [eq]; rfl) hne
    | loadKey _ _ _ eq => exact absurd (by rw [eq]; rfl) hne
    | crypt _ _ _ _ eq => exact absurd (by rw [eq, checkCrypt_ivBlock]) hne
  | fetch _ eq => exact absurd (by rw [eq]; rfl) hne
  | wrdin _ eq => exact absurd (by rw [eq]) hne
  | trig _ _ _ eq => exact absurd (by rw [eq]) hne
  | poll _ eq => exact absurd (by rw [eq, pollAnswer_ivBlock]) hne
  | rdout _ eq => exact absurd (by rw [eq]) hne
  | wback st eq => exact ⟨st, eq⟩

end

/-- Settles O52, by the moves a step can make. -/
theorem onlyTheseActionsWriteIv : Obligations.OnlyTheseActionsWriteIv := by
  intro s t h hs hne
  cases step_move h.dev_ok hs with
  | host turn eq =>
    obtain ⟨-, -, -, -, -, move⟩ := hostStep_move eq
    exact .inr (.inl ⟨turn, move.iv_cases hne⟩)
  | mc turn _ move =>
    obtain ⟨st, rfl⟩ := move.wback_of_iv hne
    exact .inr (.inr ⟨turn, st, wbackStep_iv_cases hne⟩)
  | mcReset turn _ => exact .inl (.inl turn)
  | systemReset turn _ => exact .inl (.inr turn)
  | mcIdle _ _ eq => exact absurd (by rw [eq]; rfl) hne
  | complete _ _ _ eq => exact absurd (by rw [eq]; rfl) hne
  | aesuIdle _ _ eq => exact absurd (by rw [eq]; rfl) hne

end Sys2Proof.Machine
end

section
/-! PROOFS. Whose step it is, and what the host's accesses to CREG do (R21 to R34, R38, R134, R181, R239). -/

namespace Sys2Proof.Machine

open Sys2Proof.Safety

/-! Whose step it is. -/

theorem step_of_turn {s : State} {x : Turn} (h : s.turn = x) : step s = agentStep x s.afterTurn := h ▸ rfl

/-- Settles O10, by the agent's turn. -/
theorem stepRunsTheDecodedInstruction : Obligations.StepRunsTheDecodedInstruction := by
  intro s
  refine ⟨fun ht hst => ?_, fun ht hst => ?_, fun op ht hp => ?_, fun ht hp => ?_, fun ht hp => ?_⟩ <;> rw [step_of_turn ht]
  · exact if_neg hst
  · exact if_pos hst
  · rw [agentStep, aesuStep, afterTurn_aesu, hp]
    rfl
  · rw [agentStep, aesuStep, afterTurn_aesu]
    cases h : s.aesu.phase with
    | busy op => exact absurd h (hp op)
    | fresh => rfl
    | ready => rfl
    | wedged => rfl
  · rw [agentStep, hostStep, afterTurn_host, hp]
    rfl

/-! The host's accesses to CREG. -/

/-- What the host's line is run on: its turn taken, the draw counter advanced, and the line gone from its list (R103). -/
def State.atLine (s : State) (rest : List HostLine) : State := { s.afterTurn with host := { s.host with prog := rest } }

section
variable {s : State} {rest : List HostLine} {off : Nat} {width : Width} {w : Word} (ht : s.turn = .host)
include ht

/-- On the host's turn its next line is run (R103). -/
theorem step_hostLine {l : HostLine} (hl : s.host.prog = l :: rest) : step s = hostLine l (s.atLine rest) := by
  rw [step_of_turn ht, agentStep, hostStep, afterTurn_host, hl]
  rfl

theorem step_cregWrite (hl : s.host.prog = .cregWrite off width w :: rest) (ho : off < 0x40) :
    step s = .next (cregWrite off width w (s.atLine rest)) := by
  rw [step_hostLine ht hl, hostLine, if_neg (by simp [outsideCreg_false ho])]

theorem step_cregRead (hl : s.host.prog = .cregRead off width :: rest) (ho : off < 0x40) :
    step s = .next (cregRead off width (s.atLine rest)) := by
  rw [step_hostLine ht hl, hostLine, if_neg (by simp [outsideCreg_false ho])]

end

/-- An access that is narrow or not aligned is not accepted (R34). -/
theorem cregAccepts_false {off : Nat} {width : Width} (h : width ≠ .word ∨ off % 4 ≠ 0) : cregAccepts off width = false := by
  simpa [cregAccepts, imp_iff_not_or] using h

section
variable {s : State} {off : Nat} {width : Width} {w : Word}

theorem cregWrite_ignored (h : width ≠ .word ∨ off % 4 ≠ 0) : cregWrite off width w s = s := by
  rw [cregWrite, if_pos (by simp [cregAccepts_false h])]

theorem cregWrite_busy (ho : off % 4 = 0) (hst : s.mc.st ≠ .idle) : cregWrite off .word w s = setOvr s := by
  rw [cregWrite, if_neg (by simp [ho]), if_pos (by simpa [State.busy] using hst)]

theorem cregWrite_cmd (hst : s.mc.st = .idle) : cregWrite 0x00 .word w s = accept w s := by
  rw [cregWrite, if_neg (by simp), if_neg (by simp [State.busy, hst]), if_pos rfl]

theorem cregWrite_register (ho : off % 4 = 0) (hn : off ≠ 0) (hst : s.mc.st = .idle) :
    cregWrite off .word w s = { s with creg := cregStore off w s.creg } := by
  rw [cregWrite, if_neg (by simp [ho]), if_neg (by simp [State.busy, hst]), if_neg hn]

theorem cregReadValue_accepted (ho : off % 4 = 0) : cregReadValue off .word s = cregValue s off := by
  rw [cregReadValue, if_pos (cregAccepts_word ho)]

theorem cregReadValue_ignored (h : width ≠ .word ∨ off % 4 ≠ 0) : cregReadValue off width s = 0 := by
  rw [cregReadValue, if_neg (by simp [cregAccepts_false h])]

end

/-- Settles O12: each of the sixteen offsets is aligned and inside CREG, and its value is the one the register table gives. -/
theorem hostReadReturnsTheRegister : Obligations.HostReadReturnsTheRegister := by
  intro s rest off v ht hl hmem
  have htable : off < 0x40 ∧ off % 4 = 0 ∧ cregValue s off = v :=
    (by simp [cregValue] : ∀ p ∈ _, p.1 < 0x40 ∧ p.1 % 4 = 0 ∧ cregValue s p.1 = p.2) (off, v) hmem
  obtain ⟨ho, hal, hv⟩ := htable
  refine ⟨_, step_cregRead ht hl ho, ?_, rfl, rfl, rfl, rfl, rfl, rfl⟩
  rw [← hv, cregRead, cregReadValue_accepted hal]
  rfl

/-- Settles O15: each of the fifteen offsets is aligned, inside CREG and not MC_CMD's, and `cregStore` puts there what the table says. -/
theorem hostWriteWhileIdle : Obligations.HostWriteWhileIdle := by
  intro s rest off w c ht hl hst hmem
  have htable : off < 0x40 ∧ off % 4 = 0 ∧ off ≠ 0 ∧ cregStore off w s.creg = c :=
    (by simp [cregStore, timeoutStored] :
      ∀ p ∈ _, p.1 < 0x40 ∧ p.1 % 4 = 0 ∧ p.1 ≠ 0 ∧ cregStore p.1 w s.creg = p.2) (off, c) hmem
  obtain ⟨ho, hal, hn, hc⟩ := htable
  rw [step_cregWrite ht hl ho, cregWrite_register (s := s.atLine rest) hal hn hst, ← hc]
  rfl

/-- Settles O16: in IDLE a word at offset 0 is accepted. -/
theorem acceptanceLatchesTheWord : Obligations.AcceptanceLatchesTheWord := by
  intro s rest w ht hl hst
  rw [step_cregWrite ht hl (by decide), cregWrite_cmd (s := s.atLine rest) hst]
  rfl

/-- Settles O17: outside IDLE an accepted write only sets OVR. -/
theorem hostWriteWhileBusyIsDropped : Obligations.HostWriteWhileBusyIsDropped := by
  intro s rest off w ht hl ho hal hst
  rw [step_cregWrite ht hl ho, cregWrite_busy (s := s.atLine rest) hal hst]
  rfl

/-- Settles O18: CREG accepts aligned words only, and no such read is one of MC_STATUS with DONE = 1 (R74). -/
theorem narrowOrUnalignedAccessesDoNothing : Obligations.NarrowOrUnalignedAccessesDoNothing := by
  intro s rest off width ht ho h
  refine ⟨fun w hl => ?_, fun hl => ?_⟩
  · rw [step_cregWrite ht hl ho, cregWrite_ignored h]
    rfl
  · have hrace : raceAfterRead off width (s.atLine rest) = s.mcRace := if_neg (by rintro ⟨rfl, rfl, -⟩; simp at h)
    rw [step_cregRead ht hl ho, cregRead, cregReadValue_ignored h, hrace]
    rfl

/-! MC_STATUS, and the accesses the spec gives no meaning. -/

/-- A flag is its one bit. -/
theorem getLsbD_flagBit (b : Bool) {i : Nat} (h : i < 1) : (flagBit b).getLsbD i = b := by
  obtain rfl : i = 0 := by omega
  cases b <;> rfl

/-- Bit `i` of MC_STATUS (R27). -/
theorem getLsbD_statusWord (s : State) (i : Nat) :
    (statusWord s).getLsbD i =
      if i < 1 then s.busy else if i - 1 < 1 then s.creg.done else if i - 1 - 1 < 1 then s.creg.keyed
      else if i - 1 - 1 - 1 < 1 then s.creg.ovr else if i - 1 - 1 - 1 - 1 < 4 then false
      else (errCode s.creg.err).getLsbD (i - 1 - 1 - 1 - 1 - 4) := by
  change BitVec.getLsbD (w := 20 + 4 + 4 + 1 + 1 + 1 + 1) ((0 : BitVec 20) ++ errCode s.creg.err ++ (0 : BitVec 4)
    ++ flagBit s.creg.ovr ++ flagBit s.creg.keyed ++ flagBit s.creg.done ++ flagBit s.busy) i = _
  simp only [BitVec.getLsbD_append]
  split_ifs with h0 h1 h2 h3 h4 h5
  · exact getLsbD_flagBit _ h0
  · exact getLsbD_flagBit _ h1
  · exact getLsbD_flagBit _ h2
  · exact getLsbD_flagBit _ h3
  · exact BitVec.getLsbD_zero
  · rfl
  · exact BitVec.getLsbD_zero.trans (BitVec.getLsbD_of_ge _ _ (by omega)).symm

/-- Settles O13: the single bits are flags, a field of bits is read bit by bit. -/
theorem statusWordHasTheFields : Obligations.StatusWordHasTheFields := by
  intro s
  have hcode : (statusWord s).extractLsb' 8 4 = errCode s.creg.err := by
    apply BitVec.eq_of_getLsbD_eq
    intro i hi
    simp (disch := omega) only [BitVec.getLsbD_extractLsb', hi, decide_true, Bool.true_and, getLsbD_statusWord, if_neg]
    exact congrArg _ (by omega)
  have hzero : ∀ k n, (∀ i < n, (statusWord s).getLsbD (k + i) = false) → (statusWord s).extractLsb' k n = 0 := by
    intro k n h
    apply BitVec.eq_of_getLsbD_eq
    intro i hi
    simp [h i hi]
  refine ⟨getLsbD_statusWord s 0, getLsbD_statusWord s 1, getLsbD_statusWord s 2, getLsbD_statusWord s 3,
    hzero 4 4 ?_, ?_, hzero 12 20 ?_⟩
  · intro i hi
    simp (disch := omega) only [getLsbD_statusWord, if_neg, if_pos]
  · rw [hcode]
    cases s.creg.err <;> rfl
  · intro i hi
    simp (disch := omega) only [getLsbD_statusWord, if_neg]
    exact BitVec.getLsbD_of_ge _ _ (by omega)

/-- An offset at none of the four words of a 16-byte register has no lane (R65). -/
theorem laneOf_none {base off : Nat} (h0 : off ≠ base) (h1 : off ≠ base + 4) (h2 : off ≠ base + 8) (h3 : off ≠ base + 12) :
    laneOf base off = none := by
  simp [laneOf, h0, h1, h2, h3]

/-- Settles O25: the host's offset lies beyond CREG, and a DEV offset names neither a single register nor a lane of a block. -/
theorem accessesWithNoMeaningAreRefused : Obligations.AccessesWithNoMeaningAreRefused := by
  refine ⟨fun s rest off width ht ho => ?_, fun p a n off w => ⟨fun h0 h1 h2 h3 hc => ?_, fun h0 h1 h2 h3 hs => ?_⟩⟩
  · have hout := (outsideCreg_iff off).2 ho
    exact ⟨fun w hl => by rw [step_hostLine ht hl, hostLine, if_pos hout], fun hl => by rw [step_hostLine ht hl, hostLine, if_pos hout]⟩
  · rw [aesuWrite, if_neg hc, laneOf_none h0 h1 h2 h3]
  · rw [aesuRead, if_neg hs, laneOf_none h0 h1 h2 h3]

end Sys2Proof.Machine
end

section
/-! PROOFS. The frame of a command's step, by FSM state (R22 to R28, R35, R63, R188 to R190). -/

namespace Sys2Proof.Machine

open Sys2Proof.Safety

/-! The frame, part by part. -/

section
variable (s t : State)

/-- What a step of a command leaves of CREG: the host's registers always, the others in the states that do not write them. -/
def CregFrame : Prop :=
  t.creg.len = s.creg.len ∧ t.creg.src = s.creg.src ∧ t.creg.dst = s.creg.dst ∧ keyBlock t.creg = keyBlock s.creg ∧
    t.creg.timeout = s.creg.timeout ∧ (s.mc.st ≠ .idle → t.creg.ovr = s.creg.ovr) ∧
    (s.mc.st ≠ .wback → ivBlock t.creg = ivBlock s.creg) ∧
    (s.mc.st ≠ .idle → s.mc.st ≠ .wback → t.creg.blkcnt = s.creg.blkcnt) ∧
    (s.mc.st ≠ .check → s.mc.st ≠ .poll → t.creg.keyed = s.creg.keyed) ∧
    (s.mc.st = .fetch ∨ s.mc.st = .wrdin ∨ s.mc.st = .trig ∨ s.mc.st = .rdout →
      t.creg.done = s.creg.done ∧ t.creg.err = s.creg.err)

/-- What a step of a command leaves of AESU: DATA_OUT; the key slot unless the step wedges AESU; all of it outside WRDIN and TRIG. -/
def AesuFrame : Prop :=
  (t.aesu.key = s.aesu.key ∨ (s.aesu.phase ≠ .wedged ∧ t.aesu.phase = .wedged ∧ t.aesu.key = Config.freeKey s.draws)) ∧
    t.aesu.dout = s.aesu.dout ∧ (s.mc.st ≠ .wrdin → s.mc.st ≠ .trig → t.aesu = s.aesu)

/-- What a step of a command leaves of MC's registers: each in the states that R35 does not name for it. -/
def McFrame : Prop :=
  (s.mc.st ≠ .idle → t.mc.cmd = s.mc.cmd) ∧ (s.mc.st ≠ .check → t.mc.nblk = s.mc.nblk) ∧
    (s.mc.st ≠ .check → s.mc.st ≠ .wback → t.mc.idx = s.mc.idx ∧ t.mc.chain = s.mc.chain) ∧
    (s.mc.st ≠ .fetch → t.mc.sblk = s.mc.sblk) ∧ (s.mc.st ≠ .check → s.mc.st ≠ .fetch → t.mc.xblk = s.mc.xblk) ∧
    (s.mc.st ≠ .rdout → t.mc.yblk = s.mc.yblk) ∧ (s.mc.st ≠ .trig → s.mc.st ≠ .poll → t.mc.pcnt = s.mc.pcnt)

/-- What a step of a command leaves of BUF: every byte, but for WBACK's destination block. -/
def BufFrame : Prop :=
  (s.mc.st ≠ .wback → t.buf = s.buf) ∧
    ∀ c, (s.mc.st = .wback → ¬ inBlock (blockAt s.creg.dst s.mc.idx.toNat) c) → memRead t.buf c = memRead s.buf c

/-- What a step of a command leaves of the layout, the environment and the bus log. -/
def EnvFrame : Prop :=
  t.dev = s.dev ∧ t.host = s.host ∧ t.sched = s.sched ∧ t.draws = s.draws ∧ (s.mc.st = .idle ∨ s.mc.st = .check → t.bus = s.bus)

/-- The frame of a command's step. -/
def Frame : Prop := CregFrame s t ∧ AesuFrame s t ∧ McFrame s t ∧ BufFrame s t ∧ EnvFrame s t

end

/-! The frame of each FSM state's step. -/

section
variable {s : State}

theorem AesuFrame.of_eq {t : State} (h : t.aesu = s.aesu) : AesuFrame s t := ⟨.inl (by rw [h]), by rw [h], fun _ _ => h⟩

theorem BufFrame.of_eq {t : State} (h : t.buf = s.buf) : BufFrame s t := ⟨fun _ => h, fun _ _ => by rw [h]⟩

theorem accept_frame (hst : s.mc.st = .idle) (w : Word) : Frame s (accept w s) :=
  ⟨by simp [CregFrame, hst, keyBlock, ivBlock], .of_eq rfl, by simp [McFrame, hst], .of_eq rfl, by simp [EnvFrame]⟩

theorem checkIllegal_frame (hst : s.mc.st = .check) : Frame s (checkIllegal s) :=
  ⟨by simp [CregFrame, hst, checkIllegal, keyBlock, ivBlock], .of_eq rfl, by simp [McFrame, hst, checkIllegal], .of_eq rfl,
    by simp [EnvFrame, checkIllegal]⟩

theorem checkLoadKey_frame (hst : s.mc.st = .check) : Frame s (checkLoadKey s) :=
  ⟨by simp [CregFrame, hst, keyBlock, ivBlock], .of_eq rfl, by simp [McFrame, hst], .of_eq rfl, by simp [EnvFrame]⟩

theorem checkCrypt_frame (hst : s.mc.st = .check) (m : Mode) : Frame s (checkCrypt m s) := by
  unfold checkCrypt
  split_ifs <;>
    exact ⟨by simp [CregFrame, hst, keyBlock, ivBlock], .of_eq rfl, by simp [McFrame, hst], .of_eq rfl, by simp [EnvFrame]⟩

theorem fetchStep_frame (hst : s.mc.st = .fetch) (f : Func) (m : Mode) : Frame s (fetchStep f m s) :=
  ⟨by simp [CregFrame, hst, fetchStep], .of_eq rfl, by simp [McFrame, hst, fetchStep], .of_eq rfl, by simp [EnvFrame, hst, fetchStep]⟩

/-- A write of MC to the AESU window changes the key slot only by wedging AESU, and DATA_OUT not at all (R138, R139). -/
theorem aesuWriteBlock_key (a : Aesu) (n : Nat) (b : Block) :
    ((aesuWriteBlock a n b).key = a.key ∨
      (a.phase ≠ .wedged ∧ (aesuWriteBlock a n b).phase = .wedged ∧ (aesuWriteBlock a n b).key = Config.freeKey n)) ∧
    (aesuWriteBlock a n b).dout = a.dout := by
  cases h : a.phase <;> simp [aesuWriteBlock, aesuWedge, h]

theorem aesuTrigger_key (a : Aesu) (n : Nat) (op : DevOp) :
    ((aesuTrigger a n op).key = a.key ∨
      (a.phase ≠ .wedged ∧ (aesuTrigger a n op).phase = .wedged ∧ (aesuTrigger a n op).key = Config.freeKey n)) ∧
    (aesuTrigger a n op).dout = a.dout := by
  cases h : a.phase <;> simp [aesuTrigger, aesuWedge, h]

theorem wrdin_frame (hst : s.mc.st = .wrdin) (b : Block) (bus : List BusEvent) :
    Frame s { s with aesu := aesuWriteBlock s.aesu s.draws b, bus := bus, mc := { s.mc with st := .trig } } := by
  obtain ⟨hkey, hdout⟩ := aesuWriteBlock_key s.aesu s.draws b
  exact ⟨by simp [CregFrame], ⟨hkey, hdout, fun hn => absurd hst hn⟩, by simp [McFrame], .of_eq rfl, by simp [EnvFrame, hst]⟩

theorem trig_frame (hst : s.mc.st = .trig) (op : DevOp) (bus : List BusEvent) :
    Frame s { s with aesu := aesuTrigger s.aesu s.draws op, bus := bus, mc := { s.mc with pcnt := 0, st := .poll } } := by
  obtain ⟨hkey, hdout⟩ := aesuTrigger_key s.aesu s.draws op
  exact ⟨by simp [CregFrame], ⟨hkey, hdout, fun _ hn => absurd hst hn⟩, by simp [McFrame, hst], .of_eq rfl, by simp [EnvFrame, hst]⟩

theorem poll_frame (hst : s.mc.st = .poll) (f : Func) (v : Word) (bus : List BusEvent) :
    Frame s (pollAnswer f v { s with bus := bus }) := by
  obtain ⟨_, _, e⟩ | ⟨_, _, e⟩ | ⟨_, _, e⟩ | ⟨_, _, e⟩ := pollAnswer_cases f v { s with bus := bus } <;> rw [e] <;>
    exact ⟨by simp [CregFrame, hst, pollCounted, keyBlock, ivBlock], .of_eq rfl, by simp [McFrame, hst, pollCounted], .of_eq rfl,
      by simp [EnvFrame, hst, pollCounted]⟩

theorem rdout_frame (hst : s.mc.st = .rdout) (b : Block) (bus : List BusEvent) :
    Frame s { s with bus := bus, mc := { s.mc with yblk := b, st := .wback } } :=
  ⟨by simp [CregFrame], .of_eq rfl, by simp [McFrame, hst], .of_eq rfl, by simp [EnvFrame, hst]⟩

/-- WBACK's BUF write leaves every byte outside the destination block alone (R162, R188). -/
theorem wbackStored_outside (f : Func) (m : Mode) (hwf : Mem.wf s.buf = true) {c : Nat}
    (hc : ¬ inBlock (blockAt s.creg.dst s.mc.idx.toNat) c) : memRead (wbackStored f m s).buf c = memRead s.buf c := by
  refine mcStoreBlock_outside hwf _ _ c fun i hi he => hc ?_
  rw [← blockAddress_eq, inBlock_iff]
  exact ⟨i, hi, he⟩

theorem wbackStep_frame (hst : s.mc.st = .wback) (hwf : Mem.wf s.buf = true) (f : Func) (m : Mode) : Frame s (wbackStep f m s) := by
  have hbuf : ∀ c, ¬ inBlock (blockAt s.creg.dst s.mc.idx.toNat) c → memRead (wbackStored f m s).buf c = memRead s.buf c :=
    fun c => wbackStored_outside f m hwf
  have ha := wbackStored_aesu f m s
  have henv : (wbackStored f m s).dev = s.dev ∧ (wbackStored f m s).host = s.host ∧ (wbackStored f m s).sched = s.sched ∧
      (wbackStored f m s).draws = s.draws := by simp
  by_cases hl : s.mc.idx.toNat + 1 = s.mc.nblk.toNat
  · rw [wbackStep_last hl]
    generalize wbackStored f m s = u at hbuf ha henv ⊢
    refine ⟨?_, .of_eq ha, by simp [McFrame, hst], ⟨fun hn => absurd hst hn, fun c hc => hbuf c (hc hst)⟩,
      by simp [EnvFrame, hst, henv]⟩
    by_cases hm : m = .cbc <;> simp [CregFrame, hst, hm, setIv, keyBlock]
  · rw [wbackStep_more hl]
    generalize wbackStored f m s = u at hbuf ha henv ⊢
    exact ⟨by simp [CregFrame, hst, keyBlock], .of_eq ha, by simp [McFrame, hst],
      ⟨fun hn => absurd hst hn, fun c hc => hbuf c (hc hst)⟩, by simp [EnvFrame, hst, henv]⟩

end

/-- The shared step of the commands keeps to the frame, in every FSM state, if its CHECK does. -/
theorem commandStep_frame {s t : State} (hd : s.dev.ok = true) (hwf : Mem.wf s.buf = true) {w : Word} {f : Func} {m : Mode}
    {check : State → State} (hc : s.mc.st = .check → Frame s (check s)) (h : commandStep w f m check s = .next t) : Frame s t := by
  unfold commandStep at h
  cases hst : s.mc.st <;> rw [hst] at h
  case idle => cases h; exact accept_frame hst w
  case check => cases h; exact hc hst
  case fetch => cases h; exact fetchStep_frame hst f m
  case wrdin =>
    cases (wrdinStep_eq hd).symm.trans h
    exact wrdin_frame hst _ _
  case trig =>
    cases hop : devOpOf f with
    | none => simp [trigStep, hop] at h
    | some op =>
      cases (trigStep_eq hd hop).symm.trans h
      exact trig_frame hst op _
  case poll =>
    cases (pollStep_eq f s).symm.trans h
    exact poll_frame hst f _ _
  case rdout =>
    cases (rdoutStep_eq hd).symm.trans h
    exact rdout_frame hst _ _
  case wback => cases h; exact wbackStep_frame hst hwf f m

/-- Every command word has a FUNC and a MODE (R91). -/
theorem command_fields {i : Instr} (h : i.format = .cmd) : ∃ f m, i.func = some f ∧ i.mode = some m := by
  cases i with
  | encrypt => cases h
  | decrypt => cases h
  | setKey => cases h
  | _ => exact ⟨_, _, rfl, rfl⟩

/-- Settles O40: every command is the shared step, with one of three CHECKs. -/
theorem commandFrame : Obligations.CommandFrame := by
  intro i s t hi hd h hwf
  obtain ⟨f, m, hf, hm⟩ := command_fields hi
  obtain ⟨check, he, hcheck⟩ := exec_command hf hm
  refine commandStep_frame hd hwf (fun hst => ?_) ((he s).symm.trans h)
  obtain rfl | ⟨rfl, -⟩ | ⟨rfl, -⟩ := hcheck
  · exact checkIllegal_frame hst
  · exact checkLoadKey_frame hst
  · exact checkCrypt_frame hst m

end Sys2Proof.Machine
end

section
/-! PROOFS. The encrypt and decrypt commands, run block by block in any interleaving with AESU and a host that keeps to R75, follow the
loops of R192 to R195. -/

namespace Sys2Proof.Machine

open Sys2Proof.Safety

/-! The loop of the command latched in a state, round by round. -/

/-- Each round of the loop keeps BUF's canonical form. -/
theorem blockLoop_wf (func : Func) (mode : Mode) (op : DevOp) (key : Block) (src dst : Word) {buf : Mem} (iv : Block) (h : Mem.wf buf = true)
    (k : Nat) : Mem.wf (blockLoop func mode op key src dst buf iv k).1 = true := by
  induction k with
  | zero => exact h
  | succ k ih =>
    simp only [blockLoop]
    exact memWriteBlock_wf _ _ ih

section
variable (s : State) (op : DevOp) (key : Block) (k : Nat)

/-- The block that round `k` of the loop reads (R187). -/
def loopSource : Block := memReadBlock (commandLoop s op key k).1 (blockAt s.creg.src k)

/-- The operand of round `k` (R184). -/
def loopOperand : Block := pre (funcOf s) (modeOf s) (commandLoop s op key k).2 (loopSource s op key k)

/-- The device's result in round `k` (R128, R129). -/
def loopResult : Block := transform op key (loopOperand s op key k)

variable {s k}

theorem commandLoop_wf (h : Mem.wf s.buf = true) : Mem.wf (commandLoop s op key k).1 = true :=
  blockLoop_wf _ _ _ _ _ _ _ h k

theorem commandLoop_succ (hk : k < 2 ^ 28) :
    commandLoop s op key (k + 1) =
      (memWriteBlock (commandLoop s op key k).1 (blockAt s.creg.dst k)
        (post (funcOf s) (modeOf s) (commandLoop s op key k).2 (loopResult s op key k)),
      chainNext (funcOf s) (modeOf s) (commandLoop s op key k).2 (loopSource s op key k) (loopResult s op key k)) :=
  blockLoop_succ _ _ _ _ _ _ _ _ hk

end

/-- The count of blocks written, after block `i` (R29, R39). -/
theorem setWidth_add_one (i : BitVec 28) : i.setWidth 32 + 1 = BitVec.ofNat 32 (i.toNat + 1) := by
  apply BitVec.eq_of_toNat_eq
  have := i.isLt
  simp

/-! The host's writes meanwhile (R75). -/

/-- Each write of the list is at an address outside the two ranges of the command (R75). -/
def WritesOutside (c : Creg) (writes : List Host.Cell) : Prop := ∀ w ∈ writes, ∃ a : Word, w.1 = a.toNat ∧ inCommandRange c a = false

theorem WritesOutside.inBuf {c : Creg} {writes : List Host.Cell} (h : WritesOutside c writes) : InBuf writes := by
  intro w hw
  obtain ⟨a, e, -⟩ := h w hw
  exact e ▸ a.isLt

/-- Such a write is in no source block and in no destination block of the command (R75, R162). -/
theorem WritesOutside.not_inBlock {c : Creg} {writes : List Host.Cell} (h : WritesOutside c writes) {i : Nat} (hi : i < (lenBlocks c).toNat)
    {w : Host.Cell} (hw : w ∈ writes) : ¬ inBlock (blockAt c.src i) w.1 ∧ ¬ inBlock (blockAt c.dst i) w.1 := by
  obtain ⟨a, e, ha⟩ := h w hw
  obtain ⟨hsrc, hdst⟩ : inRange c.src c.len a = false ∧ inRange c.dst c.len a = false := by simpa [inCommandRange] using ha
  rw [e]
  exact ⟨not_inBlock_of_not_inRange hsrc hi, not_inBlock_of_not_inRange hdst hi⟩

theorem withWrites_append (m : Mem) (ws writes : List Host.Cell) :
    withWrites m (ws ++ writes) = withWrites (withWrites m writes) ws := List.foldr_append

theorem hostWrites_of_turn {t : State} (h : t.turn ≠ .host) : hostWrites t = [] := by
  unfold hostWrites
  split
  · contradiction
  · rfl

theorem hostWrites_of_line {t : State} (h : ∀ a b rest, t.host.prog ≠ .bufWrite a b :: rest) : hostWrites t = [] := by
  unfold hostWrites
  split
  · exact absurd ‹_› (h _ _ _)
  · rfl

/-- On a quiet turn the host writes BUF outside the two ranges or not at all. -/
theorem hostWrites_outside {t : State} (hq : quiet t = true) : WritesOutside t.creg (hostWrites t) := by
  unfold hostWrites
  split
  next a b _ ht hp =>
    have hout : inCommandRange t.creg a = false := by simpa [quiet, ht, hp] using hq
    simpa [WritesOutside] using ⟨a, rfl, hout⟩
  next => simp [WritesOutside]

/-- A host write that does not race is a plain one (R63, R74). -/
theorem hostStoreByte_plain {a : Word} {s : State} (h : hostWriteRaces a s = false) (b : Byte) :
    (hostStoreByte a b s).buf = memWrite s.buf a.toNat b ∧ (hostStoreByte a b s).hostRace = s.hostRace := by
  simp [hostStoreByte, hostWriteLost, h]

/-- On a quiet turn while BUSY = 1 the host can set OVR and write BUF outside the two ranges; no more of AES-MC or BUF changes (R33, R75). -/
theorem HostMove.quiet_busy {t u : State} (move : HostMove t.afterTurn u) (ht : t.turn = .host) (hq : Safety.quiet t = true)
    (hb : t.mc.st ≠ .idle) :
    (∃ ovr, u.creg = { t.creg with ovr := ovr }) ∧ u.mc = t.mc ∧ u.buf = withWrites t.buf (hostWrites t) ∧ u.hostRace = t.hostRace := by
  cases move with
  | quiet creg mc buf race line => exact ⟨⟨_, creg⟩, mc, by rw [hostWrites_of_line (t := t) line]; exact buf, race⟩
  | dropped _ creg mc buf race line => exact ⟨⟨_, creg⟩, mc, by rw [hostWrites_of_line (t := t) line]; exact buf, race⟩
  | store a b rest line buf creg mc race =>
    have hp : t.host.prog = .bufWrite a b :: rest := line
    have hout : hostWriteRaces a t.afterTurn = false := by
      have : inCommandRange t.creg a = false := by simpa [Safety.quiet, ht, hp] using hq
      simp [hostWriteRaces, this]
    have hw : hostWrites t = [(a.toNat, b)] := by simp [hostWrites, ht, hp]
    obtain ⟨hbuf, hrace⟩ := hostStoreByte_plain hout b
    exact ⟨⟨_, creg⟩, mc, by rw [hw]; exact buf.trans hbuf, race.trans hrace⟩
  | register _ _ _ _ idle => exact absurd idle hb
  | accepted _ idle => exact absurd idle hb

/-! Where a run of the command stands. -/

/-- What a run of the command latched in `s` keeps until its end, in the state `t` it has reached with the host's `writes`. -/
structure RunFrame (s : State) (key : Block) (writes : List Host.Cell) (t : State) : Prop where
  len : t.creg.len = s.creg.len
  src : t.creg.src = s.creg.src
  dst : t.creg.dst = s.creg.dst
  iv : ivBlock t.creg = ivBlock s.creg
  keyed : t.creg.keyed = true
  cmd : t.mc.cmd = s.mc.cmd
  has_key : t.aesu.key = some key
  no_race : t.hostRace = []
  dev_ok : t.dev.ok = true
  outside : WritesOutside s.creg writes

/-- A run that stands at CHECK. -/
structure AtCheck (s : State) (key : Block) (writes : List Host.Cell) (t : State) : Prop extends RunFrame s key writes t where
  st : t.mc.st = .check
  phase : t.aesu.phase = .ready
  blkcnt : t.creg.blkcnt = 0
  buf : t.buf = withWrites s.buf writes

/-- A run that stands in block `t.mc.idx`: the blocks before it are written, and MC's and AESU's registers hold what the loop computes in its
round, as far as MC has come in the block. -/
structure AtBlock (s : State) (op : DevOp) (key : Block) (writes : List Host.Cell) (t : State) : Prop extends RunFrame s key writes t where
  past : t.mc.st ≠ .idle ∧ t.mc.st ≠ .check
  idx_lt : t.mc.idx.toNat < (lenBlocks s.creg).toNat
  nblk : t.mc.nblk = lenBlocks s.creg
  blkcnt : t.creg.blkcnt = BitVec.ofNat 32 t.mc.idx.toNat
  buf : t.buf = withWrites (commandLoop s op key t.mc.idx.toNat).1 writes
  chain : modeOf s = .cbc → t.mc.chain = (commandLoop s op key t.mc.idx.toNat).2
  phase : t.aesu.phase = .ready ∨ (t.mc.st = .poll ∧ t.aesu.phase = .busy op)
  fetched : t.mc.st ≠ .fetch → t.mc.sblk = loopSource s op key t.mc.idx.toNat ∧ t.mc.xblk = loopOperand s op key t.mc.idx.toNat
  operand : t.mc.st = .trig ∨ t.mc.st = .poll → t.aesu.din = t.mc.xblk
  result : t.mc.st = .poll ∨ t.mc.st = .rdout → t.aesu.phase = .ready → t.aesu.dout = loopResult s op key t.mc.idx.toNat
  read : t.mc.st = .wback → t.mc.yblk = loopResult s op key t.mc.idx.toNat

/-- A run that has not ended. -/
inductive Running (s : State) (op : DevOp) (key : Block) (writes : List Host.Cell) (t : State) : Prop where
  | check (at_ : AtCheck s key writes t)
  | block (at_ : AtBlock s op key writes t)

/-- A run that has ended, with NONE after all its blocks or with DEVICE_TIMEOUT in one of them (R189, R224). -/
inductive Ended (s : State) (op : DevOp) (key : Block) (writes : List Host.Cell) (t : State) : Prop where
  | done (st : t.mc.st = .idle) (err : t.creg.err = .none)
      (buf : t.buf = withWrites (commandLoop s op key (lenBlocks s.creg).toNat).1 writes)
      (blkcnt : t.creg.blkcnt = BitVec.ofNat 32 (lenBlocks s.creg).toNat) (keyed : t.creg.keyed = true)
      (iv : ivBlock t.creg = if modeOf s = .cbc then (commandLoop s op key (lenBlocks s.creg).toNat).2 else ivBlock s.creg)
  | timeout (k : Nat) (st : t.mc.st = .idle) (err : t.creg.err = .deviceTimeout) (keyed : t.creg.keyed = false)
      (iv : ivBlock t.creg = ivBlock s.creg) (lt : k < (lenBlocks s.creg).toNat) (blkcnt : t.creg.blkcnt = BitVec.ofNat 32 k)
      (buf : t.buf = withWrites (commandLoop s op key k).1 writes)

section
variable {s : State} {op : DevOp} {key : Block} {writes : List Host.Cell} {t : State}

theorem RunFrame.func (h : RunFrame s key writes t) : funcOf t = funcOf s := congrArg cmdFunc h.cmd

theorem RunFrame.mode (h : RunFrame s key writes t) : modeOf t = modeOf s := congrArg cmdMode h.cmd

theorem RunFrame.srcAddress (h : RunFrame s key writes t) : srcAddress t = blockAt s.creg.src t.mc.idx.toNat := by
  rw [Machine.srcAddress, blockAddress_eq, h.src]

theorem RunFrame.dstAddress (h : RunFrame s key writes t) : dstAddress t = blockAt s.creg.dst t.mc.idx.toNat := by
  rw [Machine.dstAddress, blockAddress_eq, h.dst]

theorem RunFrame.lenBlocks (h : RunFrame s key writes t) : lenBlocks t.creg = lenBlocks s.creg := by
  rw [Machine.lenBlocks, h.len]
  rfl

theorem RunFrame.lenAligned (h : RunFrame s key writes t) : lenAligned t.creg = lenAligned s.creg := by
  rw [Machine.lenAligned, h.len]
  rfl

theorem Ended.not_busy (h : Ended s op key writes t) : t.busy = false := by
  cases h with
  | done st => simp [State.busy, st]
  | timeout _ st => simp [State.busy, st]

theorem Running.frame (h : Running s op key writes t) : RunFrame s key writes t := by
  cases h with
  | check h => exact h.toRunFrame
  | block h => exact h.toRunFrame

/-- OVR and a host write outside the two ranges are all a run can see of the host; the schedule, the draw counter, the host's lines and the
bus log are not looked at. -/
theorem Running.congr {u : State} {ws : List Host.Cell} {ovr : Bool} (h : Running s op key writes t) (hd : u.dev = t.dev)
    (hc : u.creg = { t.creg with ovr := ovr }) (hm : u.mc = t.mc) (ha : u.aesu = t.aesu) (hr : u.hostRace = t.hostRace)
    (hb : u.buf = withWrites t.buf ws) (hw : WritesOutside s.creg ws) : Running s op key (ws ++ writes) u := by
  have hout : WritesOutside s.creg (ws ++ writes) := fun w hmem => (List.mem_append.1 hmem).elim (hw w) (h.frame.outside w)
  obtain ⟨dev, creg, mc, aesu, buf, host, sched, draws, bus, hostRace, mcRace⟩ := u
  dsimp only at hd hc hm ha hr hb
  subst hd hc hm ha hr hb
  cases h with
  | check h => exact .check { h with outside := hout, buf := by rw [withWrites_append, ← h.buf] }
  | block h => exact .block { h with outside := hout, buf := by rw [withWrites_append, ← h.buf] }

theorem Running.afterTurn (h : Running s op key writes t) : Running s op key writes t.afterTurn :=
  h.congr (ws := []) rfl rfl rfl rfl rfl rfl nofun

/-- A quiet turn of the host keeps the run where it stands. -/
theorem Running.host_step {u : State} (h : Running s op key writes t) (ht : t.turn = .host) (hq : quiet t = true) (hb : t.mc.st ≠ .idle)
    (hs : hostStep t.afterTurn = .next u) : Running s op key (hostWrites t ++ writes) u := by
  obtain ⟨ha, -, -, -, -, move⟩ := hostStep_move hs
  obtain ⟨⟨ovr, hc⟩, hm, hbuf, hr⟩ := move.quiet_busy ht hq hb
  have hrange : inCommandRange t.creg = inCommandRange s.creg := by
    funext a
    rw [inCommandRange, h.frame.len, h.frame.src, h.frame.dst, inCommandRange]
  have hw : WritesOutside s.creg (hostWrites t) := by
    have := hostWrites_outside hq
    rwa [WritesOutside, hrange] at this
  exact h.congr (hostStep_dev hs :) hc hm ha hr hbuf hw

/-! The steps of MC in a block. -/

theorem AtBlock.ready_of (h : AtBlock s op key writes t) (hst : t.mc.st ≠ .poll) : t.aesu.phase = .ready :=
  h.phase.resolve_right fun e => hst e.1

/-- FETCH reads the source block the loop reads: no write of the host is in it (R75, R187). -/
theorem AtBlock.fetch (hwf : Mem.wf s.buf = true) (h : AtBlock s op key writes t) (hst : t.mc.st = .fetch) :
    AtBlock s op key writes (fetchStep (funcOf t) (modeOf t) t) := by
  have hb : mcLoadBlock (srcAddress t) t = loopSource s op key t.mc.idx.toNat := by
    rw [mcLoadBlock_quiet h.no_race, h.buf, h.srcAddress,
      memReadBlock_withWrites (commandLoop_wf _ _ hwf) h.outside.inBuf fun _ hw => (h.outside.not_inBlock h.idx_lt hw).1]
    rfl
  have hx : pre (funcOf t) (modeOf t) t.mc.chain (mcLoadBlock (srcAddress t) t) = loopOperand s op key t.mc.idx.toNat := by
    rw [hb, h.func, h.mode, pre_congr h.chain]
    rfl
  exact { h with
    past := by simp [fetchStep]
    phase := .inl (h.ready_of (by simp [hst]))
    fetched := fun _ => ⟨hb, hx⟩
    operand := nofun
    result := nofun
    read := nofun }

/-- WRDIN puts the operand in DATA_IN of an AESU that is Ready (R121, R132). -/
theorem AtBlock.wrdin (h : AtBlock s op key writes t) (hst : t.mc.st = .wrdin) (n : Nat) (bus : List BusEvent) :
    AtBlock s op key writes { t with aesu := aesuWriteBlock t.aesu n t.mc.xblk, bus := bus, mc := { t.mc with st := .trig } } := by
  have hp := h.ready_of (by simp [hst])
  have e : aesuWriteBlock t.aesu n t.mc.xblk = { t.aesu with din := t.mc.xblk } := by simp [aesuWriteBlock, hp]
  rw [e]
  exact { h with
    past := by simp
    phase := .inl hp
    fetched := fun _ => h.fetched (by simp [hst])
    operand := fun _ => rfl
    result := nofun
    read := nofun }

/-- TRIG starts the command's operation (R122, R133). -/
theorem AtBlock.trig (h : AtBlock s op key writes t) (hst : t.mc.st = .trig) (n : Nat) (bus : List BusEvent) :
    AtBlock s op key writes
      { t with aesu := aesuTrigger t.aesu n op, bus := bus, mc := { t.mc with pcnt := 0, st := .poll } } := by
  have e : aesuTrigger t.aesu n op = { t.aesu with phase := .busy op } := by
    simp [aesuTrigger, h.ready_of (by simp [hst])]
  rw [e]
  exact { h with
    past := by simp
    phase := .inr ⟨rfl, rfl⟩
    fetched := fun _ => h.fetched (by simp [hst])
    operand := fun _ => h.operand (.inl hst)
    result := fun _ => nofun
    read := nofun }

/-- POLL goes on to RDOUT when AESU has completed, polls again, or times out with this block unwritten (R123, R224). -/
theorem AtBlock.poll (hf : funcOf s ≠ .setKey) (h : AtBlock s op key writes t) (hst : t.mc.st = .poll) (n : Nat) (bus : List BusEvent) :
    AtBlock s op key writes (pollAnswer (funcOf t) (aesuStatus t.aesu n) { t with bus := bus }) ∨
      Ended s op key writes (pollAnswer (funcOf t) (aesuStatus t.aesu n) { t with bus := bus }) := by
  have hfetched := h.fetched (by simp [hst])
  obtain ⟨-, hk, -⟩ | ⟨hv, -, e⟩ | ⟨-, -, e⟩ | ⟨-, -, e⟩ :=
    pollAnswer_cases (funcOf t) (aesuStatus t.aesu n) { t with bus := bus }
  · exact absurd (h.func ▸ hk) hf
  · have hp : t.aesu.phase = .ready := h.phase.resolve_right fun hbusy => hv (aesuStatus_busy hbusy.2 n)
    rw [e]
    exact .inl { h with
      past := by simp
      phase := .inl hp
      fetched := fun _ => hfetched
      operand := nofun
      result := fun _ => h.result (.inl hst)
      read := nofun }
  · rw [e]
    exact .inr (.timeout t.mc.idx.toNat rfl rfl rfl h.iv h.idx_lt h.blkcnt h.buf)
  · rw [e]
    exact .inl { h with
      past := by simp
      phase := h.phase.imp_right fun hbusy => ⟨rfl, hbusy.2⟩
      fetched := fun _ => hfetched
      operand := fun _ => h.operand (.inr hst)
      result := fun _ => h.result (.inl hst)
      read := nofun }

/-- RDOUT reads the loop's result (R124, R136). -/
theorem AtBlock.rdout (h : AtBlock s op key writes t) (hst : t.mc.st = .rdout) (n : Nat) (bus : List BusEvent) :
    AtBlock s op key writes { t with bus := bus, mc := { t.mc with yblk := aesuOutBlock t.aesu n, st := .wback } } := by
  have hp := h.ready_of (by simp [hst])
  exact { h with
    past := by simp
    phase := .inl hp
    fetched := fun _ => h.fetched (by simp [hst])
    operand := nofun
    result := nofun
    read := fun _ => (aesuOutBlock_ready hp n).trans (h.result (.inr hst) hp) }

/-- WBACK writes the block the loop writes, beside the host's writes (R75, R188). -/
theorem AtBlock.stored_buf (hwf : Mem.wf s.buf = true) (h : AtBlock s op key writes t) (hst : t.mc.st = .wback) :
    (wbackStored (funcOf s) (modeOf s) t).buf = withWrites (commandLoop s op key (t.mc.idx.toNat + 1)).1 writes := by
  rw [wbackStored, mcStoreBlock_quiet h.no_race, h.dstAddress, post_congr h.chain, h.read hst, h.buf,
    memWriteBlock_withWrites (commandLoop_wf _ _ hwf) _ h.outside.inBuf fun _ hw => (h.outside.not_inBlock h.idx_lt hw).2,
    commandLoop_succ _ _ t.mc.idx.isLt]

/-- WBACK leaves the loop's chaining value, in CBC (R186, R188). -/
theorem AtBlock.next_chain (h : AtBlock s op key writes t) (hst : t.mc.st = .wback) (hm : modeOf s = .cbc) :
    wbackChain (funcOf s) (modeOf s) t = (commandLoop s op key (t.mc.idx.toNat + 1)).2 := by
  rw [wbackChain, h.chain hm, (h.fetched (by simp [hst])).1, h.read hst, commandLoop_succ _ _ t.mc.idx.isLt]

/-- WBACK goes on to the next block, or ends the command after the last one (R188, R189). -/
theorem AtBlock.wback (hwf : Mem.wf s.buf = true) (h : AtBlock s op key writes t) (hst : t.mc.st = .wback) :
    AtBlock s op key writes (wbackStep (funcOf t) (modeOf t) t) ∨ Ended s op key writes (wbackStep (funcOf t) (modeOf t) t) := by
  have hbuf := h.stored_buf hwf hst
  have hchain := h.next_chain hst
  have hrace : (wbackStored (funcOf s) (modeOf s) t).hostRace = [] := mcStoreBlock_hostRace_nil h.no_race _ _
  have hd : (wbackStored (funcOf s) (modeOf s) t).dev = t.dev := by simp
  have ha : (wbackStored (funcOf s) (modeOf s) t).aesu = t.aesu := by simp
  have hcount := setWidth_add_one t.mc.idx
  rw [h.func, h.mode]
  by_cases hlast : t.mc.idx.toNat + 1 = t.mc.nblk.toNat
  · rw [wbackStep_last hlast]
    generalize wbackStored (funcOf s) (modeOf s) t = u at hbuf ⊢
    rw [h.nblk] at hlast
    rw [hlast] at hbuf hchain hcount
    refine .inr (.done rfl rfl hbuf hcount ?_ ?_)
    · dsimp only
      split_ifs <;> exact h.keyed
    · dsimp only
      split_ifs with hm
      · exact (ivBlock_setIv _ t.creg).trans (hchain hm)
      · exact h.iv
  · rw [wbackStep_more hlast]
    rw [h.nblk] at hlast
    have hidx : (t.mc.idx + 1).toNat = t.mc.idx.toNat + 1 := by
      have := h.idx_lt
      simp
      omega
    generalize wbackStored (funcOf s) (modeOf s) t = u at hbuf hrace hd ha ⊢
    rw [← hidx] at hbuf hchain hcount
    exact .inl
      { h with
        has_key := ha ▸ h.has_key
        no_race := hrace
        dev_ok := hd ▸ h.dev_ok
        past := by simp
        idx_lt := by
          have := h.idx_lt
          dsimp only
          omega
        blkcnt := hcount
        buf := hbuf
        chain := hchain
        phase := .inl (ha ▸ h.ready_of (by simp [hst]))
        fetched := nofun
        operand := nofun
        result := nofun
        read := nofun }

/-- With a key loaded a transform completes with the transform of DATA_IN in DATA_OUT; of the rest of AESU only the phase changes (R134). -/
theorem aesuComplete_with_key {op : DevOp} (hop : op ≠ .setKey) {a : Aesu} {k : Block} (hk : a.key = some k) (n : Nat) :
    aesuComplete op a n = { a with dout := transform op k a.din, phase := .ready } := by
  cases op with
  | setKey => exact absurd rfl hop
  | enc => simp [aesuComplete, transformResult, hk]
  | dec => simp [aesuComplete, transformResult, hk]

/-- AESU completes the command's operation on the loop's operand, while MC polls (R134). -/
theorem AtBlock.complete (hop : op ≠ .setKey) (h : AtBlock s op key writes t) {op' : DevOp} (hp : t.aesu.phase = .busy op') (n : Nat) :
    AtBlock s op key writes { t with aesu := aesuComplete op' t.aesu n } := by
  obtain ⟨hst, hbusy⟩ := h.phase.resolve_left (by simp [hp])
  obtain rfl : op' = op := by simpa [hp] using hbusy
  have hout : transform op' key t.aesu.din = loopResult s op' key t.mc.idx.toNat := by
    rw [h.operand (.inr hst), (h.fetched (by simp [hst])).2]
    rfl
  rw [aesuComplete_with_key hop h.has_key]
  exact { h with
    phase := .inl rfl
    operand := fun _ => h.operand (.inr hst)
    result := fun _ _ => hout }

/-! The run as a whole. -/

section
variable (hr : ReadyToRun s key)
include hr

theorem atCheck_start : AtCheck s key [] s :=
  { len := rfl, src := rfl, dst := rfl, iv := rfl, keyed := hr.keyed, cmd := rfl, has_key := hr.has_key, no_race := hr.no_race
    dev_ok := hr.dev_ok, outside := nofun, st := hr.at_check, phase := hr.phase, blkcnt := hr.blkcnt, buf := rfl }

/-- CHECK passes: the run goes on to block 0, or ends with NONE when there is no block (R161, R183). -/
theorem AtCheck.next {u : State} (h : AtCheck s key writes t) (move : CheckMove t u) :
    AtBlock s op key writes u ∨ Ended s op key writes u := by
  cases move with
  | illegal word => simp [h.cmd, hr.legal] at word
  | loadKey _ func => exact absurd (h.func ▸ func) hr.crypt
  | crypt _ _ _ _ eq =>
    subst eq
    rw [checkCrypt, h.lenAligned, hr.aligned, h.keyed, h.lenBlocks, h.mode, if_neg (by simp), if_neg (by simp)]
    split_ifs with hn
    · have hzero : (lenBlocks s.creg).toNat = 0 := by simp [hn]
      exact .inr (.done rfl rfl (by rw [hzero]; exact h.buf) (by rw [hzero]; exact h.blkcnt) h.keyed
        (by rw [hzero]; exact h.iv.trans (ite_self _).symm))
    · exact .inl
        { h with
          past := by simp
          idx_lt := Nat.pos_of_ne_zero fun e => hn (BitVec.eq_of_toNat_eq e)
          nblk := h.lenBlocks
          chain := fun hm => (if_pos hm).trans h.iv
          phase := .inl h.phase
          fetched := nofun
          operand := nofun
          result := nofun
          read := nofun }

variable (hop : devOpOf (funcOf s) = some op)
include hop

/-- A step of MC follows the loop. -/
theorem Running.mc_step {u : State} (h : Running s op key writes t) (move : McMove t u) :
    Running s op key writes u ∨ Ended s op key writes u := by
  cases h with
  | check h =>
    have hst := h.st
    cases move with
    | check _ move => exact (h.next hr move).imp_left .block
    | fetch st | wrdin st | trig st | poll st | rdout st | wback st => simp [hst] at st
  | block h =>
    cases move with
    | check st => exact absurd st h.past.2
    | fetch st eq => exact .inl (.block (eq ▸ h.fetch hr.buf_wf st))
    | wrdin st eq => exact .inl (.block (eq ▸ h.wrdin st _ _))
    | trig st op' opc eq =>
      obtain rfl : op = op' := Option.some.inj (hop.symm.trans (h.func ▸ opc))
      exact .inl (.block (eq ▸ h.trig st _ _))
    | poll st eq => exact eq ▸ (h.poll hr.crypt st _ _).imp_left .block
    | rdout st eq => exact .inl (.block (eq ▸ h.rdout st _ _))
    | wback st eq => exact eq ▸ (h.wback hr.buf_wf st).imp_left .block

/-- A completion of AESU follows the loop. -/
theorem Running.complete (h : Running s op key writes t) {op' : DevOp} (hp : t.aesu.phase = .busy op') (n : Nat) :
    Running s op key writes { t with aesu := aesuComplete op' t.aesu n } := by
  cases h with
  | check h => simp [h.phase] at hp
  | block h => exact .block (h.complete (fun e => hr.crypt ((devOpOf_setKey_iff hop).1 e)) hp n)

/-- Every quiet step of a run follows the loop. -/
theorem Running.step {u : State} (h : Running s op key writes t) (hb : t.busy = true) (hq : quiet t = true) (hs : step t = .next u) :
    Running s op key (hostWrites t ++ writes) u ∨ Ended s op key (hostWrites t ++ writes) u := by
  have hst : t.mc.st ≠ .idle := by simpa [State.busy] using hb
  cases step_move h.frame.dev_ok hs with
  | host turn eq => exact .inl (h.host_step turn hq hst eq)
  | mcIdle _ idle => exact absurd idle hst
  | mc turn _ move =>
    rw [hostWrites_of_turn (by simp [turn])]
    exact h.afterTurn.mc_step hr hop move
  | complete turn op' phase eq =>
    rw [hostWrites_of_turn (by simp [turn])]
    exact .inl (eq ▸ h.afterTurn.complete hr hop phase _)
  | aesuIdle turn _ eq =>
    rw [hostWrites_of_turn (by simp [turn])]
    exact .inl (eq ▸ h.afterTurn)
  | mcReset turn => simp [quiet, turn] at hq
  | systemReset turn => simp [quiet, turn] at hq

theorem busyRun_follows_loop (run : BusyRun s writes t) : Running s op key writes t ∨ Ended s op key writes t := by
  induction run with
  | refl => exact .inl (.check (atCheck_start hr))
  | tail _ hb hq hs ih =>
    obtain h | h := ih
    · exact h.step hr hop hb hq hs
    · simp [h.not_busy] at hb

end

end

/-- Settles O43: every quiet step from CHECK on follows the loop (`busyRun_follows_loop`), and the state it has reached is what the
statement says there. -/
theorem commandsRefineTheSpecLoops : Obligations.CommandsRefineTheSpecLoops := by
  intro s u writes key op hr hop run
  obtain (h | h) | h := busyRun_follows_loop hr hop run
  · exact ⟨fun _ hn => absurd h.st hn, fun hb => by simp [State.busy, h.st] at hb⟩
  · exact ⟨fun _ _ => ⟨h.buf, h.iv⟩, fun hb => absurd (by simpa [State.busy] using hb) h.past.1⟩
  · refine ⟨fun hb => by simp [h.not_busy] at hb, fun _ => ?_⟩
    cases h with
    | done _ err buf blkcnt keyed iv => exact .inl ⟨err, buf, blkcnt, keyed, iv⟩
    | timeout k _ err keyed iv lt blkcnt buf => exact .inr ⟨err, keyed, iv, k, lt, blkcnt, buf⟩

end Sys2Proof.Machine
end

section
/-! PROOFS. BUF: where a block lies in it (R64), what the host's accesses do and see (R63, R74, R75), and who writes it (R63, R163). -/

namespace Sys2Proof.Machine

open Sys2Proof.Safety

/-- Settles O4, with the sixteen addresses of a block as `a + i` modulo 2^32. -/
theorem blockBytesLieAtRisingAddresses : Obligations.BlockBytesLieAtRisingAddresses := by
  intro m a b hm
  refine ⟨fun i hi => ?_, fun i hi => ?_, fun c hc => ?_, memWriteBlock_wf a b hm⟩
  · rw [← byteAddress_eq, blockByte_readBlock m a hi]
  · rw [← byteAddress_eq, memRead_writeBlock_inside hm a b hi]
  · exact memRead_writeBlock_outside hm a b c fun i hi he => hc ((inBlock_iff a c).2 ⟨i, hi, he⟩)

/-! The host's accesses to BUF. -/

section
variable {s : State} {a : Word}

/-- While BUSY = 0 no host write races (R75). -/
theorem hostWriteRaces_idle (hst : s.mc.st = .idle) : hostWriteRaces a s = false := by
  simp [hostWriteRaces, State.busy, hst]

/-- While BUSY = 1 a host write races exactly inside the command's two ranges (R75). -/
theorem hostWriteRaces_iff (hst : s.mc.st ≠ .idle) :
    hostWriteRaces a s = true ↔
      (a - s.creg.src).toNat < s.creg.len.toNat ∨ (a - s.creg.dst).toNat < s.creg.len.toNat := by
  simp [hostWriteRaces, State.busy, hst, inCommandRange, inRange, BitVec.lt_def]

/-- A byte is one MC has written when it is among the first MC_BLKCNT destination blocks (R29, R162). -/
theorem mcWrote_iff (c : Creg) : mcWrote a c = true ↔ (a - c.dst).toNat < 16 * c.blkcnt.toNat := decide_eq_true_iff

/-- A racing host write of a byte MC has not written yet takes effect, and the old byte stays open to MC's reads (R75). -/
theorem hostStoreByte_unwritten (hwf : Mem.wf s.buf = true) (hr : hostWriteRaces a s = true) (hw : mcWrote a s.creg = false) (b : Byte) :
    memRead (hostStoreByte a b s).buf a.toNat = b ∧
      memRead s.buf a.toNat ∈ raceValues (hostStoreByte a b s).hostRace a.toNat := by
  simp [hostStoreByte, hostWriteLost, hr, hw, memRead_write hwf, raceValues_cons]

/-- Of a racing host write and MC's earlier write of the same byte BUF holds one, and the other stays open to MC and the host (R75). -/
theorem hostStoreByte_written (hwf : Mem.wf s.buf = true) (hr : hostWriteRaces a s = true) (hw : mcWrote a s.creg = true) (b : Byte) :
    let t := hostStoreByte a b s
    (memRead t.buf a.toNat = b ∧ memRead s.buf a.toNat ∈ raceValues t.hostRace a.toNat ∧
        memRead s.buf a.toNat ∈ raceValues t.mcRace a.toNat) ∨
      (memRead t.buf a.toNat = memRead s.buf a.toNat ∧ b ∈ raceValues t.hostRace a.toNat ∧ b ∈ raceValues t.mcRace a.toNat) := by
  cases hl : Config.freeRaceLost s.draws 0 with
  | false => exact .inl (by simp [hostStoreByte, hostWriteLost, hr, hw, hl, memRead_write hwf, raceValues_cons])
  | true => exact .inr (by simp [hostStoreByte, hostWriteLost, hr, hw, hl, raceValues_cons])

/-- A host write leaves every other byte alone, and what a race has left for it. -/
theorem hostStoreByte_other (hwf : Mem.wf s.buf = true) (b : Byte) {c : Nat} (hc : c ≠ a.toNat) :
    memRead (hostStoreByte a b s).buf c = memRead s.buf c ∧
      raceValues (hostStoreByte a b s).hostRace c = raceValues s.hostRace c := by
  unfold hostStoreByte
  dsimp only
  constructor
  · split_ifs
    · rfl
    · rw [memRead_write hwf, if_neg hc]
  · split_ifs
    · rw [raceValues_cons, if_neg (Ne.symm hc)]
    · rw [raceValues_cons, if_neg (Ne.symm hc)]
    · rfl

variable {rest : List HostLine} (ht : s.turn = .host)
include ht

theorem step_bufWrite {b : Byte} (hl : s.host.prog = .bufWrite a b :: rest) : step s = .next (hostStoreByte a b (s.atLine rest)) :=
  step_hostLine ht hl

theorem step_bufRead (hl : s.host.prog = .bufRead a :: rest) :
    step s = .next { s.atLine rest with host := { s.host with prog := rest, bytes := hostLoadByte a (s.atLine rest) :: s.host.bytes } } :=
  step_hostLine ht hl

end

/-- Settles O20, by whether the write races and whether MC has written the byte. -/
theorem hostBufAccesses : Obligations.HostBufAccesses := by
  intro s rest a ht
  refine ⟨fun b hl hst => ?_, fun b hl hst hwf => ?_, fun hl => ?_⟩
  · obtain ⟨hbuf, hrace⟩ := hostStoreByte_plain (s := s.atLine rest) (hostWriteRaces_idle hst) b
    exact ⟨_, step_bufWrite ht hl, hbuf, hrace, rfl, rfl, rfl⟩
  · have hraces := hostWriteRaces_iff (s := s.atLine rest) (a := a) hst
    have hwrote := mcWrote_iff (a := a) (s.atLine rest).creg
    refine ⟨_, step_bufWrite ht hl, ⟨fun hn => ?_, fun hr hw => ?_, fun hr hw => ?_, fun c hc => ?_⟩, rfl, rfl, rfl, rfl, rfl⟩
    · exact hostStoreByte_plain (Bool.eq_false_iff.2 (mt hraces.1 hn)) b
    · exact hostStoreByte_unwritten (s := s.atLine rest) hwf (hraces.2 hr) (Bool.eq_false_iff.2 (mt hwrote.1 hw)) b
    · exact hostStoreByte_written (s := s.atLine rest) hwf (hraces.2 hr) (hwrote.2 hw) b
    · exact hostStoreByte_other (s := s.atLine rest) hwf b hc
  · exact ⟨_, seenByte_mem _ _ _, step_bufRead ht hl⟩

/-- With nothing open to its reads the host reads what BUF holds (R74). -/
theorem hostLoadByte_quiet {s : State} (h : s.mcRace = []) (a : Word) : hostLoadByte a s = memRead s.buf a.toNat := by
  rw [hostLoadByte, h, raceValues_nil, seenByte_nil]

/-- Settles O21: the read of DONE = 1 leaves nothing open to the host's reads. -/
theorem bufIsVisibleAfterDone : Obligations.BufIsVisibleAfterDone := by
  intro s t u rest a ht hl hdone hs ht' hs'
  cases (step_cregRead ht hl (by decide)).symm.trans hs
  cases (step_bufRead ht' rfl).symm.trans hs'
  exact congrArg (· :: s.host.bytes) (hostLoadByte_quiet (if_pos ⟨rfl, rfl, hdone⟩) a)

/-! The writers of BUF. -/

/-- A host step that is no BUF write leaves BUF alone (R63). -/
theorem HostMove.line_of_buf {s t : State} (move : HostMove s t) (hne : t.buf ≠ s.buf) :
    ∃ a b rest, s.host.prog = .bufWrite a b :: rest := by
  cases move with
  | quiet _ _ buf => exact absurd buf hne
  | store a b rest line => exact ⟨a, b, rest, line⟩
  | dropped _ _ _ buf => exact absurd buf hne
  | register _ _ _ _ _ _ _ buf => exact absurd buf hne
  | accepted _ _ _ _ buf => exact absurd buf hne

theorem CheckMove.buf_eq {s t : State} (move : CheckMove s t) : t.buf = s.buf := by
  cases move with
  | illegal _ eq => rw [eq, checkIllegal, finish_buf]
  | loadKey _ _ _ eq => rw [eq, checkLoadKey_buf]
  | crypt _ _ _ _ eq =>
    rw [eq, checkCrypt]
    split_ifs <;> rfl

theorem pollAnswer_buf (f : Func) (v : Word) (s : State) : (pollAnswer f v s).buf = s.buf := by
  obtain ⟨_, _, e⟩ | ⟨_, _, e⟩ | ⟨_, _, e⟩ | ⟨_, _, e⟩ := pollAnswer_cases f v s <;> rw [e] <;> rfl

/-- A step of MC that changes BUF is WBACK (R163). -/
theorem McMove.wback_of_buf {s t : State} (move : McMove s t) (hne : t.buf ≠ s.buf) : s.mc.st = .wback := by
  cases move with
  | wback st => exact st
  | check _ move => exact absurd move.buf_eq hne
  | poll _ eq => exact absurd (eq ▸ pollAnswer_buf ..) hne
  | fetch _ eq => exact absurd (by rw [eq]; rfl) hne
  | wrdin _ eq => exact absurd (by rw [eq]) hne
  | trig _ _ _ eq => exact absurd (by rw [eq]) hne
  | rdout _ eq => exact absurd (by rw [eq]) hne

/-- Settles O53, by the moves a step can make. -/
theorem onlyHostAndWbackWriteBuf : Obligations.OnlyHostAndWbackWriteBuf := by
  intro s t h hs hne
  cases step_move h.dev_ok hs with
  | host turn eq =>
    obtain ⟨-, -, -, -, -, move⟩ := hostStep_move eq
    exact .inl ⟨turn, move.line_of_buf hne⟩
  | mc turn _ move => exact .inr ⟨turn, move.wback_of_buf hne⟩
  | mcIdle _ _ eq => exact absurd (by rw [eq]; rfl) hne
  | complete _ _ _ eq => exact absurd (by rw [eq]; rfl) hne
  | aesuIdle _ _ eq => exact absurd (by rw [eq]; rfl) hne
  | mcReset _ eq => exact absurd (by rw [eq]; rfl) hne
  | systemReset _ eq => exact absurd (by rw [eq]; rfl) hne

end Sys2Proof.Machine
end

section
/-! PROOFS. One block of an encrypt or decrypt command with AESU Ready, no host write open and AESU completing before the first poll
(R73, R120, R184 to R188). -/

namespace Sys2Proof.Machine

open Sys2Proof.Safety

theorem aesuDataOut_ready {a : Aesu} (h : a.phase = .ready) (n j : Nat) : aesuDataOut a n j = blockWord a.dout j := by
  simp [aesuDataOut, h]

/-- AESU busy with an operation completes it by the opcode's meaning (R134). -/
theorem exec_devInstr_busy {op : DevOp} {s : State} (hp : s.aesu.phase = .busy op) :
    exec (devInstr op) s = .next { s with aesu := aesuComplete op s.aesu s.draws } := by
  have h : deviceStep op s = { s with aesu := aesuComplete op s.aesu s.draws } := if_pos hp
  cases op <;> exact congrArg _ h

section
variable {i : Instr} {f : Func} {m : Mode} {op : DevOp} (hc : (i, f, m, op) ∈ cryptCommands) {s : State}
include hc

theorem exec_fetch (hst : s.mc.st = .fetch) : exec i s = .next (fetchStep f m s) := by
  rw [(exec_crypt hc s).1, commandStep, hst]

theorem exec_wrdin_ready (hd : s.dev.ok = true) (hst : s.mc.st = .wrdin) (hp : s.aesu.phase = .ready) :
    exec i s = .next { s with
      aesu := { s.aesu with din := s.mc.xblk }, bus := wrdinEvents s.dev s.mc.xblk ++ s.bus, mc := { s.mc with st := .trig } } := by
  simp [(exec_crypt hc s).1, commandStep, hst, wrdinStep_eq hd, aesuWriteBlock, hp]

theorem exec_trig_ready (hd : s.dev.ok = true) (hst : s.mc.st = .trig) (hp : s.aesu.phase = .ready) :
    exec i s = .next { s with
      aesu := { s.aesu with phase := .busy op }, bus := .devWrite s.dev.ctrlOff (s.dev.opc op) :: s.bus
      mc := { s.mc with pcnt := 0, st := .poll } } := by
  obtain ⟨he, hop, -⟩ := exec_crypt hc s
  simp [he, commandStep, hst, trigStep_eq hd hop, aesuTrigger, hp]

theorem exec_poll_ready (hst : s.mc.st = .poll) (hp : s.aesu.phase = .ready) :
    exec i s = .next { s with
      bus := .devRead s.dev.statOff (aesuStatus s.aesu s.draws) :: s.bus, mc := { s.mc with pcnt := s.mc.pcnt + 1, st := .rdout } } := by
  obtain ⟨he, -, hf⟩ := exec_crypt hc s
  simp only [he, commandStep, hst, pollStep_eq, pollAnswer]
  rw [if_pos (aesuStatus_ready hp _), if_neg hf]
  rfl

theorem exec_rdout_ready (hd : s.dev.ok = true) (hst : s.mc.st = .rdout) (hp : s.aesu.phase = .ready) :
    exec i s = .next { s with
      bus := rdoutEvents s.dev s.aesu s.draws ++ s.bus, mc := { s.mc with yblk := s.aesu.dout, st := .wback } } := by
  simp [(exec_crypt hc s).1, commandStep, hst, rdoutStep_eq hd, aesuOutBlock_ready hp]

theorem exec_wback (hst : s.mc.st = .wback) : exec i s = .next (wbackStep f m s) := by
  rw [(exec_crypt hc s).1, commandStep, hst]

end

/-- WBACK with no host write open (R188): the output block is written and counted, the chain updated, and the command ends or goes on. -/
theorem wbackStep_quiet (f : Func) (m : Mode) {s : State} (h : s.hostRace = []) :
    let t := wbackStep f m s
    let dst := blockAt s.creg.dst s.mc.idx.toNat
    let out := post f m s.mc.chain s.mc.yblk
    t.buf = memWriteBlock s.buf dst out ∧ t.mc.chain = wbackChain f m s ∧ t.bus = .bufWrite dst out :: s.bus ∧
      t.creg.blkcnt = BitVec.ofNat 32 (s.mc.idx.toNat + 1) ∧ t.aesu = s.aesu ∧
      t.mc.st = if s.mc.idx.toNat + 1 = s.mc.nblk.toNat then .idle else .fetch := by
  have hbuf : (wbackStored f m s).buf = memWriteBlock s.buf (blockAt s.creg.dst s.mc.idx.toNat) (post f m s.mc.chain s.mc.yblk) := by
    rw [wbackStored, mcStoreBlock_quiet h, dstAddress, blockAddress_eq]
  have hbus : (wbackStored f m s).bus =
      .bufWrite (blockAt s.creg.dst s.mc.idx.toNat) (post f m s.mc.chain s.mc.yblk) :: s.bus := by
    rw [wbackStored_bus, dstAddress, blockAddress_eq]
  have ha := wbackStored_aesu f m s
  dsimp only
  by_cases hlast : s.mc.idx.toNat + 1 = s.mc.nblk.toNat
  · rw [wbackStep_last hlast, if_pos hlast]
    generalize wbackStored f m s = u at hbuf hbus ha ⊢
    exact ⟨hbuf, rfl, hbus, setWidth_add_one _, ha, rfl⟩
  · rw [wbackStep_more hlast, if_neg hlast]
    generalize wbackStored f m s = u at hbuf hbus ha ⊢
    exact ⟨hbuf, rfl, hbus, setWidth_add_one _, ha, rfl⟩

section
variable {i : Instr} {f : Func} {m : Mode} {op : DevOp} (hc : (i, f, m, op) ∈ cryptCommands) {s : State} (hd : s.dev.ok = true)
include hc hd

/-- From FETCH three MC steps read the source block and start the operation on its operand (R187, R121, R122). -/
theorem block_sent (hst : s.mc.st = .fetch) (hp : s.aesu.phase = .ready) (hr : s.hostRace = []) :
    let x := memReadBlock s.buf (blockAt s.creg.src s.mc.idx.toNat)
    let y := pre f m s.mc.chain x
    ∃ s1 s2 s3 : State, exec i s = .next s1 ∧ exec i s1 = .next s2 ∧ exec i s2 = .next s3 ∧ s3 = { s with
      mc := { s.mc with sblk := x, xblk := y, pcnt := 0, st := .poll }
      aesu := { s.aesu with din := y, phase := .busy op }
      bus := .devWrite s.dev.ctrlOff (s.dev.opc op) :: (wrdinEvents s.dev y ++
        .bufRead (blockAt s.creg.src s.mc.idx.toNat) x :: s.bus) } := by
  have ha : srcAddress s = blockAt s.creg.src s.mc.idx.toNat := by rw [srcAddress, blockAddress_eq]
  refine ⟨_, _, _, exec_fetch hc hst, exec_wrdin_ready hc hd rfl hp, exec_trig_ready hc hd rfl hp, ?_⟩
  simp only [fetchStep, ha, mcLoadBlock_quiet hr]

/-- From POLL, once AESU has completed, two MC steps read its result (R123, R124, R134). -/
theorem block_received {k : Block} (hst : s.mc.st = .poll) (hp : s.aesu.phase = .busy op) (hk : s.aesu.key = some k) :
    let z := transform op k s.aesu.din
    ∃ (s1 s2 s3 : State) (v : Word), v ≠ 0 ∧ exec (devInstr op) s = .next s1 ∧ exec i s1 = .next s2 ∧ exec i s2 = .next s3 ∧
      s3 = { s with
        mc := { s.mc with yblk := z, pcnt := s.mc.pcnt + 1, st := .wback }
        aesu := { s.aesu with dout := z, phase := .ready }
        bus := .devRead (s.dev.doutOff + 12) (blockWord z 3) :: .devRead (s.dev.doutOff + 8) (blockWord z 2) ::
          .devRead (s.dev.doutOff + 4) (blockWord z 1) :: .devRead s.dev.doutOff (blockWord z 0) :: .devRead s.dev.statOff v :: s.bus } := by
  obtain ⟨-, hop, hf⟩ := exec_crypt hc s
  have hne : op ≠ .setKey := fun e => hf ((devOpOf_setKey_iff hop).1 e)
  have hready := aesuComplete_phase op s.aesu s.draws
  refine ⟨_, _, _, _, aesuStatus_ready hready s.draws, exec_devInstr_busy hp, exec_poll_ready hc hst hready,
    exec_rdout_ready hc hd rfl hready, ?_⟩
  simp only [aesuComplete_with_key hne hk, rdoutEvents, aesuDataOut_ready, List.cons_append, List.nil_append]

end

/-- Settles O42: the three steps up to TRIG (`block_sent`), the completion, the two steps up to RDOUT (`block_received`) and WBACK; what each
mode writes and chains is then the datapath's own definition (R184 to R186). -/
theorem oneBlockIsTransformed : Obligations.OneBlockIsTransformed := by
  intro i f m op s k hc hd hst hp hk hr _
  obtain ⟨s1, s2, s3, h1, h2, h3, e3⟩ := block_sent hc hd hst hp hr
  obtain ⟨s4, s5, s6, v, hv, h4, h5, h6, e6⟩ :=
    block_received hc (s := s3) (k := k) (by rw [e3]; exact hd) (by rw [e3]) (by rw [e3]) (by rw [e3]; exact hk)
  obtain ⟨hbuf, hchain, hbus, hcnt, ha, hend⟩ := wbackStep_quiet f m (s := s6) (by rw [e6, e3]; exact hr)
  have hkeyed := wbackStep_keyed f m s6
  have h7 := exec_wback hc (s := s6) (by rw [e6])
  generalize wbackStep f m s6 = s7 at *
  subst e6 e3
  simp only [cryptCommands, List.mem_cons, List.not_mem_nil, or_false, Prod.mk.injEq] at hc
  rcases hc with ⟨rfl, rfl, rfl, rfl⟩ | ⟨rfl, rfl, rfl, rfl⟩ | ⟨rfl, rfl, rfl, rfl⟩ | ⟨rfl, rfl, rfl, rfl⟩ <;>
    exact ⟨s1, s2, _, s4, s5, _, s7, h1, h2, h3, h4, h5, h6, h7, ⟨hbuf, hchain, v, hv, hbus⟩, hcnt, by rw [ha], by rw [ha]; exact hk,
      hkeyed, hend⟩

end Sys2Proof.Machine
end

section
/-! PROOFS. A command word and the instruction it decodes to (R91 to R96), the fifteen words written out from the tables, and two small steps:
WAITIDLE (R104) and TRIG of a word with FUNC = 3 (R99). -/

namespace Sys2Proof.Machine

/-! The decoder's answer encodes to the word it was read from. -/

/-- A word with RSVD = 0 that is in neither other illegal class is one of the five legal commands, and the command's word is that word (R95). -/
theorem encodeFor_decodeCmd_zero {f : Func} {m : Mode} (hf : f ≠ .reserved) (hk : ¬ (f = .setKey ∧ m = .cbc)) :
    (decodeCmd (cmdWord f m 0)).wf = true ∧ (decodeCmd (cmdWord f m 0)).format = .cmd ∧
      ∀ p, encodeFor p (decodeCmd (cmdWord f m 0)) = cmdWord f m 0 := by
  cases f with
  | reserved => exact absurd rfl hf
  | setKey =>
    cases m with
    | cbc => exact absurd ⟨rfl, rfl⟩ hk
    | ecb => exact ⟨rfl, rfl, fun _ => rfl⟩
  | enc => cases m <;> exact ⟨rfl, rfl, fun _ => rfl⟩
  | dec => cases m <;> exact ⟨rfl, rfl, fun _ => rfl⟩

/-- Settles O8: a word is its three fields, and they put it in the first illegal class, the second, the legal commands or the third
illegal class. -/
theorem encodeAfterDecode : Obligations.EncodeAfterDecode := by
  intro w
  rw [← cmdWord_fields w]
  generalize cmdFunc w = f, cmdMode w = m, cmdRsvd w = r
  by_cases hf : f = .reserved
  · rw [hf, decodeCmd_cmdWord_reserved]
    exact ⟨rfl, rfl, fun _ => rfl⟩
  by_cases hk : f = .setKey ∧ m = .cbc
  · rw [hk.1, hk.2, decodeCmd_cmdWord_setKey_cbc]
    exact ⟨rfl, rfl, fun _ => rfl⟩
  by_cases hr : r = 0
  · rw [hr]
    exact encodeFor_decodeCmd_zero hf hk
  · rw [decodeCmd_cmdWord_rsvd hr hf hk]
    exact ⟨(wf_illegalRsvd_iff f m r).2 ⟨hr, hf, hk⟩, rfl, fun _ => rfl⟩

/-- A command word is the word of the instruction it decodes to. -/
theorem eq_encode_of_decodeCmd {w : Word} {i : Instr} (h : decodeCmd w = i) : w = encode i :=
  h ▸ ((encodeAfterDecode w).2.2 Config.dev).symm

/-- No two command words decode to one instruction. -/
theorem decodeCmd_eq_iff {v w : Word} {i : Instr} (h : decodeCmd v = i) : decodeCmd w = i ↔ w = v :=
  ⟨fun hw => (eq_encode_of_decodeCmd hw).trans (eq_encode_of_decodeCmd h).symm, fun e => e ▸ h⟩

/-- Settles O5: each word is a literal, so the decoder runs on it. -/
theorem specWordsDecode : Obligations.SpecWordsDecode := by
  unfold Obligations.SpecWordsDecode
  decide

/-- Settles O6: the five words decode as written out (O5), no other word decodes to the same command (`decodeCmd_eq_iff`), and the
instruction of any other word is a well-formed command word's that is none of the five. -/
theorem exactlyFiveWordsAreLegal : Obligations.ExactlyFiveWordsAreLegal := by
  intro w
  obtain ⟨h0, h1, h2, h4, h5, -⟩ := specWordsDecode
  refine ⟨decodeCmd_eq_iff h0, decodeCmd_eq_iff h1, decodeCmd_eq_iff h2, decodeCmd_eq_iff h4, decodeCmd_eq_iff h5, ?_⟩
  rintro ⟨n0, n1, n2, n4, n5⟩
  obtain ⟨hwf, hformat, -⟩ := encodeAfterDecode w
  cases hi : decodeCmd w with
  | ecbEnc => exact absurd ((decodeCmd_eq_iff h0).1 hi) n0
  | ecbDec => exact absurd ((decodeCmd_eq_iff h1).1 hi) n1
  | loadKey => exact absurd ((decodeCmd_eq_iff h2).1 hi) n2
  | cbcEnc => exact absurd ((decodeCmd_eq_iff h4).1 hi) n4
  | cbcDec => exact absurd ((decodeCmd_eq_iff h5).1 hi) n5
  | illegalFunc3 m r => exact .inl ⟨m, r, rfl⟩
  | illegalSetKeyMode1 r => exact .inr (.inl ⟨r, rfl⟩)
  | illegalRsvd f m r =>
    rw [hi] at hwf
    exact .inr (.inr ⟨f, m, r, rfl, ((wf_illegalRsvd_iff f m r).1 hwf).1⟩)
  | encrypt | decrypt | setKey =>
    rw [hi] at hformat
    cases hformat

/-! WAITIDLE, and TRIG of a word with FUNC = 3. -/

/-- BUSY is bit 0 of MC_STATUS (R27, R37). -/
theorem getLsbD_statusWord_zero (s : State) : (statusWord s).getLsbD 0 = s.busy := getLsbD_statusWord s 0

/-- Settles O19: WAITIDLE is an aligned read of MC_STATUS, and the bit it reads is BUSY. -/
theorem waitIdleLoopsWhileBusy : Obligations.WaitIdleLoopsWhileBusy := by
  intro s rest ht hl
  rw [step_hostLine ht hl, getLsbD_statusWord_zero]
  have hbusy : (s.atLine rest).busy = s.busy := rfl
  refine ⟨_, rfl, ?_⟩
  rw [hbusy]
  cases s.busy with
  | true => exact ⟨rfl, rfl, rfl, rfl, rfl, rfl⟩
  | false => exact ⟨rfl, rfl, rfl, rfl, rfl, rfl⟩

/-- In TRIG a command's step is the CONTROL write of its FUNC, whatever its word, MODE and CHECK (R122). -/
theorem commandStep_trig {s : State} (hst : s.mc.st = .trig) (w : Word) (f : Func) (m : Mode) (check : State → State) :
    commandStep w f m check s = trigStep f s := by
  rw [commandStep, hst]

/-- Settles O39: in TRIG the step asks for `opc(3)`, and there is none (R99). -/
theorem trigOfFunc3HasNoOpcode : Obligations.TrigOfFunc3HasNoOpcode := fun mode rsvd _ hst =>
  commandStep_trig hst (encode (.illegalFunc3 mode rsvd)) .reserved mode checkIllegal

end Sys2Proof.Machine
end

section
/-! PROOFS. The AESU contract: what each access and each device opcode does, by phase (R128 to R139, R143). -/

namespace Sys2Proof.Machine

open Sys2Proof.Safety

/-! DATA_IN, lane by lane. -/

/-- Byte `k` of a block is byte `k mod 4` of its word `k / 4` (R8). -/
theorem blockByte_eq_word_byte (b : Block) (k : Nat) : blockByte b k = (blockWord b (k / 4)).extractLsb' (8 * (k % 4)) 8 := by
  apply BitVec.eq_of_getLsbD_eq
  intro i hi
  simp only [blockByte, blockWord, BitVec.getLsbD_extractLsb', hi, show 8 * (k % 4) + i < 32 by omega, decide_true, Bool.true_and]
  exact congrArg _ (by omega)

/-- A lane write replaces its own word and no other (R132). -/
theorem blockWord_setBlockWord (b : Block) (j : Nat) (w : Word) {i : Nat} (hi : i < 4) :
    blockWord (setBlockWord b j w) i = if i = j then w else blockWord b i := by
  interval_cases i <;> simp [setBlockWord, eq_comm]

/-- A lane write, byte by byte (R132). -/
theorem blockByte_setBlockWord (b : Block) (j : Nat) (w : Word) {k : Nat} (hk : k < 16) :
    blockByte (setBlockWord b j w) k = if k / 4 = j then w.extractLsb' (8 * (k % 4)) 8 else blockByte b k := by
  rw [blockByte_eq_word_byte, blockWord_setBlockWord b j w (by omega), blockByte_eq_word_byte b]
  split_ifs <;> rfl

/-! What MC's writes do to AESU, by phase. -/

section
variable {a : Aesu} (n : Nat)

theorem aesuWriteDin_idle (h : a.phase = .fresh ∨ a.phase = .ready) (j : Nat) (w : Word) :
    aesuWriteDin a n j w = { a with din := setBlockWord a.din j w } := by
  rcases h with h | h <;> simp [aesuWriteDin, h]

theorem aesuWriteDin_busy {op : DevOp} (h : a.phase = .busy op) (j : Nat) (w : Word) : aesuWriteDin a n j w = aesuWedge a n := by
  simp [aesuWriteDin, h]

theorem aesuWriteDin_wedged (h : a.phase = .wedged) (j : Nat) (w : Word) : aesuWriteDin a n j w = a := by
  simp [aesuWriteDin, h]

theorem aesuWriteBlock_idle (h : a.phase = .fresh ∨ a.phase = .ready) (b : Block) : aesuWriteBlock a n b = { a with din := b } := by
  rcases h with h | h <;> simp [aesuWriteBlock, h]

theorem aesuWriteBlock_busy {op : DevOp} (h : a.phase = .busy op) (b : Block) : aesuWriteBlock a n b = aesuWedge a n := by
  simp [aesuWriteBlock, h]

theorem aesuWriteBlock_wedged (h : a.phase = .wedged) (b : Block) : aesuWriteBlock a n b = a := by
  simp [aesuWriteBlock, h]

theorem aesuWriteControl_rejected (h : a.phase = .fresh ∨ a.phase = .ready) {p : DevParams} {w : Word} {r : Reject}
    (hw : decodeControl p w = .error r) : aesuWriteControl p a n w = aesuWedge a n := by
  rcases h with h | h <;> simp [aesuWriteControl, h, hw]

theorem aesuWriteControl_busy {op : DevOp} (h : a.phase = .busy op) (p : DevParams) (w : Word) :
    aesuWriteControl p a n w = aesuWedge a n := by
  simp [aesuWriteControl, h]

theorem aesuWriteControl_wedged (h : a.phase = .wedged) (p : DevParams) (w : Word) : aesuWriteControl p a n w = a := by
  simp [aesuWriteControl, h]

theorem aesuTrigger_idle (h : a.phase = .fresh ∨ a.phase = .ready) (op : DevOp) : aesuTrigger a n op = { a with phase := .busy op } := by
  rcases h with h | h <;> simp [aesuTrigger, h]

theorem aesuTrigger_busy {op' : DevOp} (h : a.phase = .busy op') (op : DevOp) : aesuTrigger a n op = aesuWedge a n := by
  simp [aesuTrigger, h]

theorem aesuTrigger_wedged (h : a.phase = .wedged) (op : DevOp) : aesuTrigger a n op = a := by
  simp [aesuTrigger, h]

end

/-- Settles O22: the offset names lane `j` of DATA_IN at every layout, and a lane write replaces the four bytes of its word. -/
theorem dataInWrites : Obligations.DataInWrites := by
  intro p a n w hp j hj
  rw [aesuWrite_din hp a n w j hj]
  refine ⟨fun h => ⟨setBlockWord a.din j w, ?_, fun k hk => blockByte_setBlockWord a.din j w hk⟩, fun op h => ?_, fun h => ?_⟩
  · rw [aesuWriteDin_idle n h]
  · rw [aesuWriteDin_busy n h]
    rfl
  · rw [aesuWriteDin_wedged n h]

/-- Settles O23: an opcode is read back as its operation, and any other word is rejected, which wedges AESU (R98). -/
theorem controlWrites : Obligations.ControlWrites := by
  intro p a n w hp
  rw [aesuWrite_ctrl]
  refine ⟨fun h => ?_, fun op h => ?_, fun h => ?_⟩
  · have hopc : ∀ op, w = p.opc op → Except.ok (ε := Refusal) (aesuWriteControl p a n w) = .ok { a with phase := .busy op } := by
      rintro op rfl
      rw [aesuWriteControl_opc hp, aesuTrigger_idle n h]
    refine ⟨hopc .enc, hopc .dec, hopc .setKey, fun he hd hk => ?_⟩
    rw [aesuWriteControl_rejected n h (decodeControl_other he hd hk)]
    rfl
  · rw [aesuWriteControl_busy n h]
    rfl
  · rw [aesuWriteControl_wedged n h]

/-! What MC's reads return. -/

theorem aesuStatus_eq_readyStatus {a : Aesu} (h : a.phase = .ready) (n : Nat) :
    aesuStatus a n = readyStatus (Config.freeReadySeed n) := by
  rw [aesuStatus, h]

theorem aesuStatus_free {a : Aesu} (h : a.phase = .fresh ∨ a.phase = .wedged) (n : Nat) : aesuStatus a n = Config.freeStatus n := by
  rcases h with h | h <;> simp [aesuStatus, h]

theorem aesuDataOut_free {a : Aesu} (h : a.phase ≠ .ready) (n j : Nat) : aesuDataOut a n j = Config.freeDataOut n j := by
  cases hp : a.phase with
  | ready => exact absurd hp h
  | _ => simp [aesuDataOut, hp]

/-- The words a ready STATUS can be are the nonzero ones (R135). -/
theorem ne_zero_iff_readyStatus (w : Word) : w ≠ 0 ↔ ∃ seed, readyStatus seed = w := by
  constructor
  · exact fun h => ⟨w, if_neg h⟩
  · rintro ⟨seed, rfl⟩
    exact readyStatus_ne_zero seed

/-- Settles O24: the offsets name STATUS and the lanes of DATA_OUT at every layout. -/
theorem statusAndDataOutReads : Obligations.StatusAndDataOutReads := by
  refine ⟨fun p a n hp => ?_, ne_zero_iff_readyStatus⟩
  rw [aesuRead_stat]
  refine ⟨fun op h => ?_, fun h => ?_, fun h => ?_, fun j hj => ?_⟩
  · rw [aesuStatus_busy h]
  · rw [aesuStatus_eq_readyStatus h]
  · rw [aesuStatus_free h]
  · rw [aesuRead_dout hp a n j hj]
    exact ⟨fun h => by rw [aesuDataOut_ready h], fun h => by rw [aesuDataOut_free h]⟩

/-! The device opcodes. -/

/-- A device opcode of AESU not busy with that operation is its CONTROL write (R133). -/
theorem exec_devInstr_trigger {op : DevOp} {s : State} (hd : s.dev.ok = true) (hp : s.aesu.phase ≠ .busy op) :
    exec (devInstr op) s = .next { s with aesu := aesuTrigger s.aesu s.draws op } := by
  have h : deviceStep op s = { s with aesu := aesuTrigger s.aesu s.draws op } := by
    rw [deviceStep, if_neg hp, aesuWriteControl_opc hd]
  cases op <;> exact congrArg _ h

/-- Settles O26: the opcode is a CONTROL write, in every phase but Busy with that very operation. -/
theorem deviceOpcodesStart : Obligations.DeviceOpcodesStart := by
  intro i op s hi hd
  have he : s.aesu.phase ≠ .busy op → exec i s = .next { s with aesu := aesuTrigger s.aesu s.draws op } := by
    simp only [deviceOpcodes, List.mem_cons, List.not_mem_nil, or_false, Prod.mk.injEq] at hi
    rcases hi with ⟨rfl, rfl⟩ | ⟨rfl, rfl⟩ | ⟨rfl, rfl⟩ <;> exact exec_devInstr_trigger hd
  refine ⟨fun h => ?_, fun op' h hne => ?_, fun h => ?_⟩
  · rw [he (by rcases h with h | h <;> simp [h]), aesuTrigger_idle _ h]
  · rw [he (by simpa [h] using hne), aesuTrigger_busy _ h]
    rfl
  · rw [he (by simp [h]), aesuTrigger_wedged _ h]

/-- Settles O27: AESU busy with an operation completes it, under the loaded key if there is one. -/
theorem deviceOpcodesComplete : Obligations.DeviceOpcodesComplete := by
  refine fun s => ⟨fun h => ?_, fun h => ?_, exec_devInstr_busy⟩
  · have he : exec .encrypt s = _ := exec_devInstr_busy h
    refine ⟨fun k hk => ?_, _, he⟩
    rw [he, aesuComplete_with_key (by decide) hk]
    rfl
  · have he : exec .decrypt s = _ := exec_devInstr_busy h
    refine ⟨fun k hk => ?_, _, he⟩
    rw [he, aesuComplete_with_key (by decide) hk]
    rfl

end Sys2Proof.Machine
end

section
/-! PROOFS. MC's steps of a device transaction, and LOAD_KEY as a whole (R120 to R126, R191). -/

namespace Sys2Proof.Machine

open Sys2Proof.Safety

/-! The steps the five legal commands share. -/

section
variable {i : Instr} {op : DevOp} (hi : (i, op) ∈ legalCommands) {s : State}
include hi

/-- WRDIN of a legal command, in any phase of AESU (R121). -/
theorem exec_wrdin_legal (hd : s.dev.ok = true) (hst : s.mc.st = .wrdin) :
    exec i s = .next { s with
      aesu := aesuWriteBlock s.aesu s.draws s.mc.xblk, bus := wrdinEvents s.dev s.mc.xblk ++ s.bus, mc := { s.mc with st := .trig } } := by
  obtain ⟨f, m, c, he, -⟩ := exec_legal hi s
  rw [he, commandStep, hst]
  exact wrdinStep_eq hd

/-- TRIG of a legal command, in any phase of AESU (R122). -/
theorem exec_trig_legal (hd : s.dev.ok = true) (hst : s.mc.st = .trig) :
    exec i s = .next { s with
      aesu := aesuTrigger s.aesu s.draws op, bus := .devWrite s.dev.ctrlOff (s.dev.opc op) :: s.bus
      mc := { s.mc with pcnt := 0, st := .poll } } := by
  obtain ⟨f, m, c, he, hop, -⟩ := exec_legal hi s
  rw [he, commandStep, hst]
  exact trigStep_eq hd hop

/-- WRDIN to a Fresh or Ready AESU puts the operand in DATA_IN (R121, R132). -/
theorem exec_wrdin_idle (hd : s.dev.ok = true) (hst : s.mc.st = .wrdin) (hp : s.aesu.phase = .fresh ∨ s.aesu.phase = .ready) :
    exec i s = .next { s with
      aesu := { s.aesu with din := s.mc.xblk }, bus := wrdinEvents s.dev s.mc.xblk ++ s.bus, mc := { s.mc with st := .trig } } := by
  rw [exec_wrdin_legal hi hd hst, aesuWriteBlock_idle _ hp]

/-- TRIG of a Fresh or Ready AESU starts the command's operation (R122, R133). -/
theorem exec_trig_idle (hd : s.dev.ok = true) (hst : s.mc.st = .trig) (hp : s.aesu.phase = .fresh ∨ s.aesu.phase = .ready) :
    exec i s = .next { s with
      aesu := { s.aesu with phase := .busy op }, bus := .devWrite s.dev.ctrlOff (s.dev.opc op) :: s.bus
      mc := { s.mc with pcnt := 0, st := .poll } } := by
  rw [exec_trig_legal hi hd hst, aesuTrigger_idle _ hp]

/-- POLL of a legal command acts on the STATUS word it reads as its FUNC says (R123). -/
theorem exec_poll_legal (hst : s.mc.st = .poll) :
    ∃ f, (f = .setKey ↔ i = .loadKey) ∧ exec i s = .next (pollAnswer f (aesuStatus s.aesu s.draws)
      { s with bus := .devRead s.dev.statOff (aesuStatus s.aesu s.draws) :: s.bus }) := by
  obtain ⟨f, m, c, he, -, hf⟩ := exec_legal hi s
  refine ⟨f, hf, ?_⟩
  rw [he, commandStep, hst]
  exact pollStep_eq f s

end

/-- Settles O33, with AESU after the four lane writes as after one block write. -/
theorem wrdinWritesTheOperand : Obligations.WrdinWritesTheOperand := fun _ _ _ hi hd hst =>
  ⟨_, exec_wrdin_legal hi hd hst, fun h => aesuWriteBlock_idle _ h _, fun _ h => aesuWriteBlock_busy _ h _,
    fun h => aesuWriteBlock_wedged _ h _⟩

/-- Settles O34: the opcode written is the one AESU reads back as the command's operation, and then the phase decides. -/
theorem trigStartsTheOperation : Obligations.TrigStartsTheOperation := by
  intro i op s hi hd hst
  refine ⟨aesuTrigger s.aesu s.draws op, ?_, fun h => aesuTrigger_idle _ h op, fun _ h => aesuTrigger_busy _ h op,
    fun h => aesuTrigger_wedged _ h op⟩
  rw [exec_trig_legal hi hd hst]
  cases op <;> rfl

/-- Settles O35, by what POLL does with the word it read (`pollAnswer_cases`). -/
theorem pollFollowsItsPseudocode : Obligations.PollFollowsItsPseudocode := by
  intro i op s v hi hst hv
  rw [aesuRead_stat, Except.ok.injEq] at hv
  subst hv
  obtain ⟨f, hf, he⟩ := exec_poll_legal hi hst
  rw [he]
  obtain ⟨hv, hk, e⟩ | ⟨hv, hk, e⟩ | ⟨hv, ht, e⟩ | ⟨hv, ht, e⟩ := pollAnswer_cases f (aesuStatus s.aesu s.draws)
    { s with bus := .devRead s.dev.statOff (aesuStatus s.aesu s.draws) :: s.bus } <;> rw [e]
  · rw [if_pos hv, if_pos (hf.1 hk)]
    rfl
  · rw [if_pos hv, if_neg (mt hf.2 hk)]
    rfl
  · rw [if_neg (not_not.2 hv), if_pos ht]
    rfl
  · rw [if_neg (not_not.2 hv), if_neg ht, ← hst]
    rfl

/-- Settles O36: each of the four reads is of a lane of DATA_OUT. -/
theorem rdoutReadsTheResult : Obligations.RdoutReadsTheResult := by
  intro i f m op s hc hd hst
  refine ⟨_, _, _, _, aesuRead_dout hd s.aesu s.draws 0 (by omega), aesuRead_dout hd s.aesu s.draws 1 (by omega),
    aesuRead_dout hd s.aesu s.draws 2 (by omega), aesuRead_dout hd s.aesu s.draws 3 (by omega), ?_,
    fun hp => aesuOutBlock_ready hp s.draws⟩
  rw [(exec_crypt hc s).1, commandStep, hst]
  exact rdoutStep_eq hd

/-- POLL of LOAD_KEY with AESU Ready reads a nonzero STATUS word and ends the command with NONE and KEYED = 1 (R123, R126). -/
theorem exec_loadKey_poll_ready {s : State} (hst : s.mc.st = .poll) (hp : s.aesu.phase = .ready) :
    exec .loadKey s = .next { s with
      creg := { s.creg with keyed := true, err := .none, done := true }, mc := { s.mc with pcnt := s.mc.pcnt + 1, st := .idle }
      bus := .devRead s.dev.statOff (readyStatus (Config.freeReadySeed s.draws)) :: s.bus } := by
  rw [pollFollowsItsPseudocode .loadKey .setKey s _ (by decide) hst (aesuRead_stat ..), aesuStatus_eq_readyStatus hp,
    if_pos (readyStatus_ne_zero _), if_pos rfl]

/-- Settles O41: CHECK takes KEYSTG as the operand, WRDIN and TRIG send it and start SET_KEY, the completion loads it, and the poll finds
AESU Ready. -/
theorem loadKeyLoadsTheKey : Obligations.LoadKeyLoadsTheKey := by
  intro s hd hst hp
  have hi : (Instr.loadKey, DevOp.setKey) ∈ legalCommands := by decide
  have h1 : exec .loadKey s = .next (checkLoadKey s) := by rw [exec, execLoadKey, commandStep, hst]
  refine ⟨_, _, _, _, _, h1, exec_wrdin_idle hi hd rfl hp, exec_trig_idle hi hd rfl hp, exec_devInstr_busy (op := .setKey) rfl,
    exec_loadKey_poll_ready rfl rfl, rfl, rfl, rfl, rfl, rfl, rfl, _, readyStatus_ne_zero (Config.freeReadySeed s.draws), ?_⟩
  simp [wrdinEvents, keyBlock, DevParams.opc]

end Sys2Proof.Machine
end

section
/-! PROOFS. What puts AESU in a phase, what keeps it there, and how MC comes to RDOUT (R122, R125, R137, R139, R223). -/

namespace Sys2Proof.Machine

open Sys2Proof.Safety

section
variable {s t : State}

theorem CheckMove.aesu_eq (h : CheckMove s t) : t.aesu = s.aesu := by
  cases h with
  | illegal _ eq => rw [eq, checkIllegal, finish_aesu]
  | loadKey _ _ _ eq => rw [eq, checkLoadKey_aesu]
  | crypt _ _ _ _ eq =>
    subst eq
    unfold checkCrypt
    split_ifs <;> rfl

theorem pollAnswer_aesu (f : Func) (v : Word) (s : State) : (pollAnswer f v s).aesu = s.aesu := by
  obtain ⟨_, _, e⟩ | ⟨_, _, e⟩ | ⟨_, _, e⟩ | ⟨_, _, e⟩ := pollAnswer_cases f v s <;> rw [e] <;> rfl

theorem wbackStep_aesu (f : Func) (m : Mode) (s : State) : (wbackStep f m s).aesu = s.aesu := by
  by_cases hl : s.mc.idx.toNat + 1 = s.mc.nblk.toNat
  · rw [wbackStep_last hl, wbackStored_aesu]
  · rw [wbackStep_more hl, wbackStored_aesu]

/-- MC changes AESU only by WRDIN's DATA_IN writes and TRIG's CONTROL write (R120 to R122). -/
theorem McMove.aesu_cases (h : McMove s t) :
    t.aesu = s.aesu ∨ t.aesu = aesuWriteBlock s.aesu s.draws s.mc.xblk ∨
      (s.mc.st = .trig ∧ ∃ op, devOpOf (funcOf s) = some op ∧ t.aesu = aesuTrigger s.aesu s.draws op) := by
  cases h with
  | check _ move => exact .inl move.aesu_eq
  | fetch _ eq => exact .inl (by rw [eq]; rfl)
  | wrdin _ eq => exact .inr (.inl (by rw [eq]))
  | trig st op opc eq => exact .inr (.inr ⟨st, op, opc, by rw [eq]⟩)
  | poll _ eq => exact .inl (by rw [eq, pollAnswer_aesu])
  | rdout _ eq => exact .inl (by rw [eq])
  | wback _ eq => exact .inl (by rw [eq, wbackStep_aesu])

/-- No write of MC brings a wedged AESU back (R139). -/
theorem McMove.wedged (h : McMove s t) (hw : s.aesu.phase = .wedged) : t.aesu.phase = .wedged := by
  obtain e | e | ⟨-, op, -, e⟩ := h.aesu_cases
  · rw [e, hw]
  · rw [e, aesuWriteBlock_wedged _ hw, hw]
  · rw [e, aesuTrigger_wedged _ hw, hw]

/-- MC puts AESU in phase Busy only by TRIG's CONTROL write to a Fresh or Ready AESU, with the operation of the command (R122, R133). -/
theorem McMove.trig_of_busy (h : McMove s t) {op : DevOp} (ht : t.aesu.phase = .busy op) (hs : s.aesu.phase ≠ .busy op) :
    s.mc.st = .trig ∧ devOpOf (funcOf s) = some op ∧ (s.aesu.phase = .fresh ∨ s.aesu.phase = .ready) ∧ t.aesu.key = s.aesu.key := by
  obtain e | e | ⟨hst, o, ho, e⟩ := h.aesu_cases <;> rw [e] at ht
  · exact absurd ht hs
  · obtain ⟨-, e'⟩ | hw := aesuWriteBlock_cases s.aesu s.draws s.mc.xblk
    · exact absurd ((congrArg Aesu.phase e').symm.trans ht) hs
    · cases hw.symm.trans ht
  · obtain ⟨hp, e'⟩ | hw := aesuTrigger_cases s.aesu s.draws o
    · rw [e'] at ht e
      cases ht
      exact ⟨hst, ho, hp, by rw [e]⟩
    · cases hw.symm.trans ht

theorem CheckMove.not_rdout (h : CheckMove s t) : t.mc.st ≠ .rdout := by
  cases h with
  | illegal _ eq => rw [eq]; nofun
  | loadKey _ _ _ eq => rw [eq]; nofun
  | crypt _ _ _ _ eq =>
    subst eq
    unfold checkCrypt
    split_ifs <;> nofun

theorem wbackStep_not_rdout (f : Func) (m : Mode) (s : State) : (wbackStep f m s).mc.st ≠ .rdout := by
  by_cases hl : s.mc.idx.toNat + 1 = s.mc.nblk.toNat
  · rw [wbackStep_last hl]
    nofun
  · rw [wbackStep_more hl]
    nofun

/-- POLL goes on to RDOUT only with a nonzero word (R123). -/
theorem pollAnswer_rdout {f : Func} {v : Word} (h : (pollAnswer f v s).mc.st = .rdout) : v ≠ 0 ∧ (pollAnswer f v s).bus = s.bus := by
  obtain ⟨-, -, e⟩ | ⟨hv, -, e⟩ | ⟨-, -, e⟩ | ⟨-, -, e⟩ := pollAnswer_cases f v s <;> rw [e] at h ⊢
  · cases h
  · exact ⟨hv, rfl⟩
  · cases h
  · cases h

/-- MC comes to RDOUT only by POLL's nonzero STATUS read (R125). -/
theorem McMove.poll_of_rdout (h : McMove s t) (ht : t.mc.st = .rdout) :
    s.mc.st = .poll ∧ ∃ v, v ≠ 0 ∧ t.bus = .devRead s.dev.statOff v :: s.bus := by
  cases h with
  | check _ move => exact absurd ht move.not_rdout
  | fetch _ eq => rw [eq] at ht; cases ht
  | wrdin _ eq => rw [eq] at ht; cases ht
  | trig _ _ _ eq => rw [eq] at ht; cases ht
  | poll st eq =>
    subst eq
    exact ⟨st, _, pollAnswer_rdout ht⟩
  | rdout _ eq => rw [eq] at ht; cases ht
  | wback _ eq => exact absurd ht (eq ▸ wbackStep_not_rdout _ _ s)

end

/-- Settles O28, by the moves a step can make. -/
theorem wedgedUntilSystemReset : Obligations.WedgedUntilSystemReset := by
  intro s t hd hs hw hturn
  cases step_move hd hs with
  | host _ eq =>
    obtain ⟨ha, -⟩ := hostStep_move eq
    rw [ha, afterTurn_aesu, hw]
  | mc _ _ move => exact move.wedged hw
  | complete _ op phase _ => cases phase.symm.trans hw
  | systemReset turn _ => exact absurd turn hturn
  | mcIdle _ _ eq => rw [eq, afterTurn_aesu, hw]
  | aesuIdle _ _ eq => rw [eq, afterTurn_aesu, hw]
  | mcReset _ eq => rw [eq, mcReset_aesu, afterTurn_aesu, hw]

/-- Settles O50, by the moves a step can make. -/
theorem rdoutOnlyAfterNonzeroStatus : Obligations.RdoutOnlyAfterNonzeroStatus := by
  intro s t hd hs ht hne
  cases step_move hd hs with
  | host _ eq =>
    obtain ⟨-, -, -, -, -, move⟩ := hostStep_move eq
    obtain e | ⟨-, e, -⟩ := move.mc_cases
    · exact absurd ((congrArg Mc.st e).symm.trans ht) hne
    · cases e.symm.trans ht
  | mc turn _ move => exact ⟨turn, move.poll_of_rdout ht⟩
  | mcReset _ eq => rw [eq] at ht; cases ht
  | systemReset _ eq => rw [eq] at ht; cases ht
  | mcIdle _ _ eq => subst eq; exact absurd ht hne
  | complete _ _ _ eq => subst eq; exact absurd ht hne
  | aesuIdle _ _ eq => subst eq; exact absurd ht hne

/-- Settles O54: the CONTROL write is TRIG's, and past CHECK the invariant gives a command with an operation other than SET_KEY KEYED = 1
and, with AESU not wedged, a key. -/
theorem encryptAndDecryptOnlyWithAKey : Obligations.EncryptAndDecryptOnlyWithAKey := by
  intro s t op h hs ht hne hop
  cases step_move h.dev_ok hs with
  | host _ eq =>
    obtain ⟨ha, -⟩ := hostStep_move eq
    exact absurd (ha ▸ ht) hne
  | mc turn _ move =>
    obtain ⟨hst, hf, hp, hkey⟩ := move.trig_of_busy ht hne
    have hkeyed : s.creg.keyed = true :=
      (h.keyed_running (pastCheck_of hst nofun nofun).1).trans (bne_iff_ne.2 (mt (devOpOf_setKey_iff hf).2 hop))
    have hnw : s.aesu.phase ≠ .wedged := by rcases hp with e | e <;> exact fun hw => nomatch e.symm.trans hw
    exact ⟨turn, hst, hkeyed, h.keyed_key hkeyed hnw, hkey⟩
  | complete _ o _ eq =>
    rw [eq] at ht
    cases (aesuComplete_phase o s.aesu _).symm.trans ht
  | systemReset _ eq => rw [eq] at ht; cases ht
  | mcIdle _ _ eq => subst eq; exact absurd ht hne
  | aesuIdle _ _ eq => subst eq; exact absurd ht hne
  | mcReset _ eq => subst eq; exact absurd ht hne

end Sys2Proof.Machine
end

section
/-! PROOFS. What a time-out leaves (R167, R224, R227). -/

namespace Sys2Proof.Safety

open Sys2Proof.Machine

/-- The count cannot pass its bound (R39): the read that reaches MC_TIMEOUT is the MC_TIMEOUT-th. -/
theorem Inv.last_poll {s : State} (h : Inv s) (hst : s.mc.st = .poll) (ht : s.creg.timeout ≤ s.mc.pcnt + 1) :
    s.mc.pcnt + 1 = s.creg.timeout := by
  have hlt := h.polls hst
  bv_omega

/-- Past CHECK MC_BLKCNT is the index of the block in hand, and 0 in LOAD_KEY (R29). -/
theorem InCommand.blkcnt_eq {s : State} (h : InCommand s) :
    s.creg.blkcnt = if funcOf s = .setKey then 0 else BitVec.ofNat 32 s.mc.idx.toNat := by
  split_ifs with hf
  · exact h.load_key_blkcnt hf
  · obtain ⟨-, -, -, hcount⟩ := h.counts hf
    rw [hcount, BitVec.ofNat_toNat]

end Sys2Proof.Safety

namespace Sys2Proof.Machine

open Sys2Proof.Safety

/-- POLL ends with DEVICE_TIMEOUT only after the last read MC_TIMEOUT allows, with KEYED = 0 (R123, R224). -/
theorem pollAnswer_timeout {f : Func} {v : Word} {s : State} (hst : (pollAnswer f v s).mc.st = .idle)
    (herr : (pollAnswer f v s).creg.err = .deviceTimeout) :
    s.creg.timeout ≤ s.mc.pcnt + 1 ∧ pollAnswer f v s = finish .deviceTimeout (setKeyed false (pollCounted s)) := by
  obtain ⟨-, -, e⟩ | ⟨-, -, e⟩ | ⟨-, ht, e⟩ | ⟨-, -, e⟩ := pollAnswer_cases f v s
  · rw [e] at herr
    cases herr
  · rw [e] at hst
    cases hst
  · exact ⟨ht, e⟩
  · rw [e] at hst
    cases hst

/-- MC's step from POLL is the answer to one STATUS read (R123). -/
theorem McMove.poll_eq {s t : State} (move : McMove s t) (hst : s.mc.st = .poll) :
    t = pollAnswer (funcOf s) (aesuStatus s.aesu s.draws) { s with bus := .devRead s.dev.statOff (aesuStatus s.aesu s.draws) :: s.bus } := by
  cases move with
  | poll _ eq => exact eq
  | check st => cases st.symm.trans hst
  | fetch st => cases st.symm.trans hst
  | wrdin st => cases st.symm.trans hst
  | trig st => cases st.symm.trans hst
  | rdout st => cases st.symm.trans hst
  | wback st => cases st.symm.trans hst

/-- Settles O55: the step is POLL's time-out, which writes no more of CREG than ERR, DONE and KEYED; the invariant gives the count of reads
and the count of blocks. -/
theorem timeoutLeavesTheBlockUnwritten : Obligations.TimeoutLeavesTheBlockUnwritten := by
  intro s t h hturn hst hs ht herr
  cases step_move h.dev_ok hs with
  | mc _ _ move =>
    obtain rfl := move.poll_eq hst
    obtain ⟨hreads, e⟩ := pollAnswer_timeout ht herr
    rw [e]
    exact ⟨h.last_poll hst hreads, rfl, rfl, rfl, rfl, rfl, (h.inCommand hst nofun nofun).blkcnt_eq⟩
  | mcIdle _ st _ => cases st.symm.trans hst
  | host turn _ => cases turn.symm.trans hturn
  | complete turn _ _ _ => cases turn.symm.trans hturn
  | aesuIdle turn _ _ => cases turn.symm.trans hturn
  | mcReset turn _ => cases turn.symm.trans hturn
  | systemReset turn _ => cases turn.symm.trans hturn

end Sys2Proof.Machine
end

section
/-! PROOFS. A completed command leaves the mode's function of its input (R197): the loop does (`blockLoop_at`), and the host's writes
meanwhile lie outside the ranges. -/

namespace Sys2Proof.Machine

open Sys2Proof.Safety

section
variable {s : State} {op : DevOp} {key : Block} {writes : List Host.Cell} {t : State}

/-- A run keeps the command's two ranges, so the host's quiet writes on the way lie outside the ranges it started with (R75). -/
theorem RunFrame.hostWrites_outside (h : RunFrame s key writes t) (hq : quiet t = true) : WritesOutside s.creg (hostWrites t) := by
  have hrange : inCommandRange t.creg = inCommandRange s.creg := by
    funext a
    rw [inCommandRange, h.len, h.src, h.dst, inCommandRange]
  have := Machine.hostWrites_outside hq
  rwa [WritesOutside, hrange] at this

/-- All the host's writes during a run lie outside the two ranges (R75). -/
theorem busyRun_writes_outside (hr : ReadyToRun s key) (hop : devOpOf (funcOf s) = some op) (run : BusyRun s writes t) :
    WritesOutside s.creg writes := by
  cases run with
  | refl => exact nofun
  | tail run hb hq =>
    obtain h | h := busyRun_follows_loop hr hop run
    · exact fun w hw => (List.mem_append.1 hw).elim (h.frame.hostWrites_outside hq w) (h.frame.outside w)
    · simp [h.not_busy] at hb

/-- A run that has ended with NONE has done the whole loop (R189, R224). -/
theorem Ended.done_of_none (h : Ended s op key writes t) (herr : t.creg.err = .none) :
    t.buf = withWrites (commandLoop s op key (lenBlocks s.creg).toNat).1 writes ∧
      ivBlock t.creg = if modeOf s = .cbc then (commandLoop s op key (lenBlocks s.creg).toNat).2 else ivBlock s.creg := by
  cases h with
  | done _ _ buf _ _ iv => exact ⟨buf, iv⟩
  | timeout _ _ err => cases err.symm.trans herr

/-- A run whose BUSY is 0 again has ended. -/
theorem busyRun_ended (hr : ReadyToRun s key) (hop : devOpOf (funcOf s) = some op) (run : BusyRun s writes t) (hb : t.busy = false) :
    Ended s op key writes t := by
  have hidle : t.mc.st = .idle := by simpa [State.busy] using hb
  obtain (h | h) | h := busyRun_follows_loop hr hop run
  · cases h.st.symm.trans hidle
  · exact absurd hidle h.past.1
  · exact h

end

/-- Settles O44: the run has done the whole loop (`busyRun_ended`), which leaves R197's blocks and chaining value (`blockLoop_at`), and the
host's writes are in no destination block (`busyRun_writes_outside`). -/
theorem completedCommandLeavesTheModeFunction : Obligations.CompletedCommandLeavesTheModeFunction := by
  intro s u writes key hr run hb herr n inp hranges
  obtain ⟨op, hop⟩ : ∃ op, devOpOf (funcOf s) = some op := legalWord_devOp hr.legal
  have hout := busyRun_writes_outside hr hop run
  obtain ⟨hbuf, hiv⟩ := (busyRun_ended hr hop run hb).done_of_none herr
  have hloop := blockLoop_at (mode := modeOf s) (key := key) (iv := ivBlock s.creg) hop hr.crypt (lenBlocks s.creg).isLt hranges
    hr.buf_wf le_rfl
  refine ⟨fun i hi => ?_, fun hm => ?_, fun hm => ?_⟩
  · rw [hbuf, memReadBlock_withWrites (commandLoop_wf _ _ hr.buf_wf) hout.inBuf fun _ hw => (hout.not_inBlock hi hw).2]
    exact hloop.written i hi
  · rw [hiv, if_pos hm]
    exact hloop.chain.trans (by rw [hm]; rfl)
  · rw [hiv, if_neg (by simp [hm])]

end Sys2Proof.Machine
end

section
/-! PROOFS. Acceptance and CHECK, for every command word (R181, R183, R196). -/

namespace Sys2Proof.Machine

open Sys2Proof.Safety

section
variable {s : State} (w : Word) (f : Func) (m : Mode) (check : State → State)

/-- From IDLE a command is accepted, whatever its FUNC, MODE and CHECK (R181). -/
theorem commandStep_idle (hst : s.mc.st = .idle) : commandStep w f m check s = .next (accept w s) := by
  rw [commandStep, hst]

/-- In CHECK a command's step is the CHECK of its class (R183). -/
theorem commandStep_check (hst : s.mc.st = .check) : commandStep w f m check s = .next (check s) := by
  rw [commandStep, hst]

end

/-- Settles O38: every command is the shared step, whose IDLE branch is the acceptance. -/
theorem commandsAreAcceptedFromIdle : Obligations.CommandsAreAcceptedFromIdle := by
  intro i s hi hst
  obtain ⟨f, m, hf, hm⟩ := command_fields hi
  obtain ⟨check, he, -⟩ := exec_command hf hm
  rw [he, commandStep_idle _ _ _ _ hst]

/-- MC's step in a command it has not ended is the latched word's (R38). -/
theorem mcStep_of_busy {s : State} (h : s.mc.st ≠ .idle) : mcStep s = exec (decodeCmd s.mc.cmd) s := if_neg h

/-- Settles O11: the placed word is the one latched, and the turn is MC's. -/
theorem placedWordRunsNext : Obligations.PlacedWordRunsNext := by
  intro s n w
  rw [State.withFetchWord, BitVec.ofNat_toNat, BitVec.setWidth_eq, step_of_turn (x := .mc) rfl]
  exact mcStep_of_busy (s := (placeCommand w s).afterTurn) nofun

/-- Settles O30: the CHECK of each of the three classes is the same. -/
theorem illegalCommandsEndAtCheck : Obligations.IllegalCommandsEndAtCheck := by
  rintro _ s hst (⟨m, r, rfl⟩ | ⟨r, rfl⟩ | ⟨f, m, r, rfl⟩)
  · exact commandStep_check (encode (.illegalFunc3 m r)) .reserved m checkIllegal hst
  · exact commandStep_check (encode (.illegalSetKeyMode1 r)) .setKey .cbc checkIllegal hst
  · exact commandStep_check (encode (.illegalRsvd f m r)) f m checkIllegal hst

/-! The fields of a command word in its own bits (R91). -/

theorem funcBits_eq_iff (w : Word) (f : Func) : w.extractLsb' 0 2 = funcBits f ↔ cmdFunc w = f :=
  ⟨fun h => by rw [cmdFunc, h, funcOfBits_funcBits], fun h => by rw [← h, cmdFunc, funcBits_funcOfBits]⟩

theorem modeBit_eq_iff (w : Word) (m : Mode) : w.extractLsb' 2 1 = modeBit m ↔ cmdMode w = m :=
  ⟨fun h => by rw [cmdMode, h, modeOfBit_modeBit], fun h => by rw [← h, cmdMode, modeBit_modeOfBit]⟩

/-! CHECK, by the class of the word. -/

section
variable {f : Func} {m : Mode}

/-- A word in any of the three groups of R96 is of one of the three illegal classes. -/
theorem decodeCmd_cmdWord_illegal {r : BitVec 29} (h : r ≠ 0 ∨ f = .reserved ∨ (f = .setKey ∧ m = .cbc)) :
    (∃ m' r', decodeCmd (cmdWord f m r) = .illegalFunc3 m' r') ∨ (∃ r', decodeCmd (cmdWord f m r) = .illegalSetKeyMode1 r') ∨
      (∃ f' m' r', decodeCmd (cmdWord f m r) = .illegalRsvd f' m' r') := by
  by_cases hf : f = .reserved
  · exact .inl ⟨m, r, hf ▸ decodeCmd_cmdWord_reserved m r⟩
  by_cases hk : f = .setKey ∧ m = .cbc
  · obtain ⟨rfl, rfl⟩ := hk
    exact .inr (.inl ⟨r, decodeCmd_cmdWord_setKey_cbc r⟩)
  · have hr : r ≠ 0 := h.resolve_right (by tauto)
    exact .inr (.inr ⟨f, m, r, decodeCmd_cmdWord_rsvd hr hf hk⟩)

/-- A word with RSVD = 0 and FUNC ENCRYPT or DECRYPT is one of the four commands, in either mode (R95). -/
theorem decodeCmd_cmdWord_crypt (hf : f ≠ .reserved) (hk : f ≠ .setKey) :
    ∃ op, (decodeCmd (cmdWord f m 0), f, m, op) ∈ cryptCommands := by
  cases f with
  | enc => exact ⟨.enc, by cases m <;> decide⟩
  | dec => exact ⟨.dec, by cases m <;> decide⟩
  | setKey => exact absurd rfl hk
  | reserved => exact absurd rfl hf

variable (m) {s : State}

/-- A length that is no multiple of 16 ends the command, whatever else is wrong (R183, R228). -/
theorem checkCrypt_alignment (ha : s.creg.len.extractLsb' 0 4 ≠ 0) : checkCrypt m s = finish .alignment s := by
  have : lenAligned s.creg = false := beq_eq_false_iff_ne.2 ha
  rw [checkCrypt, this]
  rfl

theorem checkCrypt_keyNotSet (ha : s.creg.len.extractLsb' 0 4 = 0) (hk : s.creg.keyed = false) :
    checkCrypt m s = finish .keyNotSet s := by
  have : lenAligned s.creg = true := beq_iff_eq.2 ha
  rw [checkCrypt, this, hk]
  rfl

/-- A command that passes both checks walks its blocks, or ends at once when it has none (R161, R183). -/
theorem checkCrypt_passed (ha : s.creg.len.extractLsb' 0 4 = 0) (hk : s.creg.keyed = true) :
    checkCrypt m s =
      if s.creg.len.extractLsb' 4 28 = 0 then finish .none (latchCrypt m s) else goto .fetch (latchCrypt m s) := by
  have : lenAligned s.creg = true := beq_iff_eq.2 ha
  rw [checkCrypt, this, hk]
  rfl

end

/-- Settles O29: the first condition is that of the illegal classes, the second leaves LOAD_KEY, and the rest is the CHECK of the four encrypt
and decrypt commands. -/
theorem checkFollowsItsPseudocode : Obligations.CheckFollowsItsPseudocode := by
  intro w s hst
  have hreserved : w.extractLsb' 0 2 = 3 ↔ cmdFunc w = .reserved := funcBits_eq_iff w .reserved
  have hsetKey : w.extractLsb' 0 2 = 2 ↔ cmdFunc w = .setKey := funcBits_eq_iff w .setKey
  have hcbc : w.extractLsb' 2 1 = 1 ↔ cmdMode w = .cbc := modeBit_eq_iff w .cbc
  have hrsvd : w.extractLsb' 3 29 = cmdRsvd w := rfl
  simp only [hreserved, hsetKey, hcbc, hrsvd]
  have hw := cmdWord_fields w
  generalize cmdFunc w = f, cmdMode w = m, cmdRsvd w = r at hw ⊢
  subst hw
  by_cases hillegal : r ≠ 0 ∨ f = .reserved ∨ (f = .setKey ∧ m = .cbc)
  · rw [if_pos hillegal]
    exact illegalCommandsEndAtCheck _ s hst (decodeCmd_cmdWord_illegal hillegal)
  rw [if_neg hillegal]
  obtain ⟨hr, hf, hk⟩ : r = 0 ∧ f ≠ .reserved ∧ ¬ (f = .setKey ∧ m = .cbc) := by simpa only [not_or, not_not] using hillegal
  subst hr
  by_cases hload : f = .setKey
  · obtain rfl : m = .ecb := by
      cases m with
      | ecb => rfl
      | cbc => exact absurd ⟨hload, rfl⟩ hk
    rw [if_pos hload, hload]
    exact commandStep_check (encode .loadKey) .setKey .ecb checkLoadKey hst
  · rw [if_neg hload]
    obtain ⟨op, hc⟩ := decodeCmd_cmdWord_crypt (m := m) hf hload
    obtain ⟨he, -⟩ := exec_crypt hc s
    rw [he, commandStep_check _ _ _ _ hst]
    by_cases halign : s.creg.len.extractLsb' 0 4 = 0
    · rw [if_neg (not_not.2 halign)]
      by_cases hkeyed : s.creg.keyed = false
      · rw [if_pos hkeyed, checkCrypt_keyNotSet m halign hkeyed]
      · rw [if_neg hkeyed, checkCrypt_passed m halign (eq_true_of_ne_false hkeyed), latchCrypt, ivBlock]
        split_ifs <;> rfl
    · rw [if_pos halign, checkCrypt_alignment m halign]

end Sys2Proof.Machine
end

section
/-! PROOFS. The two steps of a block that access BUF, FETCH and WBACK, with host writes open (R75, R187, R188). -/

namespace Sys2Proof.Machine

open Sys2Proof.Safety

/-! The datapath of each command (R184 to R186). -/

section
variable {i : Instr} {f : Func} {m : Mode} {op : DevOp} (hc : (i, f, m, op) ∈ cryptCommands)
include hc

theorem cryptCommands_cbcEnc_iff : m = .cbc ∧ f = .enc ↔ i = .cbcEnc :=
  (by decide : ∀ c ∈ cryptCommands, c.2.2.1 = .cbc ∧ c.2.1 = .enc ↔ c.1 = .cbcEnc) _ hc

theorem cryptCommands_cbcDec_iff : m = .cbc ∧ f = .dec ↔ i = .cbcDec :=
  (by decide : ∀ c ∈ cryptCommands, c.2.2.1 = .cbc ∧ c.2.1 = .dec ↔ c.1 = .cbcDec) _ hc

/-- Only CBC_ENC takes the chain into the operand. -/
theorem pre_of_crypt (chain x : Block) : pre f m chain x = if i = .cbcEnc then xorBlocks x chain else x := by
  simp only [pre, cryptCommands_cbcEnc_iff hc]

/-- Only CBC_DEC takes the chain into the output. -/
theorem post_of_crypt (chain y : Block) : post f m chain y = if i = .cbcDec then xorBlocks y chain else y := by
  simp only [post, cryptCommands_cbcDec_iff hc]

/-- Each of the CBC commands chains its ciphertext block: the output of CBC_ENC, the input of CBC_DEC. -/
theorem chainNext_of_crypt (chain x y : Block) :
    chainNext f m chain x y = if i = .cbcEnc then y else if i = .cbcDec then x else chain := by
  simp only [cryptCommands, List.mem_cons, List.not_mem_nil, or_false, Prod.mk.injEq] at hc
  rcases hc with ⟨rfl, rfl, rfl, rfl⟩ | ⟨rfl, rfl, rfl, rfl⟩ | ⟨rfl, rfl, rfl, rfl⟩ | ⟨rfl, rfl, rfl, rfl⟩ <;> rfl

end

/-- Settles O32: the block read is the one MC sees (`mcLoadBlock_quiet`, `mcLoadBlock_byte`). -/
theorem fetchReadsOneBlock : Obligations.FetchReadsOneBlock := by
  intro i f m op s hc hst
  refine ⟨mcLoadBlock (blockAt s.creg.src s.mc.idx.toNat) s, ?_, fun hr => mcLoadBlock_quiet hr _, fun k hk => mcLoadBlock_byte s _ hk⟩
  rw [exec_fetch hc hst, fetchStep, srcAddress, blockAddress_eq, pre_of_crypt hc]

section
variable (f : Func) (m : Mode) (s : State)

/-- What WBACK does to BUF and leaves open there is what its block write does (R75, R188). -/
theorem wbackStep_buffer : (wbackStep f m s).buf = (wbackStored f m s).buf ∧ (wbackStep f m s).hostRace = (wbackStored f m s).hostRace ∧
    (wbackStep f m s).bus = (wbackStored f m s).bus := by
  by_cases hl : s.mc.idx.toNat + 1 = s.mc.nblk.toNat
  · rw [wbackStep_last hl]
    generalize wbackStored f m s = u
    exact ⟨rfl, rfl, rfl⟩
  · rw [wbackStep_more hl]
    generalize wbackStored f m s = u
    exact ⟨rfl, rfl, rfl⟩

/-- What WBACK does to the registers: the block is counted and the chain updated; after the last block MC_IV takes the chain in CBC and the
command ends, otherwise MC goes on to the next block (R188, R189). -/
theorem wbackStep_registers :
    let t := wbackStep f m s
    let chain := wbackChain f m s
    let last := s.mc.idx.toNat + 1 = s.mc.nblk.toNat
    t.creg.blkcnt = BitVec.ofNat 32 (s.mc.idx.toNat + 1) ∧
      t.mc = (if last then { s.mc with chain := chain, st := .idle }
        else { s.mc with chain := chain, idx := BitVec.ofNat 28 (s.mc.idx.toNat + 1), st := .fetch }) ∧
      (last → t.creg.err = .none ∧ t.creg.done = true) ∧
      (¬ last → t.creg.err = s.creg.err ∧ t.creg.done = s.creg.done) ∧
      ivBlock t.creg = if last ∧ m = .cbc then chain else ivBlock s.creg := by
  have hcount := setWidth_add_one s.mc.idx
  by_cases hl : s.mc.idx.toNat + 1 = s.mc.nblk.toNat
  · rw [wbackStep_last hl]
    refine ⟨hcount, (if_pos hl).symm, fun _ => ⟨rfl, rfl⟩, fun hn => absurd hl hn, ?_⟩
    cases m with
    | ecb => exact (if_neg (by simp)).symm
    | cbc => exact (ivBlock_setIv (wbackChain f .cbc s) s.creg).trans (if_pos ⟨hl, rfl⟩).symm
  · rw [wbackStep_more hl]
    have hidx : s.mc.idx + 1 = BitVec.ofNat 28 (s.mc.idx.toNat + 1) := by
      apply BitVec.eq_of_toNat_eq
      simp
    refine ⟨hcount, ?_, fun h => absurd h hl, fun _ => ⟨rfl, rfl⟩, (if_neg fun h => hl h.1).symm⟩
    rw [if_neg hl, ← hidx]

end

/-- Settles O37: the bytes of BUF are those of MC's block write (`mcStoreBlock_at`), the registers those of WBACK, and the rest is its frame. -/
theorem wbackWritesOneBlock : Obligations.WbackWritesOneBlock := by
  intro i f m op s hc hst hwf _
  have hstored : wbackStored f m s = mcStoreBlock (blockAt s.creg.dst s.mc.idx.toNat)
      (if i = .cbcDec then xorBlocks s.mc.yblk s.mc.chain else s.mc.yblk) s := by
    rw [wbackStored, dstAddress, blockAddress_eq, post_of_crypt hc]
  obtain ⟨hbuf, hrace, hbus⟩ := wbackStep_buffer f m s
  obtain ⟨hcnt, hmc, hlast, hmore, hiv⟩ := wbackStep_registers f m s
  obtain ⟨⟨hlen, hsrc, hdst, hkey, htimeout, hovr, -, -, hkeyed, -⟩, ⟨-, -, haesu⟩, -, -, hdev, hhost, hsched, hdraws, -⟩ :=
    wbackStep_frame hst hwf f m
  have hexec := exec_wback hc hst
  rw [hstored] at hbuf hrace hbus
  rw [mcStoreBlock_bus] at hbus
  rw [wbackChain, chainNext_of_crypt hc] at hmc hiv
  generalize wbackStep f m s = t at *
  refine ⟨t, hexec, ⟨fun hr => ?_, fun c hn => ?_, fun k hk => ?_, hbus, hcnt, hmc, hlast, hmore, hiv⟩, hlen, hsrc, hdst, hkey,
    hkeyed (by simp [hst]) (by simp [hst]), hovr (by simp [hst]), htimeout, haesu (by simp [hst]) (by simp [hst]), hhost, hsched,
    hdraws, hdev, fun hr => ?_⟩
  · rw [hbuf, mcStoreBlock_quiet hr]
  · rw [hbuf, hrace]
    exact (mcStoreBlock_at hwf _ _).1 c fun j hj he => hn ((inBlock_iff _ c).2 ⟨j, hj, he⟩)
  · rw [hbuf, hrace, ← byteAddress_eq]
    exact (mcStoreBlock_at hwf _ _).2 k hk
  · rw [hrace, mcStoreBlock_hostRace_nil hr]

end Sys2Proof.Machine
end

section
/-! PROOFS. The errors of an encrypt or decrypt command at CHECK (R222, R223, R228). -/

namespace Sys2Proof.Machine

/-- The low four bits of MC_LEN, which CHECK tests, are its remainder modulo 16 (R222). -/
theorem len_lowBits_eq_zero_iff (c : Creg) : c.len.extractLsb' 0 4 = 0 ↔ c.len.toNat % 16 = 0 :=
  beq_iff_eq.symm.trans (lenAligned_iff c)

/-- Settles O31: in CHECK each of the four commands is `checkCrypt`, whose first two branches are the two errors. -/
theorem encryptAndDecryptErrorsAtCheck : Obligations.EncryptAndDecryptErrorsAtCheck := by
  intro i f m op s hc hst
  obtain ⟨he, -⟩ := exec_crypt hc s
  have haligned := len_lowBits_eq_zero_iff s.creg
  rw [he, commandStep_check _ _ _ _ hst]
  refine ⟨fun hlen => ?_, fun hlen hkeyed => ?_⟩
  · rw [checkCrypt_alignment m (haligned.not.2 hlen), finish]
  · rw [checkCrypt_keyNotSet m (haligned.2 hlen) hkeyed, finish]

end Sys2Proof.Machine
end

section
/-! PROOFS. MC's dead registers are never read: the ones kept are all that a step reads, in every FSM state (R35, R198, R253). -/

namespace Sys2Proof.Machine

open Sys2Proof.Safety

/-! What is kept of MC's registers. -/

section
variable {m : Mc}

@[simp] theorem hideMc_st (m : Mc) : (hideMc m).st = m.st := by
  cases h : m.st <;> simp [hideMc, keepWalk, h, Mc.reset, apply_ite Mc.st]

@[simp] theorem hideMc_hideMc (m : Mc) : hideMc (hideMc m) = hideMc m := by
  by_cases hf : cmdFunc m.cmd = .setKey <;> by_cases hm : cmdMode m.cmd = .cbc <;> cases hst : m.st <;>
    simp [hideMc, keepWalk, hst, hf, hm, Mc.reset]

/-- The word of a running command is kept. -/
theorem hideMc_cmd (h : m.st ≠ .idle) : (hideMc m).cmd = m.cmd := by
  cases hst : m.st <;> simp [hideMc, keepWalk, hst, apply_ite Mc.cmd] at h ⊢

/-- The operand is kept until it is sent (R121). -/
theorem hideMc_xblk (h : m.st = .wrdin) : (hideMc m).xblk = m.xblk := by simp [hideMc, h]

/-- The number of reads is kept while MC polls (R123). -/
theorem hideMc_pcnt (h : m.st = .poll) : (hideMc m).pcnt = m.pcnt := by simp [hideMc, h]

/-- The block index is kept where an address is made of it (R187, R188). -/
theorem hideMc_idx (h : m.st = .fetch ∨ m.st = .wback) : (hideMc m).idx = m.idx := by
  obtain h | h := h <;> simp [hideMc, h, keepWalk]

/-- The chain is kept in CBC where a block is made of it (R184, R185). -/
theorem hideMc_chain (h : m.st = .fetch ∨ m.st = .wback) (hm : cmdMode m.cmd = .cbc) : (hideMc m).chain = m.chain := by
  obtain h | h := h <;> simp [hideMc, h, keepWalk, hm]

/-- What WBACK reads but the chain is kept (R188). -/
theorem hideMc_wback (h : m.st = .wback) :
    (hideMc m).nblk = m.nblk ∧ (hideMc m).sblk = m.sblk ∧ (hideMc m).yblk = m.yblk := by
  simp [hideMc, h, keepWalk]

end

/-! What a step of a command leaves live does not depend on what was dead before it. LOAD_KEY keeps no walk and ECB no chain, hence the two
splits. -/

section
variable {m : Mc}

theorem hideMc_latched (h : m.st = .check) (n i : BitVec 28) (iv : Block) :
    hideMc { hideMc m with nblk := n, chain := if cmdMode m.cmd = .cbc then iv else (hideMc m).chain, idx := i, st := .fetch } =
      hideMc { m with nblk := n, chain := if cmdMode m.cmd = .cbc then iv else m.chain, idx := i, st := .fetch } := by
  by_cases hm : cmdMode m.cmd = .cbc <;> simp [hideMc, keepWalk, h, hm]

theorem hideMc_fetched (h : m.st = .fetch) (b x : Block) :
    hideMc { hideMc m with sblk := b, xblk := x, st := .wrdin } = hideMc { m with sblk := b, xblk := x, st := .wrdin } := by
  by_cases hf : cmdFunc m.cmd = .setKey <;> by_cases hm : cmdMode m.cmd = .cbc <;> simp [hideMc, keepWalk, h, hf, hm]

theorem hideMc_sent (h : m.st = .wrdin) : hideMc { hideMc m with st := .trig } = hideMc { m with st := .trig } := by
  by_cases hf : cmdFunc m.cmd = .setKey <;> by_cases hm : cmdMode m.cmd = .cbc <;> simp [hideMc, keepWalk, h, hf, hm]

theorem hideMc_polling (h : m.st = .trig ∨ m.st = .poll) (n : Word) :
    hideMc { hideMc m with pcnt := n, st := .poll } = hideMc { m with pcnt := n, st := .poll } := by
  by_cases hf : cmdFunc m.cmd = .setKey <;> by_cases hm : cmdMode m.cmd = .cbc <;> obtain h | h := h <;>
    simp [hideMc, keepWalk, h, hf, hm]

theorem hideMc_polled (h : m.st = .poll) (hf : cmdFunc m.cmd ≠ .setKey) (n : Word) :
    hideMc { hideMc m with pcnt := n, st := .rdout } = hideMc { m with pcnt := n, st := .rdout } := by
  by_cases hm : cmdMode m.cmd = .cbc <;> simp [hideMc, keepWalk, h, hf, hm]

theorem hideMc_received (h : m.st = .rdout) (y : Block) :
    hideMc { hideMc m with yblk := y, st := .wback } = hideMc { m with yblk := y, st := .wback } := by
  by_cases hm : cmdMode m.cmd = .cbc <;> simp [hideMc, keepWalk, h, hm]

theorem hideMc_stored (h : m.st = .wback) {c c' : Block} (hc : cmdMode m.cmd = .cbc → c = c') (i : BitVec 28) :
    hideMc { hideMc m with chain := c, idx := i, st := .fetch } = hideMc { m with chain := c', idx := i, st := .fetch } := by
  by_cases hm : cmdMode m.cmd = .cbc
  · simp [hideMc, keepWalk, h, hm, hc hm]
  · simp [hideMc, keepWalk, h, hm]

end

/-! States that differ in dead registers alone. -/

section
variable {s : State}

@[simp] theorem hideDead_mc (s : State) : (hideDead s).mc = hideMc s.mc := rfl
@[simp] theorem hideDead_creg (s : State) : (hideDead s).creg = s.creg := rfl
@[simp] theorem hideDead_aesu (s : State) : (hideDead s).aesu = s.aesu := rfl
@[simp] theorem hideDead_host (s : State) : (hideDead s).host = s.host := rfl

@[simp] theorem hideDead_hideDead (s : State) : hideDead (hideDead s) = hideDead s := by simp [hideDead]

/-- BUSY is not dead (R37). -/
@[simp] theorem hideDead_busy (s : State) : (hideDead s).busy = s.busy := by simp [State.busy]

theorem hideDead_congr {t u : State} (hs : t = { u with mc := t.mc }) (hm : hideMc t.mc = hideMc u.mc) : hideDead t = hideDead u := by
  rw [hs]
  simp only [hideDead, hm]

/-! MC's steps. -/

/-- LOAD_KEY keeps nothing from before its CHECK: all it reads is CREG (R183). -/
theorem checkLoadKey_hideDead (hst : s.mc.st = .check) (hf : cmdFunc s.mc.cmd = .setKey) :
    hideDead (checkLoadKey (hideDead s)) = hideDead (checkLoadKey s) := by
  refine hideDead_congr rfl ?_
  simp [hideMc, hst, hf]

theorem checkCrypt_hideDead (hst : s.mc.st = .check) :
    hideDead (checkCrypt (modeOf s) (hideDead s)) = hideDead (checkCrypt (modeOf s) s) := by
  by_cases ha : s.creg.len.extractLsb' 0 4 = 0
  · cases hk : s.creg.keyed with
    | false =>
      rw [checkCrypt_keyNotSet _ ha hk, checkCrypt_keyNotSet (s := hideDead s) _ ha hk]
      rfl
    | true =>
      rw [checkCrypt_passed _ ha hk, checkCrypt_passed (s := hideDead s) _ ha hk, hideDead_creg]
      split_ifs
      · rfl
      · exact hideDead_congr rfl (hideMc_latched hst _ _ _)
  · rw [checkCrypt_alignment _ ha, checkCrypt_alignment (s := hideDead s) _ ha]
    rfl

theorem fetchStep_hideDead (hst : s.mc.st = .fetch) (f : Func) :
    hideDead (fetchStep f (modeOf s) (hideDead s)) = hideDead (fetchStep f (modeOf s) s) := by
  have hsrc : srcAddress (hideDead s) = srcAddress s := congrArg (blockAddress s.creg.src) (hideMc_idx (.inl hst))
  have hload : mcLoadBlock (srcAddress s) (hideDead s) = mcLoadBlock (srcAddress s) s := rfl
  have hpre : ∀ b, pre f (modeOf s) (hideMc s.mc).chain b = pre f (modeOf s) s.mc.chain b :=
    fun _ => pre_congr (hideMc_chain (.inl hst))
  simp only [fetchStep, hsrc, hload, hideDead_mc, hpre]
  exact hideDead_congr rfl (hideMc_fetched hst _ _)

theorem wrdinStep_hideDead (hd : s.dev.ok = true) (hst : s.mc.st = .wrdin) :
    hideResult (wrdinStep (hideDead s)) = hideResult (wrdinStep s) := by
  rw [wrdinStep_eq hd, wrdinStep_eq (s := hideDead s) hd, hideDead_mc, hideMc_xblk hst]
  exact congrArg Host.Outcome.next (hideDead_congr rfl (hideMc_sent hst))

theorem trigStep_hideDead (hd : s.dev.ok = true) (hst : s.mc.st = .trig) (f : Func) :
    hideResult (trigStep f (hideDead s)) = hideResult (trigStep f s) := by
  cases hop : devOpOf f with
  | none => simp [trigStep, hop]
  | some op =>
    rw [trigStep_eq hd hop, trigStep_eq (s := hideDead s) hd hop]
    exact congrArg Host.Outcome.next (hideDead_congr rfl (hideMc_polling (.inl hst) _))

theorem pollAnswer_hideDead (hst : s.mc.st = .poll) (v : Word) :
    hideDead (pollAnswer (funcOf s) v (hideDead s)) = hideDead (pollAnswer (funcOf s) v s) := by
  unfold pollAnswer
  simp only [hideDead_creg, hideDead_mc, hideMc_pcnt hst]
  split_ifs with hv hf
  · rfl
  · exact hideDead_congr rfl (hideMc_polled hst hf _)
  · rfl
  · exact hideDead_congr rfl (hideMc_polling (.inr hst) _)

theorem pollStep_hideDead (hst : s.mc.st = .poll) :
    hideResult (pollStep (funcOf s) (hideDead s)) = hideResult (pollStep (funcOf s) s) := by
  rw [pollStep_eq, pollStep_eq]
  exact congrArg Host.Outcome.next (pollAnswer_hideDead
    (s := { s with bus := .devRead s.dev.statOff (aesuStatus s.aesu s.draws) :: s.bus }) hst _)

theorem rdoutStep_hideDead (hd : s.dev.ok = true) (hst : s.mc.st = .rdout) :
    hideResult (rdoutStep (hideDead s)) = hideResult (rdoutStep s) := by
  rw [rdoutStep_eq hd, rdoutStep_eq (s := hideDead s) hd]
  exact congrArg Host.Outcome.next (hideDead_congr rfl (hideMc_received hst _))

theorem wbackStored_hideDead (hst : s.mc.st = .wback) (f : Func) :
    wbackStored f (modeOf s) (hideDead s) = { wbackStored f (modeOf s) s with mc := hideMc s.mc } := by
  obtain ⟨-, -, hyblk⟩ := hideMc_wback hst
  have hdst : dstAddress (hideDead s) = dstAddress s := congrArg (blockAddress s.creg.dst) (hideMc_idx (.inr hst))
  have hpost : post f (modeOf s) (hideMc s.mc).chain s.mc.yblk = post f (modeOf s) s.mc.chain s.mc.yblk :=
    post_congr (hideMc_chain (.inr hst))
  rw [wbackStored, wbackStored, hdst, hideDead_mc, hyblk, hpost]
  exact mcStoreBlock_mc_update _ _ s _

theorem wbackStep_hideDead (hst : s.mc.st = .wback) (f : Func) :
    hideDead (wbackStep f (modeOf s) (hideDead s)) = hideDead (wbackStep f (modeOf s) s) := by
  obtain ⟨hnblk, hsblk, hyblk⟩ := hideMc_wback hst
  have hidx := hideMc_idx (.inr hst)
  have hcount : (hideDead s).mc.idx.toNat + 1 = (hideDead s).mc.nblk.toNat ↔ s.mc.idx.toNat + 1 = s.mc.nblk.toNat := by
    rw [hideDead_mc, hidx, hnblk]
  have hchain : modeOf s = .cbc → wbackChain f (modeOf s) (hideDead s) = wbackChain f (modeOf s) s := fun hm => by
    simp only [wbackChain, hideDead_mc, hsblk, hyblk, hm, chainNext, if_true]
  by_cases hl : s.mc.idx.toNat + 1 = s.mc.nblk.toNat
  · rw [wbackStep_last hl, wbackStep_last (hcount.2 hl), wbackStored_hideDead hst, hideDead_creg, hideDead_mc, hidx]
    have hiv : (if modeOf s = .cbc then setIv (wbackChain f (modeOf s) (hideDead s)) s.creg else s.creg) =
        if modeOf s = .cbc then setIv (wbackChain f (modeOf s) s) s.creg else s.creg := by
      split_ifs with hm
      · rw [hchain hm]
      · rfl
    rw [hiv]
    generalize wbackStored f (modeOf s) s = u
    exact hideDead_congr rfl rfl
  · rw [wbackStep_more hl, wbackStep_more (mt hcount.1 hl), wbackStored_hideDead hst, hideDead_creg, hideDead_mc, hidx]
    generalize wbackStored f (modeOf s) s = u
    exact hideDead_congr rfl (hideMc_stored hst hchain _)

/-- The shared step of the commands, if its CHECK reads no dead register. -/
theorem commandStep_hideDead (hd : s.dev.ok = true) (hst : s.mc.st ≠ .idle) (w : Word) {check : State → State}
    (hc : s.mc.st = .check → hideDead (check (hideDead s)) = hideDead (check s)) :
    hideResult (commandStep w (funcOf s) (modeOf s) check (hideDead s)) =
      hideResult (commandStep w (funcOf s) (modeOf s) check s) := by
  unfold commandStep
  rw [hideDead_mc, hideMc_st]
  cases h : s.mc.st with
  | idle => exact absurd h hst
  | check => exact congrArg Host.Outcome.next (hc h)
  | fetch => exact congrArg Host.Outcome.next (fetchStep_hideDead h _)
  | wrdin => exact wrdinStep_hideDead hd h
  | trig => exact trigStep_hideDead hd h _
  | poll => exact pollStep_hideDead h
  | rdout => exact rdoutStep_hideDead hd h
  | wback => exact congrArg Host.Outcome.next (wbackStep_hideDead h _)

theorem mcStep_hideDead (hd : s.dev.ok = true) : hideResult (mcStep (hideDead s)) = hideResult (mcStep s) := by
  by_cases hst : s.mc.st = .idle
  · simp [mcStep, hst, hideResult]
  obtain ⟨hf, hm⟩ := decodeCmd_fields s.mc.cmd
  obtain ⟨check, he, hcheck⟩ := exec_command hf hm
  rw [mcStep_of_busy hst, mcStep_of_busy (by simpa using hst), hideDead_mc, hideMc_cmd hst, he, he]
  refine commandStep_hideDead hd hst _ fun h => ?_
  obtain rfl | ⟨rfl, hi⟩ | ⟨rfl, -⟩ := hcheck
  · rfl
  · rw [hi] at hf
    exact checkLoadKey_hideDead h (Option.some.inj hf).symm
  · exact checkCrypt_hideDead h

/-! The host's steps. -/

theorem cregValue_hideDead (s : State) (off : Nat) : cregValue (hideDead s) off = cregValue s off := by
  have hstatus : statusWord (hideDead s) = statusWord s := by simp [statusWord]
  simp only [cregValue, hideDead_creg, hstatus]

/-- A read of CREG sees no register of MC but BUSY (R31, R37). -/
theorem cregRead_hideDead (off : Nat) (width : Width) (s : State) : cregRead off width (hideDead s) = hideDead (cregRead off width s) := by
  simp only [cregRead, cregReadValue, cregValue_hideDead]
  rfl

/-- A write of CREG looks at no register of MC but BUSY, and an acceptance leaves no more than the word alive (R33, R181). -/
theorem cregWrite_hideDead (off : Nat) (width : Width) (w : Word) (s : State) :
    hideDead (cregWrite off width w (hideDead s)) = hideDead (cregWrite off width w s) := by
  unfold cregWrite
  rw [hideDead_busy]
  split_ifs
  · exact hideDead_hideDead s
  · exact hideDead_congr rfl (hideMc_hideMc _)
  · rfl
  · exact hideDead_congr rfl (hideMc_hideMc _)

theorem hostStoreByte_hideDead (a : Word) (b : Byte) (s : State) :
    hostStoreByte a b (hideDead s) = hideDead (hostStoreByte a b s) := by
  have hraces : hostWriteRaces a (hideDead s) = hostWriteRaces a s := by simp [hostWriteRaces]
  simp only [hostStoreByte, hostWriteLost, hraces]
  rfl

theorem hostLine_hideDead (l : HostLine) (s : State) : hideResult (hostLine l (hideDead s)) = hideResult (hostLine l s) := by
  cases l with
  | cregWrite off width w =>
    simp only [hostLine]
    split_ifs
    · rfl
    · exact congrArg Host.Outcome.next (cregWrite_hideDead off width w s)
  | cregRead off width =>
    simp only [hostLine, cregRead_hideDead]
    split_ifs
    · rfl
    · exact congrArg Host.Outcome.next (hideDead_hideDead _)
  | bufWrite a b =>
    rw [hostLine, hostStoreByte_hideDead]
    exact congrArg Host.Outcome.next (hideDead_hideDead _)
  | bufRead a => exact congrArg Host.Outcome.next (hideDead_congr rfl (hideMc_hideMc _))
  | waitIdle =>
    simp only [hostLine, cregRead_hideDead, hideDead_busy]
    split_ifs
    · exact congrArg Host.Outcome.next (hideDead_congr rfl (hideMc_hideMc _))
    · exact congrArg Host.Outcome.next (hideDead_hideDead _)
  | expect w => exact congrArg Host.Outcome.next (hideDead_congr rfl (hideMc_hideMc _))

theorem hostStep_hideDead (s : State) : hideResult (hostStep (hideDead s)) = hideResult (hostStep s) := by
  unfold hostStep
  rw [hideDead_host]
  cases s.host.prog with
  | nil => exact congrArg Host.Outcome.next (hideDead_hideDead s)
  | cons l rest => exact hostLine_hideDead l { s with host := { s.host with prog := rest } }

/-! The other turns. -/

/-- AESU does not look at MC's registers (R40, R134). -/
theorem aesuStep_hideDead (s : State) : hideResult (aesuStep (hideDead s)) = hideResult (aesuStep s) := by
  rw [aesuStep_eq, aesuStep_eq, hideDead_aesu]
  cases s.aesu.phase <;> exact congrArg Host.Outcome.next (hideDead_congr rfl (hideMc_hideMc _))

theorem agentStep_hideDead (hd : s.dev.ok = true) (turn : Turn) :
    hideResult (agentStep turn (hideDead s)) = hideResult (agentStep turn s) := by
  cases turn with
  | host => exact hostStep_hideDead s
  | mc => exact mcStep_hideDead hd
  | aesu => exact aesuStep_hideDead s
  | mcReset => rfl
  | systemReset => rfl

end

/-- Settles O58: the schedule and the draw counter are no registers of MC, and each agent's step reads none of the dead ones. -/
theorem deadRegistersAreNeverRead : Obligations.DeadRegistersAreNeverRead :=
  fun s hd => agentStep_hideDead (s := s.afterTurn) hd s.turn

end Sys2Proof.Machine
end

section
/-! PROOFS. The bound on a command's MC steps: each MC step lowers it, no other agent's step touches it, so every command ends (R266). -/

namespace Sys2Proof.Machine

open Sys2Proof.Safety

section
variable {s t : State}

/-! The bound, by FSM state. -/

/-- The bound looks at MC's registers, MC_LEN and MC_TIMEOUT alone. -/
theorem stepsLeft_congr (hm : t.mc = s.mc) (hl : t.creg.len = s.creg.len) (ht : t.creg.timeout = s.creg.timeout) :
    stepsLeft t = stepsLeft s := by
  have hblocks : lenBlocks t.creg = lenBlocks s.creg := by rw [lenBlocks, lenBlocks, hl]
  have hfunc : funcOf t = funcOf s := congrArg (fun m : Mc => cmdFunc m.cmd) hm
  unfold stepsLeft afterPoll laterBlocks
  rw [hm, ht, hblocks, hfunc]

theorem stepsLeft_afterTurn (s : State) : stepsLeft s.afterTurn = stepsLeft s := rfl

theorem stepsLeft_idle (hst : s.mc.st = .idle) : stepsLeft s = 0 := by rw [stepsLeft, hst]

/-- The bound of LOAD_KEY at CHECK (R266). -/
theorem stepsLeft_check_setKey (hst : s.mc.st = .check) (hf : funcOf s = .setKey) : stepsLeft s = 1 + 2 + s.creg.timeout.toNat := by
  simp only [stepsLeft, hst, if_pos hf]

/-- The bound of every other command at CHECK (R161, R266). -/
theorem stepsLeft_check (hst : s.mc.st = .check) (hf : funcOf s ≠ .setKey) :
    stepsLeft s = 1 + (lenBlocks s.creg).toNat * (5 + s.creg.timeout.toNat) := by
  simp only [stepsLeft, hst, if_neg hf]

theorem stepsLeft_check_pos (hst : s.mc.st = .check) : 0 < stepsLeft s := by
  simp only [stepsLeft, hst]
  split_ifs <;> omega

theorem stepsLeft_fetch (hst : s.mc.st = .fetch) : stepsLeft s = 5 + s.creg.timeout.toNat + laterBlocks s := by rw [stepsLeft, hst]
theorem stepsLeft_wrdin (hst : s.mc.st = .wrdin) : stepsLeft s = 2 + s.creg.timeout.toNat + afterPoll s := by rw [stepsLeft, hst]
theorem stepsLeft_trig (hst : s.mc.st = .trig) : stepsLeft s = 1 + s.creg.timeout.toNat + afterPoll s := by rw [stepsLeft, hst]
theorem stepsLeft_poll (hst : s.mc.st = .poll) : stepsLeft s = (s.creg.timeout.toNat - s.mc.pcnt.toNat) + afterPoll s := by
  rw [stepsLeft, hst]
theorem stepsLeft_rdout (hst : s.mc.st = .rdout) : stepsLeft s = 2 + laterBlocks s := by rw [stepsLeft, hst]
theorem stepsLeft_wback (hst : s.mc.st = .wback) : stepsLeft s = 1 + laterBlocks s := by rw [stepsLeft, hst]

theorem afterPoll_le (s : State) : afterPoll s ≤ 2 + laterBlocks s := by
  unfold afterPoll
  split_ifs <;> omega

/-- While MC polls, fewer than MC_TIMEOUT reads have been made (R39). -/
theorem pcnt_lt_timeout (h : Inv s) (hst : s.mc.st = .poll) : s.mc.pcnt.toNat < s.creg.timeout.toNat := BitVec.lt_def.1 (h.polls hst)

/-- While a command runs the bound is not used up. -/
theorem stepsLeft_pos (h : Inv s) (hst : s.mc.st ≠ .idle) : 0 < stepsLeft s := by
  cases hs : s.mc.st with
  | idle => exact absurd hs hst
  | check => exact stepsLeft_check_pos hs
  | fetch => rw [stepsLeft_fetch hs]; omega
  | wrdin => rw [stepsLeft_wrdin hs]; omega
  | trig => rw [stepsLeft_trig hs]; omega
  | poll =>
    have := pcnt_lt_timeout h hs
    rw [stepsLeft_poll hs]
    omega
  | rdout => rw [stepsLeft_rdout hs]; omega
  | wback => rw [stepsLeft_wback hs]; omega

/-- A step that ends the command lowers the bound. -/
theorem stepsLeft_lt_of_idle (h : Inv s) (hst : s.mc.st ≠ .idle) (ht : t.mc.st = .idle) : stepsLeft t < stepsLeft s := by
  rw [stepsLeft_idle ht]
  exact stepsLeft_pos h hst

/-! MC's steps. -/

/-- CHECK: the walk of `n` blocks has `n` times the bound of a block before it (R266). -/
theorem CheckMove.stepsLeft_lt (h : Inv s) (hst : s.mc.st = .check) (move : CheckMove s t) : stepsLeft t < stepsLeft s := by
  have hb : s.mc.st ≠ .idle := by simp [hst]
  cases move with
  | illegal _ eq => exact stepsLeft_lt_of_idle h hb (by rw [eq]; rfl)
  | loadKey _ func _ eq =>
    subst eq
    have hf : funcOf (checkLoadKey s) = .setKey := func
    rw [stepsLeft_check_setKey hst func, stepsLeft_wrdin rfl, afterPoll, if_pos hf, checkLoadKey_creg]
    dsimp only
    omega
  | crypt _ _ func _ eq =>
    subst eq
    unfold checkCrypt
    split_ifs with _ _ hn
    · exact stepsLeft_lt_of_idle h hb rfl
    · exact stepsLeft_lt_of_idle h hb rfl
    · exact stepsLeft_lt_of_idle h hb rfl
    · have hpos : 0 < (lenBlocks s.creg).toNat := Nat.pos_of_ne_zero fun e => hn (BitVec.eq_of_toNat_eq e)
      obtain ⟨n, hn⟩ := Nat.exists_eq_add_one.2 hpos
      have hlater : laterBlocks (goto .fetch (latchCrypt (modeOf s) s)) = n * (5 + s.creg.timeout.toNat) := by
        simp [laterBlocks, hn]
      rw [stepsLeft_check hst func, stepsLeft_fetch rfl, hlater, hn, Nat.add_mul, goto_creg, latchCrypt_creg]
      omega

theorem pollAnswer_stepsLeft_lt (h : Inv s) (hst : s.mc.st = .poll) (v : Word) : stepsLeft (pollAnswer (funcOf s) v s) < stepsLeft s := by
  have hb : s.mc.st ≠ .idle := by simp [hst]
  have hlt := pcnt_lt_timeout h hst
  obtain ⟨-, -, e⟩ | ⟨-, hf, e⟩ | ⟨-, -, e⟩ | ⟨-, -, e⟩ := pollAnswer_cases (funcOf s) v s <;> rw [e]
  · exact stepsLeft_lt_of_idle h hb rfl
  · have hlater : laterBlocks (goto .rdout (pollCounted s)) = laterBlocks s := rfl
    rw [stepsLeft_rdout rfl, hlater, stepsLeft_poll hst, afterPoll, if_neg hf]
    omega
  · exact stepsLeft_lt_of_idle h hb rfl
  · have hafter : afterPoll (goto .poll (pollCounted s)) = afterPoll s := rfl
    have hcount : (s.mc.pcnt + 1).toNat = s.mc.pcnt.toNat + 1 := by
      have := s.creg.timeout.isLt
      simp
      omega
    rw [stepsLeft_poll rfl, hafter, stepsLeft_poll hst, goto_creg, goto_mc, pollCounted]
    dsimp only
    omega

/-- WBACK: the next block takes the first of the later blocks' shares (R188, R266). -/
theorem wbackStep_stepsLeft_lt (h : Inv s) (hst : s.mc.st = .wback) (f : Func) (m : Mode) : stepsLeft (wbackStep f m s) < stepsLeft s := by
  obtain ⟨hlt, -⟩ := h.counts (pastCheck_of hst nofun nofun).1 (h.load_key_states (.inr (.inr hst)))
  by_cases hl : s.mc.idx.toNat + 1 = s.mc.nblk.toNat
  · exact stepsLeft_lt_of_idle h (by simp [hst]) (by rw [wbackStep_last hl])
  · obtain ⟨n, hn⟩ := Nat.exists_eq_add_of_lt (show s.mc.idx.toNat + 1 < s.mc.nblk.toNat by omega)
    have hidx : (s.mc.idx + 1).toNat = s.mc.idx.toNat + 1 := by
      have := s.mc.nblk.isLt
      simp
      omega
    rw [wbackStep_more hl]
    generalize wbackStored f m s = u
    rw [stepsLeft_fetch rfl, stepsLeft_wback hst]
    simp only [laterBlocks, hidx]
    rw [show s.mc.nblk.toNat - (s.mc.idx.toNat + 1) = n + 1 by omega,
      show s.mc.nblk.toNat - (s.mc.idx.toNat + 1 + 1) = n by omega, Nat.add_mul]
    omega

/-- Every step of MC in a running command lowers the bound (R266). -/
theorem McMove.stepsLeft_lt (h : Inv s) (move : McMove s t) : stepsLeft t < stepsLeft s := by
  cases move with
  | check st move => exact move.stepsLeft_lt h st
  | fetch st eq =>
    subst eq
    have hle := afterPoll_le s
    have hafter : afterPoll (fetchStep (funcOf s) (modeOf s) s) = afterPoll s := rfl
    have htimeout : (fetchStep (funcOf s) (modeOf s) s).creg.timeout = s.creg.timeout := rfl
    rw [stepsLeft_fetch st, stepsLeft_wrdin rfl, hafter, htimeout]
    omega
  | wrdin st eq =>
    subst eq
    rw [stepsLeft_wrdin st, stepsLeft_trig rfl]
    exact Nat.add_lt_add_right (Nat.add_lt_add_right (by decide) _) (afterPoll s)
  | trig st op _ eq =>
    subst eq
    rw [stepsLeft_trig st, stepsLeft_poll rfl]
    exact Nat.add_lt_add_right (Nat.lt_one_add_iff.2 (Nat.sub_le _ _)) (afterPoll s)
  | poll st eq =>
    subst eq
    exact pollAnswer_stepsLeft_lt (s := { s with bus := .devRead s.dev.statOff (aesuStatus s.aesu s.draws) :: s.bus }) { h with } st _
  | rdout st eq =>
    subst eq
    rw [stepsLeft_rdout st, stepsLeft_wback rfl]
    exact Nat.add_lt_add_right (by decide) (laterBlocks s)
  | wback st eq => exact eq ▸ wbackStep_stepsLeft_lt h st _ _

/-! The other agents. -/

/-- A host step during a command leaves alone what the bound looks at: its writes to CREG are dropped (R33). -/
theorem HostMove.stepsLeft_eq (hst : s.mc.st ≠ .idle) (move : HostMove s t) : stepsLeft t = stepsLeft s := by
  cases move with
  | quiet creg mc => exact stepsLeft_congr mc (by rw [creg]) (by rw [creg])
  | store _ _ _ _ _ creg mc => exact stepsLeft_congr mc (by rw [creg]) (by rw [creg])
  | dropped _ creg mc => exact stepsLeft_congr mc (by rw [creg]) (by rw [creg])
  | register _ _ _ _ idle => exact absurd idle hst
  | accepted _ idle => exact absurd idle hst

/-- A turn of MC in a running command lowers the bound. -/
theorem StepMove.stepsLeft_lt (h : Inv s) (hst : s.mc.st ≠ .idle) (move : StepMove s t) (turn : s.turn = .mc) :
    stepsLeft t < stepsLeft s := by
  have hnot : ∀ {x : Turn}, s.turn = x → x = .mc := fun e => e.symm.trans turn
  cases move with
  | mc _ _ move => exact stepsLeft_afterTurn s ▸ move.stepsLeft_lt h.afterTurn
  | mcIdle _ st => exact absurd st hst
  | host e => cases hnot e
  | complete e => cases hnot e
  | aesuIdle e => cases hnot e
  | mcReset e => cases hnot e
  | systemReset e => cases hnot e

/-- A turn of AESU or the host keeps it. -/
theorem StepMove.stepsLeft_eq (hst : s.mc.st ≠ .idle) (move : StepMove s t) (turn : s.turn = .aesu ∨ s.turn = .host) :
    stepsLeft t = stepsLeft s := by
  cases move with
  | host _ eq =>
    obtain ⟨-, -, -, -, -, move⟩ := hostStep_move eq
    exact (move.stepsLeft_eq (s := s.afterTurn) hst).trans (stepsLeft_afterTurn s)
  | complete _ _ _ eq => exact stepsLeft_congr (by rw [eq]; rfl) (by rw [eq]; rfl) (by rw [eq]; rfl)
  | aesuIdle _ _ eq => exact stepsLeft_congr (by rw [eq]; rfl) (by rw [eq]; rfl) (by rw [eq]; rfl)
  | mcIdle e => simp [e] at turn
  | mc e => simp [e] at turn
  | mcReset e => simp [e] at turn
  | systemReset e => simp [e] at turn

/-! The schedule. -/

theorem CheckMove.sched_eq (move : CheckMove s t) : t.sched = s.sched := by
  cases move with
  | illegal _ eq => rw [eq, checkIllegal, finish_sched]
  | loadKey _ _ _ eq => rw [eq, checkLoadKey_sched]
  | crypt _ _ _ _ eq =>
    subst eq
    unfold checkCrypt
    split_ifs <;> rfl

theorem pollAnswer_sched (f : Func) (v : Word) (s : State) : (pollAnswer f v s).sched = s.sched := by
  obtain ⟨_, _, e⟩ | ⟨_, _, e⟩ | ⟨_, _, e⟩ | ⟨_, _, e⟩ := pollAnswer_cases f v s <;> rw [e] <;> rfl

theorem wbackStep_sched (f : Func) (m : Mode) (s : State) : (wbackStep f m s).sched = s.sched := by
  by_cases hl : s.mc.idx.toNat + 1 = s.mc.nblk.toNat
  · rw [wbackStep_last hl, wbackStored_sched]
  · rw [wbackStep_more hl, wbackStored_sched]

theorem McMove.sched_eq (move : McMove s t) : t.sched = s.sched := by
  cases move with
  | check _ move => exact move.sched_eq
  | fetch _ eq => rw [eq]; rfl
  | wrdin _ eq => rw [eq]
  | trig _ _ _ eq => rw [eq]
  | poll _ eq => rw [eq, pollAnswer_sched]
  | rdout _ eq => rw [eq]
  | wback _ eq => rw [eq, wbackStep_sched]

/-- A step takes the first turn off the schedule, and nothing else (R3). -/
theorem StepMove.sched_eq (move : StepMove s t) : t.sched = s.sched.tail := by
  cases move with
  | host _ eq =>
    obtain ⟨-, -, hsched, -⟩ := hostStep_move eq
    exact hsched
  | mcIdle _ _ eq => rw [eq, afterTurn_sched]
  | mc _ _ move => exact move.sched_eq
  | complete _ _ _ eq => rw [eq, afterTurn_sched]
  | aesuIdle _ _ eq => rw [eq, afterTurn_sched]
  | mcReset _ eq => rw [eq, mcReset_sched, afterTurn_sched]
  | systemReset _ eq => rw [eq, systemReset_sched, afterTurn_sched]

end

/-- Settles O59: the bound at CHECK by its definition, the countdown by the moves a step can make. -/
theorem everyMcStepCountsDown : Obligations.EveryMcStepCountsDown := by
  refine ⟨fun s hst => ⟨fun hw => ?_, fun hf => ?_⟩, fun s t h hst hs => ?_⟩
  · obtain ⟨hf, -⟩ := decodeCmd_fields s.mc.cmd
    rw [hw] at hf
    exact stepsLeft_check_setKey hst (Option.some.inj hf).symm
  · rw [stepsLeft_check hst hf, lenBlocks_toNat]
  · have move := step_move h.dev_ok hs
    exact ⟨move.stepsLeft_lt h hst, move.stepsLeft_eq hst⟩

/-- A run of `n + 1` steps is a step and a run of `n` steps. -/
theorem run_of_step {M : Host.Core} {s t : M.State} (hs : M.step s = .next t) (n : Nat) : M.run (n + 1) s = M.run n t := by
  rw [Host.Core.run, hs]

/-- A step of a scheduled turn that is no reset uses up no more of the bound than of MC's turns (R266). -/
theorem stepsLeft_le_count {s t : State} (h : Inv s) (hst : s.mc.st ≠ .idle) (move : StepMove s t) {x : Turn} {rest : List Turn}
    (hsched : s.sched = x :: rest) (hx : x ≠ .mcReset ∧ x ≠ .systemReset) (hle : stepsLeft s ≤ s.sched.count .mc) :
    stepsLeft t ≤ t.sched.count .mc := by
  have hturn : s.turn = x := by rw [State.turn, hsched]; rfl
  rw [move.sched_eq, hsched, List.tail_cons]
  rw [hsched, List.count_cons] at hle
  cases x with
  | mc =>
    have := move.stepsLeft_lt h hst hturn
    simp only [beq_self_eq_true, if_true] at hle
    omega
  | host => exact (move.stepsLeft_eq hst (.inr hturn)).trans_le hle
  | aesu => exact (move.stepsLeft_eq hst (.inl hturn)).trans_le hle
  | mcReset => exact absurd rfl hx.1
  | systemReset => exact absurd rfl hx.2

/-- The command of a state whose schedule is `turns` ends while they last, by induction on them. -/
theorem command_ends (turns : List Turn) : ∀ s : State, s.sched = turns → Inv s → HostInRange s → s.mc.st ≠ .idle →
    (∀ x ∈ s.sched, x ≠ .mcReset ∧ x ≠ .systemReset) → stepsLeft s ≤ s.sched.count .mc →
    ∃ n ≤ turns.length, ∃ t, Host.Core.run core n s = .next t ∧ t.mc.st = .idle := by
  induction turns with
  | nil =>
    intro s hsched h _ hst _ hle
    have := stepsLeft_pos h hst
    rw [hsched, List.count_nil] at hle
    omega
  | cons x rest ih =>
    intro s hsched h hr hst hx hle
    obtain ⟨t, ht, hrt⟩ := everyStepCompletes s h hr
    have move := step_move h.dev_ok ht
    by_cases hidle : t.mc.st = .idle
    · exact ⟨1, by simp, t, run_of_step (M := core) ht 0, hidle⟩
    have hsched' : t.sched = rest := by rw [move.sched_eq, hsched, List.tail_cons]
    have hle' := stepsLeft_le_count h hst move hsched (hx x (by simp [hsched])) hle
    have hx' : ∀ y ∈ t.sched, y ≠ .mcReset ∧ y ≠ .systemReset := fun y hy =>
      hx y (by rw [hsched]; exact List.mem_cons_of_mem x (hsched' ▸ hy))
    obtain ⟨n, hn, u, hu, hend⟩ := ih t hsched' (move.inv h) hrt hidle hx' hle'
    exact ⟨n + 1, Nat.succ_le_succ hn, u, (run_of_step (M := core) ht n).trans hu, hend⟩

/-- Settles O60, by induction on the schedule (`command_ends`). -/
theorem everyCommandEnds : Obligations.EveryCommandEnds := fun s => command_ends s.sched s rfl

end Sys2Proof.Machine
end

section
/-! PROOFS. The two resets: the values they leave (R250), and what they leave alone (R251, R252). -/

namespace Sys2Proof.Machine

/-- What R250 fixes of a state: CREG, and MC in IDLE. -/
theorem reset_values {t : State} (hc : t.creg = Creg.reset) (hst : t.mc.st = .idle) :
    t.mc.st = .idle ∧ statusWord t = 0 ∧ t.creg.len = 0 ∧ t.creg.src = 0 ∧ t.creg.dst = 0 ∧ ivBlock t.creg = 0 ∧
    keyBlock t.creg = 0 ∧ t.creg.timeout = 0x00100000 ∧ t.creg.blkcnt = 0 ∧
    ∀ off < 0x40, cregValue t off = if off = 0x34 then 0x00100000 else 0 := by
  have hstatus : statusWord t = 0 := by
    rw [statusWord, State.busy, hst, hc]
    decide
  refine ⟨hst, hstatus, ?_⟩
  rw [hc]
  refine ⟨rfl, rfl, rfl, by decide, by decide, rfl, rfl, fun off _ => ?_⟩
  unfold cregValue
  rw [hstatus, hc]
  split <;> simp_all [Creg.reset, Config.timeoutReset]

/-- Settles O56: in all four cases CREG holds its reset values and MC is in IDLE. -/
theorem resetPutsTheStatedValues : Obligations.ResetPutsTheStatedValues := by
  rintro t (rfl | ⟨p, rfl⟩ | ⟨s, rfl⟩ | ⟨s, rfl⟩) <;> exact reset_values rfl rfl

/-- Settles O57: a reset's step is the reset itself, on the state with the turn taken. -/
theorem resetsAbandonTheCommand : Obligations.ResetsAbandonTheCommand :=
  ⟨fun s ht => ⟨mcReset s.afterTurn, step_of_turn ht, rfl, rfl, rfl, rfl, rfl, rfl, rfl⟩,
    fun s ht => ⟨systemReset s.afterTurn, step_of_turn ht, rfl, rfl, rfl, rfl, rfl, rfl, rfl, rfl, rfl, rfl⟩⟩

end Sys2Proof.Machine
end
